-- ==== Sys2Proof/Word.lean ====
section
/-! DEFINITION. The word types of the block (00_scope.md R5, R9, R11). -/

namespace Sys2Proof

/-- One register, one histogram count, one command word: 64 bits (R5: `RW = CW = AW = 64`). -/
abbrev Word := BitVec 64

/-- One byte of a buffer, and the byte value that indexes `HIST` and `CODE` (R5: `NSYM = 256`). -/
abbrev Byte := BitVec 8

/-- A bit-string in time order, first symbol at the head; `true` is the symbol 1 (R11). -/
abbrev BitString := List Bool

end Sys2Proof
end

