-- ==== Sys2Proof/Config.lean ====
section
/-! DEFINITION. The fixed parameters of R5, the types of the table entries (R21, R22, R24), and the free values:
constants without a body that stand for what the spec leaves unspecified (R254, U5 of 93_implementation_defined.md). -/

namespace Sys2Proof

namespace Config

/-- `HDR_BYTES` of R5: the length of the container header, 256 counts of 4 bytes and one bit count of 4 bytes. -/
def hdrBytes : Nat := 1028

/-- `PAYLOAD_OFF` of R5: the container index of the first payload byte. -/
def payloadOff : Nat := 1028

/-- `NMAX` of R5: the most entries `NODE` can have. -/
def nmax : Nat := 511

/-- `LMAX` of R5: the longest possible code, in bits. -/
def lmax : Nat := 255

/-- The largest value of a 32-bit header field (`HFW = 32`, R5). -/
def fieldMax : Nat := 2 ^ 32 - 1

end Config

/-- `HIST` (R21): a 64-bit count for each of the 256 byte values. -/
abbrev Hist := Vector Word 256

/-- A node frequency is `FW = 72` bits wide (R5). -/
abbrev Freq := BitVec 72

/-- A node index is `IW = 9` bits wide (R5). -/
abbrev NodeIdx := BitVec 9

/-- One existing entry of `NODE` (R22). The constructor is the field `kind`: `leaf` is kind 0, `internal` kind 1. -/
inductive Node where
  | leaf (value : Byte) (freq : Freq)
  | internal (freq : Freq) (left right : NodeIdx)
  deriving DecidableEq, Repr

/-- `CODE` (R24): the code of each byte value. The field `len` is the length of the bit-string; the empty string is
the absent code, `len = 0`. -/
abbrev CodeTable := Vector BitString 256

namespace Config

/-- Free: what `SRC` holds at an index where the model's host has placed no byte (log entry 1). -/
opaque unplacedSrcByte : Nat → Byte

/-- Free: what `DST` holds at an index that no command has stored to and no fault has touched (log entry 2). `DST` is
plain memory (R68), so the byte depends on the index alone. -/
opaque initialDstByte : Nat → Byte

/-- Free: what `DST` holds at an index that a fault made unspecified (R68, R254; log entry 2). The first argument is the
draw made at that fault, the second the index. -/
opaque unspecifiedDstByte : Nat → Nat → Byte

/-- Free: `HIST` in phase `FAULT` (R254). The argument of this and of the next six is the draw (log entry 3). -/
opaque freeHist : Nat → Hist

/-- Free: the entries of `NODE`, and with their number `NNODES`, in phase `FAULT` (R254). -/
opaque freeNodes : Nat → List Node

/-- Free: `CODE` in phase `FAULT` (R254). -/
opaque freeCode : Nat → CodeTable

/-- Free: `VBITS` in phase `FAULT` (R254). -/
opaque freeVbits : Nat → BitVec 32

/-- Free: `ROOT` in phase `FAULT` (R254). -/
opaque freeRoot : Nat → NodeIdx

/-- Free: `NLEAVES` in phase `FAULT` (R254). -/
opaque freeNleaves : Nat → BitVec 9

/-- Free: `NORM_CNT` in phase `FAULT` (R254). -/
opaque freeNormCnt : Nat → BitVec 2

/-- Free: the word a read of `TBL_DATA` returns in phase `FAULT` (R35, R254). -/
opaque freeTableWord : Nat → Word

end Config

end Sys2Proof
end

