-- ==== Sys2Proof/Syntax.lean ====
section
/-! DEFINITION. The nine commands (30_encoding.md R91), and the moves of the host that the block's step reads: the two
register transactions (R226, R227) and the accesses to the two buffers (R60, R103). -/

namespace Sys2Proof

/-- The commands of R91, one per row of the opcode table. No command carries an operand (R93). -/
inductive Instr where
  | clr
  | cnt
  | norm
  | build
  | derive
  | pack
  | wrhdr
  | parse
  | unpack
  deriving DecidableEq, Repr

/-- The ten register names of R37. -/
inductive Reg where
  | cmd
  | status
  | srcLen
  | dstCap
  | dstLen
  | vbits
  | tree
  | tblAddr
  | tblData
  | errInfo
  deriving DecidableEq, Repr

/-- A byte offset inside the block's 4 KiB register window (R38). -/
abbrev Offset := BitVec 12

/-- One move of the host (R7, R60, R103). -/
inductive HostOp where
  /-- `WR`: a 64-bit write of `value` at a register offset (R226). -/
  | write (offset : Offset) (value : Word)
  /-- `RD`: a 64-bit read at a register offset (R227). -/
  | read (offset : Offset)
  /-- `.src`, from any index: the host places bytes in `SRC` (R60, R103). -/
  | fillSrc (index : Nat) (bytes : List Byte)
  /-- The host looks at one byte of `DST` (R60). -/
  | readDst (index : Nat)
  deriving DecidableEq, Repr

end Sys2Proof
end

