-- ==== Sys2Proof/WellFormed.lean ====
section
/-! DEFINITION. Which terms of the syntax the hardware offers: every command (R93: none has an operand), the aligned
register transactions (R66), and buffer accesses whose indices fit `AW = 64` bits (R60). -/

namespace Sys2Proof

/-- A command has no operand, so every term is well formed (R93). -/
def Instr.wf : Instr → Bool
  | .clr | .cnt | .norm | .build | .derive | .pack | .wrhdr | .parse | .unpack => true

/-- A register transaction is at an offset that is a multiple of 8 (R66). -/
def Offset.aligned (o : Offset) : Bool := o.toNat % 8 == 0

/-- A host move is well formed when its offset is aligned (R66) or its indices are below `2^64` (R60, `AW = 64`). -/
def HostOp.wf : HostOp → Bool
  | .write o _ => Offset.aligned o
  | .read o => Offset.aligned o
  | .fillSrc i bytes => decide (i + bytes.length ≤ 2 ^ 64)
  | .readDst i => decide (i < 2 ^ 64)

end Sys2Proof
end

