-- ==== Sys2Proof/Decode.lean ====
section
/-! DEFINITION. The command word (30_encoding.md R90 to R92): decoder, encoder, and the register offsets of R37. -/

namespace Sys2Proof

/-- Why a word is no command (R92). -/
inductive IllegalWord where
  /-- The field `ZERO`, bits 63:8, is not 0. -/
  | zeroFieldSet
  /-- `ZERO` is 0 and `OPC` is none of the nine opcodes. -/
  | unassignedOpcode
  deriving DecidableEq, Repr

/-- One row of the opcode table: a word is this command when its masked bits equal the pattern. -/
structure OpRow where
  instr : Instr
  mask : Word
  pattern : Word
  deriving DecidableEq, Repr

/-- The opcode map of R91; the match is on all 64 bits. -/
def opcodeTable : List OpRow :=
  [ { instr := .clr,    mask := 0xFFFFFFFFFFFFFFFF, pattern := 0x0000000000000001 },
    { instr := .cnt,    mask := 0xFFFFFFFFFFFFFFFF, pattern := 0x0000000000000010 },
    { instr := .norm,   mask := 0xFFFFFFFFFFFFFFFF, pattern := 0x0000000000000011 },
    { instr := .build,  mask := 0xFFFFFFFFFFFFFFFF, pattern := 0x0000000000000012 },
    { instr := .derive, mask := 0xFFFFFFFFFFFFFFFF, pattern := 0x0000000000000013 },
    { instr := .pack,   mask := 0xFFFFFFFFFFFFFFFF, pattern := 0x0000000000000014 },
    { instr := .wrhdr,  mask := 0xFFFFFFFFFFFFFFFF, pattern := 0x0000000000000015 },
    { instr := .parse,  mask := 0xFFFFFFFFFFFFFFFF, pattern := 0x0000000000000020 },
    { instr := .unpack, mask := 0xFFFFFFFFFFFFFFFF, pattern := 0x0000000000000021 } ]

/-- Which kind of illegal word `w` is, for a word in no row of the table (R92). -/
def illegalKind (w : Word) : IllegalWord :=
  if w >>> 8 = 0 then .unassignedOpcode else .zeroFieldSet

/-- The command a word selects, or the reason it selects none (R91, R92). -/
def decode (w : Word) : Except IllegalWord Instr :=
  match opcodeTable.find? (fun r => w &&& r.mask == r.pattern) with
  | some r => .ok r.instr
  | none => .error (illegalKind w)

/-- `OPC` of each command (R91). -/
def opcode : Instr → BitVec 8
  | .clr => 0x01
  | .cnt => 0x10
  | .norm => 0x11
  | .build => 0x12
  | .derive => 0x13
  | .pack => 0x14
  | .wrhdr => 0x15
  | .parse => 0x20
  | .unpack => 0x21

/-- The command word: `ZERO` in bits 63:8, `OPC` in bits 7:0 (R90). -/
def encode (i : Instr) : Word := 0#56 ++ opcode i

/-- The decoder on a word numbered as the opcode table numbers it. A row has 64 bits and a command word is moved as
one 64-bit value with no byte order (R65), so the number is the word. -/
def decodeTableWord (nbits w : Nat) : Option Instr :=
  if nbits ≤ 64 ∧ w < 2 ^ 64 then
    match decode (BitVec.ofNat 64 w) with
    | .ok i => some i
    | .error _ => none
  else none

/-- The register offsets of R37. -/
def Reg.offset : Reg → Offset
  | .cmd => 0x00
  | .status => 0x08
  | .srcLen => 0x10
  | .dstCap => 0x18
  | .dstLen => 0x20
  | .vbits => 0x28
  | .tree => 0x30
  | .tblAddr => 0x38
  | .tblData => 0x40
  | .errInfo => 0x48

/-- The register at an offset; every other offset of the window is undefined (R38). -/
def regAt (o : Offset) : Option Reg :=
  [Reg.cmd, .status, .srcLen, .dstCap, .dstLen, .vbits, .tree, .tblAddr, .tblData, .errInfo].find?
    (fun r => r.offset == o)

end Sys2Proof
end

