-- ==== Sys2Proof/Machine/State.lean ====
section
/-! DEFINITION. The state of the block (10_state.md R20), the two buffers, the host's pending moves, and the reasons a
step can stop. -/

namespace Sys2Proof.Machine

/-- `STATUS.PHASE` (R25). The numbers are given by `Phase.code`. -/
inductive Phase where
  | idle
  | counted
  | normed
  | builtE
  | coded
  | packed
  | doneE
  | parsed
  | builtD
  | doneD
  | fault
  deriving DecidableEq, Repr

/-- The nine fault kinds of R245. The numbers are given by `FaultKind.code`. -/
inductive FaultKind where
  | truncatedInput
  | lookup
  | malformedStream
  | degenerateHistogram
  | countRange
  | bitCountRange
  | sequence
  | illegalCommand
  | dstOverflow
  deriving DecidableEq, Repr

/-- A buffer: (index, byte) pairs with strictly rising indices. An index that is not listed holds no known byte. -/
abbrev Memory := List Host.Cell

/-- The canonical form of a buffer. An unlisted index has no value, so a listed byte never equals it. -/
abbrev Memory.wf (m : Memory) : Prop := List.Pairwise (fun c d => c.1 < d.1) m

/-- A range of `DST` indices, `lo` to `hi - 1`. -/
structure Extent where
  lo : Nat
  hi : Nat
  deriving DecidableEq, Repr

/-- A range of `DST` indices whose bytes a fault made unspecified (R254), with the draw made at that fault. -/
structure Lost where
  range : Extent
  draw : Nat
  deriving DecidableEq, Repr

/-- The stored bits of `TBL_ADDR` (R33); the other bits of the register have no storage. -/
structure TblAddr where
  sel : BitVec 2
  idx : BitVec 9
  word : BitVec 3
  deriving DecidableEq, Repr

/-- The machine. `hist` to `errInfo` are the block's state, R20; `NNODES` is the number of existing entries of `NODE`
(R29) and is held as the length of `nodes`. `src` and `dst` are the buffers (R60). The last four fields are the model's:
the ranges of `DST` that faults made unspecified, the last fault first, the host's moves still to come, the data of the
last bus read, and the counter of draws. -/
structure State where
  hist : Hist
  nodes : List Node
  code : CodeTable
  phase : Phase
  err : Option FaultKind
  normCnt : BitVec 2
  vbits : BitVec 32
  root : NodeIdx
  nleaves : BitVec 9
  srcLen : Word
  dstCap : Word
  dstLen : Word
  tblAddr : TblAddr
  errInfo : Word
  src : Memory
  dst : Memory
  dstLost : List Lost
  pending : List HostOp
  busData : Word
  draws : Nat
  deriving DecidableEq, Repr

/-- Why a step stops with a fault of the MODEL. The block's own faults (R245) are no stops: they are next states. -/
inductive Fault where
  /-- Raised by `DERIVE` alone, on a tree that is not well formed: the walk meets an entry of `NODE` that does not exist
  or has not ended after 256 nodes. R160 gives the command a meaning for a well-formed tree only, and `BUILD` makes no
  other. Safe: the model stops where the spec says nothing. -/
  | malformedTree
  deriving DecidableEq, Repr

/-- Why a step is refused. -/
inductive Refusal where
  /-- An instruction that has no meaning yet, by its mnemonic. No arm of `exec` uses it. Safe. -/
  | notModelled (mnemonic : String)
  /-- A register transaction at an offset that is no multiple of 8, which a model does not offer (R66, U8). Raised by
  the host's moves `write` and `read`. Safe. -/
  | unalignedRegisterAccess
  /-- A host access to a buffer index that does not fit `AW = 64` bits, so does not exist (R60). Raised by the host's
  moves `fillSrc` and `readDst`. Safe. -/
  | noSuchBufferIndex
  /-- A host look at `DST` in a phase other than `DONE_E` and `DONE_D`. R74 makes it the host's duty not to read there
  and says that a model gives the host no such move (log entry 9). Raised by the host's move `readDst`. Safe. -/
  | dstNotReadable
  deriving DecidableEq, Repr

/-- `HIST` with every count 0 (R41). -/
def emptyHist : Hist := Vector.replicate 256 0

/-- `CODE` with every entry absent (R41). -/
def emptyCode : CodeTable := Vector.replicate 256 []

/-- The state after reset: R41 and R275 for the block. The buffers hold nothing the model knows, no fault has touched
`DST`, no host move is pending, the bus has returned nothing and nothing has been drawn (log entries 1, 2, 3, 4). -/
def State.reset : State where
  hist := emptyHist
  nodes := []
  code := emptyCode
  phase := .idle
  err := none
  normCnt := 0
  vbits := 0
  root := 0
  nleaves := 0
  srcLen := 0
  dstCap := 0xFFFFFFFFFFFFFFFF
  dstLen := 0
  tblAddr := { sel := 0, idx := 0, word := 0 }
  errInfo := 0
  src := []
  dst := []
  dstLost := []
  pending := []
  busData := 0
  draws := 0

end Sys2Proof.Machine
end

