-- ==== Sys2Proof/Machine/Operands.lean ====
section
/-! DEFINITION. The values assembled from smaller pieces: big-endian fields (30_encoding.md R95), payload bits (R96) and
the words of the table window (R98 to R100). -/

namespace Sys2Proof.Machine

/-- `ceil8(n)` of R9: how many bytes hold `n` bits. -/
def ceil8 (n : Nat) : Nat := (n + 7) / 8

/-- `BE32` of R95: four bytes in ascending index order, the first the most significant. -/
def be32 (b0 b1 b2 b3 : Byte) : BitVec 32 := b0 ++ b1 ++ b2 ++ b3

/-- The four bytes of `PutBE32`, in the order of their indices (R95). -/
def be32Bytes (v : BitVec 32) : List Byte :=
  [v.extractLsb' 24 8, v.extractLsb' 16 8, v.extractLsb' 8 8, v.extractLsb' 0 8]

/-- The consecutive big-endian fields of a run of bytes; a rest shorter than four bytes is no field. -/
def be32Fields : List Byte → List (BitVec 32)
  | b0 :: b1 :: b2 :: b3 :: rest => be32 b0 b1 b2 b3 :: be32Fields rest
  | _ => []

/-- The bits of a payload byte in stream order, bit 7 first (R64, R96, R191). -/
def byteBits (b : Byte) : BitString :=
  [b.getLsbD 7, b.getLsbD 6, b.getLsbD 5, b.getLsbD 4, b.getLsbD 3, b.getLsbD 2, b.getLsbD 1, b.getLsbD 0]

/-- The payload bits of a run of bytes, in stream order (R96). -/
def payloadBits (bytes : List Byte) : BitString := bytes.flatMap byteBits

/-- Appending one bit to the packer's accumulator: `((ACC << 1) | bit)[7:0]` (R175). -/
def accPush (acc : Byte) (bit : Bool) : Byte := (acc <<< 1) ||| (if bit then 1 else 0)

/-- The number whose binary digits are the symbols of a bit-string, the first symbol the most significant. -/
def natOfBits (bits : BitString) : Nat := bits.foldl (fun n b => 2 * n + b.toNat) 0

/-- The 256-bit field `F` of R99: `F[255 - k] = bits[k]`, every other bit 0. -/
def codeField (bits : BitString) : BitVec 256 :=
  BitVec.ofNat 256 (natOfBits ((bits ++ List.replicate 256 false).take 256))

/-- One word of a `CODE` entry (R99): word 0 is `len`, words 1 to 4 are `F` from its top. -/
def codeWord (bits : BitString) (word : BitVec 3) : Word :=
  match word.toNat with
  | 0 => (BitVec.ofNat 8 bits.length).setWidth 64
  | 1 => (codeField bits).extractLsb' 192 64
  | 2 => (codeField bits).extractLsb' 128 64
  | 3 => (codeField bits).extractLsb' 64 64
  | 4 => (codeField bits).extractLsb' 0 64
  | _ => 0

/-- The frequency of a node, which both kinds have (R22). -/
def Node.freq : Node → Freq
  | .leaf _ f => f
  | .internal f _ _ => f

/-- Bits 35:8 of word 1 of a `NODE` entry: existence, kind, `right`, `left`, `value` (R98). -/
def Node.tag : Node → BitVec 28
  | .leaf v _ => 1#1 ++ 0#1 ++ 0#9 ++ 0#9 ++ v
  | .internal _ l r => 1#1 ++ 1#1 ++ r ++ l ++ 0#8

/-- One word of a `NODE` entry (R98). -/
def nodeWord (n : Node) (word : BitVec 3) : Word :=
  match word.toNat with
  | 0 => (Node.freq n).extractLsb' 0 64
  | 1 => 0#28 ++ Node.tag n ++ (Node.freq n).extractLsb' 64 8
  | _ => 0

end Sys2Proof.Machine
end

