-- ==== Sys2Proof/Machine/Flags.lean ====
section
/-! DEFINITION. The numbers of phases and fault kinds, the phase table, and the registers that pack several fields
(10_state.md R25 to R29, R33; 46_control.md R229; 60_exceptions.md R245, R246). -/

namespace Sys2Proof.Machine

/-- The value of `STATUS.PHASE` (R25). -/
def Phase.code : Phase → BitVec 4
  | .idle => 0
  | .counted => 1
  | .normed => 2
  | .builtE => 3
  | .coded => 4
  | .packed => 5
  | .doneE => 6
  | .parsed => 8
  | .builtD => 9
  | .doneD => 10
  | .fault => 15

/-- The code of a fault kind (R245). -/
def FaultKind.code : FaultKind → BitVec 4
  | .truncatedInput => 1
  | .lookup => 2
  | .malformedStream => 3
  | .degenerateHistogram => 4
  | .countRange => 5
  | .bitCountRange => 6
  | .sequence => 8
  | .illegalCommand => 9
  | .dstOverflow => 10

/-- The value of `STATUS.ERR` (R26): 0 for no fault. -/
def errCode : Option FaultKind → BitVec 4
  | none => 0
  | some k => FaultKind.code k

/-- The phases in which a command is legal (R229). In `FAULT` the dispatcher ignores every command but `CLR` before
it looks at this table (R228 step 1). -/
def legalIn : Instr → Phase → Bool
  | .clr, _ => true
  | .cnt, p => p == .idle
  | .norm, p => p == .counted
  | .build, p => p == .normed || p == .parsed
  | .derive, p => p == .builtE
  | .pack, p => p == .coded
  | .wrhdr, p => p == .packed
  | .parse, p => p == .idle
  | .unpack, p => p == .builtD

/-- `NNODES` (R29): the number of existing entries of `NODE`. -/
def nnodes (s : State) : BitVec 10 := BitVec.ofNat 10 s.nodes.length

/-- `STATUS` (R37): `NORM_CNT` in bits 9:8, `ERR` in 7:4, `PHASE` in 3:0. -/
def statusWord (s : State) : Word := 0#54 ++ s.normCnt ++ errCode s.err ++ Phase.code s.phase

/-- `TREE` (R29, R37): `NLEAVES` in bits 40:32, `NNODES` in 25:16, `ROOT` in 8:0. -/
def treeWord (s : State) : Word := 0#23 ++ s.nleaves ++ 0#6 ++ nnodes s ++ 0#7 ++ s.root

/-- `TBL_ADDR` as it reads (R33, R37): `SEL` in bits 25:24, `IDX` in 16:8, `WORD` in 2:0. -/
def tblAddrWord (a : TblAddr) : Word := 0#38 ++ a.sel ++ 0#7 ++ a.idx ++ 0#5 ++ a.word

/-- The bits of a written value that `TBL_ADDR` stores (R33, R226). -/
def tblAddrOf (v : Word) : TblAddr where
  sel := v.extractLsb' 24 2
  idx := v.extractLsb' 8 9
  word := v.extractLsb' 0 3

/-- `ERR_INFO` of a `Sequence` fault: `OPC + PHASE·2^8` (R246). -/
def sequenceInfo (i : Instr) (p : Phase) : Word := 0#52 ++ Phase.code p ++ opcode i

end Sys2Proof.Machine
end

