-- ==== Sys2Proof/Machine/Ops.lean ====
section
/-! DEFINITION. The operations the commands share: the two buffers (20_memory.md R61, R62), the tables, entering a
fault and the return from one (60_exceptions.md R247, R250, R254), and the phase check (46_control.md R228, R229). -/

namespace Sys2Proof.Machine

/-! Buffers. -/

/-- The byte listed at an index, if one is. -/
def Memory.read? (m : Memory) (a : Nat) : Option Byte :=
  match m with
  | [] => none
  | c :: rest => if c.1 = a then some c.2 else Memory.read? rest a

/-- The cells of a run of bytes stored from index `a` upward. -/
def cellsFrom (a : Nat) : List Byte → Memory
  | [] => []
  | b :: rest => (a, b) :: cellsFrom (a + 1) rest

/-- Stores a run of bytes at ascending indices from `a`, one byte at each (R62, R67). -/
def Memory.writeRun (m : Memory) (a : Nat) (bytes : List Byte) : Memory :=
  m.filter (fun c => decide (c.1 < a)) ++ cellsFrom a bytes ++ m.filter (fun c => decide (a + bytes.length ≤ c.1))

/-- The `n` bytes from index `a` upward, in one pass over the cells. An index that is not listed reads as
`unlisted` says. -/
def Memory.readRun (unlisted : Nat → Byte) (a : Nat) : Nat → Memory → List Byte
  | 0, _ => []
  | n + 1, m =>
    match m.dropWhile (fun c => decide (c.1 < a)) with
    | [] => unlisted a :: Memory.readRun unlisted (a + 1) n []
    | c :: rest =>
      if c.1 = a then c.2 :: Memory.readRun unlisted (a + 1) n rest
      else unlisted a :: Memory.readRun unlisted (a + 1) n (c :: rest)

/-- The empty range. -/
def Extent.none : Extent := { lo := 0, hi := 0 }

/-- The cells of a range are taken off the list: their bytes are unspecified from now on (R254). -/
def Memory.forget (m : Memory) (e : Extent) : Memory :=
  m.filter (fun c => decide (c.1 < e.lo) || decide (e.hi ≤ c.1))

/-- `MemRead(SRC, a, 1)` (R61). An index where no byte was placed reads as a free value (log entry 1). -/
def srcByte (s : State) (a : Nat) : Byte := (Memory.read? s.src a).getD (Config.unplacedSrcByte a)

/-- The `n` bytes of `SRC` from index `a` upward (R61, R67). -/
def srcRun (s : State) (a n : Nat) : List Byte := Memory.readRun Config.unplacedSrcByte a n s.src

/-- The whole source buffer, indices 0 to `SRC_LEN - 1` (R60). -/
def srcBytes (s : State) : List Byte := srcRun s 0 s.srcLen.toNat

/-- What `DST` holds at an index that is not listed: the byte drawn at the last fault that made it unspecified, else the
byte that was there when the block was reset. Both are free values (log entry 2), and neither changes until a store. -/
def unlistedDstByte : List Lost → Nat → Byte
  | [], a => Config.initialDstByte a
  | l :: rest, a =>
    if l.range.lo ≤ a ∧ a < l.range.hi then Config.unspecifiedDstByte l.draw a else unlistedDstByte rest a

/-- The bytes of a range become the values of a draw (R68, R254). An empty range changes nothing. -/
def loseRange (e : Extent) (draw : Nat) (lost : List Lost) : List Lost :=
  if e.lo < e.hi then { range := e, draw := draw } :: lost else lost

/-- The byte that `DST` holds at an index: it stays what it is until a command stores there or a fault makes it
unspecified (R62, R68). -/
def dstByte (s : State) (a : Nat) : Byte := (Memory.read? s.dst a).getD (unlistedDstByte s.dstLost a)

/-! Raising a fault. -/

/-- A `raise F(info)` inside a command (R10). -/
structure Raised where
  kind : FaultKind
  info : Word
  deriving DecidableEq, Repr

/-- The bounds check of `MemWrite(DST, a, 1, v)`: an index at or above `DST_CAP` raises `DstOverflow(a)` (R62). -/
def checkStore (cap a : Nat) : Except Raised Unit :=
  if a < cap then .ok () else .error { kind := .dstOverflow, info := BitVec.ofNat 64 a }

/-- The `DST` indices that the commands already ended in this operation have written (R69): the payload after `PACK`,
the whole result after `WRHDR` and `UNPACK`. -/
def storedExtent (s : State) : Extent :=
  match s.phase with
  | .packed => { lo := Config.payloadOff, hi := Config.payloadOff + ceil8 s.vbits.toNat }
  | .doneE | .doneD => { lo := 0, hi := s.dstLen.toNat }
  | .idle | .counted | .normed | .builtE | .coded | .parsed | .builtD | .fault => Extent.none

/-- Fault entry (R247), with the state R254 leaves: `PHASE`, `ERR`, `ERR_INFO` and `DST_LEN` are defined, `SRC_LEN`,
`DST_CAP` and `TBL_ADDR` unchanged, the tables, `VBITS`, `ROOT`, `NNODES`, `NLEAVES` and `NORM_CNT` drawn, and the `DST`
bytes of the operation drawn. `own` is the part of `DST` that the faulting command itself may have written. -/
def enterFault (r : Raised) (own : Extent) (s : State) : State :=
  { s with
    err := some r.kind
    errInfo := r.info
    dstLen := 0
    phase := .fault
    hist := Config.freeHist s.draws
    nodes := Config.freeNodes s.draws
    code := Config.freeCode s.draws
    vbits := Config.freeVbits s.draws
    root := Config.freeRoot s.draws
    nleaves := Config.freeNleaves s.draws
    normCnt := Config.freeNormCnt s.draws
    dst := Memory.forget (Memory.forget s.dst (storedExtent s)) own
    dstLost := loseRange own s.draws (loseRange (storedExtent s) s.draws s.dstLost)
    draws := s.draws + 1 }

/-- A fault of the block is a next state: the `CMD` write is acknowledged as usual (R247). -/
def raise (r : Raised) (own : Extent) (s : State) : Host.Outcome State Fault Refusal := .next (enterFault r own s)

/-- The return from a fault, and the end of any operation (R225, R250): every table empty, every register of the
operation 0, `SRC_LEN`, `DST_CAP` and `TBL_ADDR` kept. -/
def clear (s : State) : State :=
  { s with
    hist := emptyHist
    code := emptyCode
    nodes := []
    nleaves := 0
    root := 0
    vbits := 0
    dstLen := 0
    normCnt := 0
    err := none
    errInfo := 0
    phase := .idle }

/-! Dispatch. -/

/-- Steps 1, 4 and 5 of R228 for the command `i`: ignored in phase `FAULT`, `Sequence` in any other phase that is not
legal, else the command's own rule. `CLR` does not pass here. -/
def inPhase (i : Instr) (s : State) (body : Host.Outcome State Fault Refusal) : Host.Outcome State Fault Refusal :=
  if s.phase = .fault then .next s
  else if legalIn i s.phase then body
  else raise { kind := .sequence, info := sequenceInfo i s.phase } Extent.none s

/-! Tables. -/

/-- The 256 byte values in ascending order. -/
def allBytes : List Byte := (List.range 256).map (BitVec.ofNat 8)

/-- The entries of `HIST` in ascending order of byte value, each with its byte value. -/
def entries (h : Hist) : List (Byte × Word) := allBytes.zip h.toList

/-- The entries with a nonzero count, ascending. -/
def nonzeroEntries (h : Hist) : List (Byte × Word) := (entries h).filter (fun e => e.2 != 0)

/-- The byte values with a nonzero count, ascending. -/
def nonzeroBytes (h : Hist) : List Byte := (nonzeroEntries h).map Prod.fst

/-- `count_nonzero(HIST)` (R10). -/
def countNonzero (h : Hist) : Nat := (nonzeroBytes h).length

/-- `HIST[v] <- HIST[v] + 1` (R120, R123). -/
def bump (h : Hist) (v : Byte) : Hist := h.set v.toNat (h[v.toNat] + 1)

end Sys2Proof.Machine
end

