-- ==== Sys2Proof/Machine/BitPacker.lean ====
section
/-! DEFINITION. The bit-packer: `PACK` (43_bit_packer.md R175 to R181). -/

namespace Sys2Proof.Machine

/-- The transient state of `PACK` (10_state.md R39): `ACC`, `ACCN`, `POUT` and `NB`. -/
structure Packer where
  acc : Byte
  accn : Nat
  pout : Nat
  nb : Nat
  deriving DecidableEq, Repr

/-- The transient state when the command starts (R175). -/
def Packer.start : Packer := { acc := 0, accn := 0, pout := 0, nb := 0 }

/-- The inner loop of R175: appends the bits of one code, first bit first. Answers the payload bytes completed, in order,
and the transient state after. -/
def packBits (cap : Nat) : BitString → Packer → Except Raised (List Byte × Packer)
  | [], p => .ok ([], p)
  | b :: bits, p =>
    if p.accn + 1 = 8 then
      match checkStore cap (Config.payloadOff + p.pout) with
      | .error r => .error r
      | .ok () =>
        match packBits cap bits { p with acc := 0, accn := 0, pout := p.pout + 1 } with
        | .error r => .error r
        | .ok (out, q) => .ok (accPush p.acc b :: out, q)
    else packBits cap bits { p with acc := accPush p.acc b, accn := p.accn + 1 }

/-- The outer loop of R175 from source index `i` on: `Lookup` for a byte without a code (R179), `BitCountRange` for a
code that would take the total above `2^32 - 1` (R180). -/
def packBytes (code : CodeTable) (cap : Nat) : List Byte → Nat → Packer → Except Raised (List Byte × Packer)
  | [], _, p => .ok ([], p)
  | v :: rest, i, p =>
    if code[v.toNat].length = 0 then .error { kind := .lookup, info := BitVec.ofNat 64 i }
    else if p.nb + code[v.toNat].length > Config.fieldMax then
      .error { kind := .bitCountRange, info := BitVec.ofNat 64 i }
    else
      match packBits cap code[v.toNat] p with
      | .error r => .error r
      | .ok (out, q) =>
        match packBytes code cap rest (i + 1) { q with nb := p.nb + code[v.toNat].length } with
        | .error r => .error r
        | .ok (out', q') => .ok (out ++ out', q')

/-- The final partial group (R175, R177): the last `ACCN` bits, left-shifted and zero-padded. -/
def packFlush (cap : Nat) (p : Packer) : Except Raised (List Byte) :=
  if p.accn = 0 then .ok []
  else
    match checkStore cap (Config.payloadOff + p.pout) with
    | .error r => .error r
    | .ok () => .ok [p.acc <<< (8 - p.accn)]

/-- The whole payload and the bit total `NB`, or the first fault (R175, R251). -/
def packAll (code : CodeTable) (cap : Nat) (bytes : List Byte) : Except Raised (List Byte × Nat) :=
  match packBytes code cap bytes 0 Packer.start with
  | .error r => .error r
  | .ok (out, p) =>
    match packFlush cap p with
    | .error r => .error r
    | .ok tail => .ok (out ++ tail, p.nb)

/-- The `DST` indices a `PACK` that faults may have written (R68, R69): from 1028 on, below `DST_CAP`, at most `2^29`
bytes (R181). -/
def packExtent (s : State) : Extent :=
  { lo := Config.payloadOff, hi := min s.dstCap.toNat (Config.payloadOff + 2 ^ 29) }

/-- The state after `PACK` (R175): the payload stored from index 1028, the bit total in `VBITS`. -/
def withPayload (payload : List Byte) (nb : Nat) (s : State) : State :=
  { s with
    dst := Memory.writeRun s.dst Config.payloadOff payload
    vbits := BitVec.ofNat 32 nb
    phase := .packed }

/-- `PACK` (R175). -/
def execPack (s : State) : Host.Outcome State Fault Refusal :=
  inPhase .pack s
    (match packAll s.code s.dstCap.toNat (srcBytes s) with
    | .error r => raise r (packExtent s) s
    | .ok (payload, nb) => .next (withPayload payload nb s))

end Sys2Proof.Machine
end

