-- ==== Sys2Proof/Machine/BitUnpacker.lean ====
section
/-! DEFINITION. The bit-unpacker: `UNPACK` (44_bit_unpacker.md R190 to R197). -/

namespace Sys2Proof.Machine

/-- `MalformedStream(i)` (R193). -/
def malformedAt (i : Nat) : Raised := { kind := .malformedStream, info := BitVec.ofNat 64 i }

/-- The loop of R190 from bit index `i` on, the walk standing on `cur` with `nout` bytes emitted. Answers the bytes
emitted, in order. A node index outside the arena is refused by the bounds check of R193 (b). -/
def walk (nodes : List Node) (root : NodeIdx) (cap : Nat) :
    BitString → Nat → NodeIdx → Nat → Except Raised (List Byte)
  | [], i, cur, _ => if cur = root then .ok [] else .error (malformedAt i)
  | bit :: bits, i, cur, nout =>
    match nodes[cur.toNat]? with
    | none => .error (malformedAt i)
    | some (.leaf _ _) => .error (malformedAt i)
    | some (.internal _ l r) =>
      match nodes[(if bit then r else l).toNat]? with
      | none => .error (malformedAt i)
      | some (.internal _ _ _) => walk nodes root cap bits (i + 1) (if bit then r else l) nout
      | some (.leaf v _) =>
        match checkStore cap nout with
        | .error e => .error e
        | .ok () =>
          match walk nodes root cap bits (i + 1) root (nout + 1) with
          | .error e => .error e
          | .ok out => .ok (v :: out)

/-- The `VBITS` valid bits of the payload in `SRC`; no padding bit and no surplus byte is read (R191, R194, R196). -/
def streamBits (s : State) : BitString :=
  (payloadBits (srcRun s Config.payloadOff (ceil8 s.vbits.toNat))).take s.vbits.toNat

/-- The bytes the payload decodes to, or the first fault (R190, R251). -/
def unpackAll (s : State) : Except Raised (List Byte) :=
  walk s.nodes s.root s.dstCap.toNat (streamBits s) 0 s.root 0

/-- The `DST` indices an `UNPACK` that faults may have written (R68, R69): below `DST_CAP`, at most one byte for each
bit (R195). -/
def unpackExtent (s : State) : Extent := { lo := 0, hi := min s.dstCap.toNat s.vbits.toNat }

/-- The state after `UNPACK` (R190): the bytes stored from index 0, their number in `DST_LEN`. -/
def withOutput (out : List Byte) (s : State) : State :=
  { s with
    dst := Memory.writeRun s.dst 0 out
    dstLen := BitVec.ofNat 64 out.length
    phase := .doneD }

/-- `UNPACK` (R190). -/
def execUnpack (s : State) : Host.Outcome State Fault Refusal :=
  inPhase .unpack s
    (match unpackAll s with
    | .error r => raise r (unpackExtent s) s
    | .ok out => .next (withOutput out s))

end Sys2Proof.Machine
end

