-- ==== Sys2Proof/Machine/CodeDeriver.lean ====
section
/-! DEFINITION. The code-table derivation engine: `DERIVE` (42_code_table.md R160). -/

namespace Sys2Proof.Machine

/-- `visit(i, path)` of R160, left before right. The fuel bounds the nodes on one path. No answer: the walk meets an
entry that does not exist or runs out of fuel, so the tree is not well formed. -/
def visit (nodes : List Node) : Nat → NodeIdx → BitString → CodeTable → Option CodeTable
  | 0, _, _, _ => none
  | fuel + 1, i, path, code =>
    match nodes[i.toNat]? with
    | none => none
    | some (.leaf v _) => some (code.set v.toNat path)
    | some (.internal _ l r) =>
      match visit nodes fuel l (path ++ [false]) code with
      | none => none
      | some code' => visit nodes fuel r (path ++ [true]) code'

/-- The code table of a tree, from an empty table. A path has at most `LMAX + 1 = 256` nodes (R160, R162). -/
def deriveTable (nodes : List Node) (root : NodeIdx) : Option CodeTable :=
  visit nodes (Config.lmax + 1) root [] emptyCode

/-- The state after `DERIVE` (R160). -/
def withCode (code : CodeTable) (s : State) : State := { s with code := code, phase := .coded }

/-- `DERIVE` (R160). -/
def execDerive (s : State) : Host.Outcome State Fault Refusal :=
  inPhase .derive s
    (match deriveTable s.nodes s.root with
    | none => .fault .malformedTree
    | some code => .next (withCode code s))

end Sys2Proof.Machine
end

