-- ==== Sys2Proof/Machine/Container.lean ====
section
/-! DEFINITION. The container header: `WRHDR` (45_container.md R205) and `PARSE` (R207). -/

namespace Sys2Proof.Machine

/-- The lowest byte value whose count does not fit the 4-byte field (R206). -/
def countTooLarge (h : Hist) : Option Byte :=
  ((entries h).find? (fun e => decide (Config.fieldMax < e.2.toNat))).map Prod.fst

/-- The 1028 header bytes (R94, R205): 256 counts in ascending byte value, then the bit count, all big-endian. -/
def headerBytes (h : Hist) (vbits : BitVec 32) : List Byte :=
  h.toList.flatMap (fun count => be32Bytes (count.setWidth 32)) ++ be32Bytes vbits

/-- The `DST` indices a `WRHDR` that faults on a store may have written (R68, R69). -/
def headerExtent (s : State) : Extent := { lo := 0, hi := min s.dstCap.toNat Config.hdrBytes }

/-- The state after `WRHDR` (R205): the header stored from index 0, `DST_LEN` the length of the container. -/
def withHeader (s : State) : State :=
  { s with
    dst := Memory.writeRun s.dst 0 (headerBytes s.hist s.vbits)
    dstLen := BitVec.ofNat 64 (Config.payloadOff + ceil8 s.vbits.toNat)
    phase := .doneE }

/-- `WRHDR` (R205). `CountRange` is raised before anything is written (R206). The stores are at 0, 1, ..., 1027, so the
first that does not fit is at index `DST_CAP`. -/
def execWrhdr (s : State) : Host.Outcome State Fault Refusal :=
  inPhase .wrhdr s
    (match countTooLarge s.hist with
    | some v => raise { kind := .countRange, info := v.setWidth 64 } Extent.none s
    | none =>
      if s.dstCap.toNat < Config.hdrBytes then
        raise { kind := .dstOverflow, info := s.dstCap } (headerExtent s) s
      else .next (withHeader s))

/-- The 257 fields of the header in `SRC`: 256 counts, then the bit count (R207). -/
def headerFields (s : State) : List (BitVec 32) := be32Fields (srcRun s 0 Config.hdrBytes)

/-- `HIST[v]` for every `v` from the header fields, zero-extended to 64 bits (R207, R209). -/
@[irreducible] def histOfFields (fields : List (BitVec 32)) : Hist :=
  Vector.ofFn (fun v : Fin 256 => (fields.getD v.val 0).setWidth 64)

/-- The stored bit count, the last field of the header (R207). -/
def vbitsOfFields (fields : List (BitVec 32)) : BitVec 32 := fields.getD 256 0

/-- `TruncatedInput(need)` (R208): `need` is the smallest `SRC_LEN` that would have passed. -/
def truncatedAt (need : Nat) : Raised := { kind := .truncatedInput, info := BitVec.ofNat 64 need }

/-- The state after `PARSE` (R207). -/
def withParsed (s : State) : State :=
  { s with
    hist := histOfFields (headerFields s)
    vbits := vbitsOfFields (headerFields s)
    phase := .parsed }

/-- `PARSE` (R207). -/
def execParse (s : State) : Host.Outcome State Fault Refusal :=
  inPhase .parse s
    (if s.srcLen.toNat < Config.hdrBytes then raise (truncatedAt Config.hdrBytes) Extent.none s
    else if s.srcLen.toNat - Config.payloadOff < ceil8 (vbitsOfFields (headerFields s)).toNat then
      raise (truncatedAt (Config.payloadOff + ceil8 (vbitsOfFields (headerFields s)).toNat)) Extent.none s
    else .next (withParsed s))

end Sys2Proof.Machine
end

