-- ==== Sys2Proof/Machine/Control.lean ====
section
/-! DEFINITION. Control: `CLR` (46_control.md R225) and a word that is no command (R228 steps 1 and 2). -/

namespace Sys2Proof.Machine

/-- `CLR` (R225): legal in every phase, `FAULT` included; it cannot fail. -/
def execClr (s : State) : Host.Outcome State Fault Refusal := .next (clear s)

/-- A word that is no command: ignored in phase `FAULT`, else `IllegalCommand(w)` (R92, R228). -/
def submitIllegal (w : Word) (s : State) : Host.Outcome State Fault Refusal :=
  if s.phase = .fault then .next s
  else raise { kind := .illegalCommand, info := w } Extent.none s

end Sys2Proof.Machine
end

