-- ==== Sys2Proof/Machine/Histogram.lean ====
section
/-! DEFINITION. The histogram accumulator and the normalizer: `CNT` (40_histogram.md R120) and `NORM` (R123). -/

namespace Sys2Proof.Machine

/-- The loop of R120 over the bytes of the source buffer, in ascending index order. -/
def countBytes (bytes : List Byte) (h : Hist) : Hist := bytes.foldl bump h

/-- The state after `CNT` (R120). -/
def withCounts (s : State) : State := { s with hist := countBytes (srcBytes s) s.hist, phase := .counted }

/-- `CNT` (R120). -/
def execCnt (s : State) : Host.Outcome State Fault Refusal := inPhase .cnt s (.next (withCounts s))

/-- The entry that one pass of R123 bumps: 0 for an empty histogram, `(d + 1) mod 256` for the sole nonzero entry
`d`, none when two entries are nonzero. -/
def phantomTarget (h : Hist) : Option Byte :=
  match nonzeroBytes h with
  | [] => some 0
  | [d] => some (d + 1)
  | _ :: _ :: _ => none

/-- The loop of R123 with at most `fuel` passes: the histogram and the number of passes made. -/
def normLoop : Nat → Hist → Hist × Nat
  | 0, h => (h, 0)
  | fuel + 1, h =>
    match phantomTarget h with
    | none => (h, 0)
    | some t => ((normLoop fuel (bump h t)).1, (normLoop fuel (bump h t)).2 + 1)

/-- The normalized histogram and the number of phantoms. Two passes always suffice (R124). -/
def normalize (h : Hist) : Hist × Nat := normLoop 2 h

/-- The state after `NORM` (R123). -/
def withNormal (s : State) : State :=
  { s with
    hist := (normalize s.hist).1
    normCnt := BitVec.ofNat 2 (normalize s.hist).2
    phase := .normed }

/-- `NORM` (R123). -/
def execNorm (s : State) : Host.Outcome State Fault Refusal := inPhase .norm s (.next (withNormal s))

end Sys2Proof.Machine
end

