-- ==== Sys2Proof/Machine/TreeBuilder.lean ====
section
/-! DEFINITION. The tree builder: `BUILD` (41_tree_builder.md R140 to R148). -/

namespace Sys2Proof.Machine

/-- An element of `ACTIVE` (R140): a node not yet merged, with its frequency at hand. -/
structure Active where
  freq : Freq
  idx : NodeIdx
  deriving DecidableEq, Repr

/-- The order `lt` of R141: the smaller frequency first, among equal frequencies the smaller index. -/
def Active.lt (a b : Active) : Bool :=
  decide (a.freq < b.freq) || (a.freq == b.freq && decide (a.idx < b.idx))

/-- The least of `a` and the elements of a list under `lt`. -/
def leastOf (a : Active) : List Active → Active
  | [] => a
  | b :: rest => if Active.lt b a then leastOf b rest else leastOf a rest

/-- Extracts the least element of `ACTIVE`. -/
def extractLeast : List Active → Option (Active × List Active)
  | [] => none
  | a :: rest => some (leastOf a rest, (a :: rest).erase (leastOf a rest))

/-- The leaves in ascending order of byte value (R140, R143). -/
def leavesOf (h : Hist) : List Node :=
  (nonzeroEntries h).map (fun e => Node.leaf e.1 (e.2.setWidth 72))

/-- `ACTIVE` for nodes numbered from `n` upward. -/
def activeFrom (n : Nat) : List Node → List Active
  | [] => []
  | x :: rest => { freq := Node.freq x, idx := BitVec.ofNat 9 n } :: activeFrom (n + 1) rest

/-- The merge loop of R140, one merge for each unit of fuel. The first extracted node becomes the right child, the second
the left child (R142); the new node takes the next index (R143). -/
def mergeLoop : Nat → List Active → List Node → List Node
  | 0, _, nodes => nodes
  | fuel + 1, active, nodes =>
    match extractLeast active with
    | none => nodes
    | some (a, rest) =>
      match extractLeast rest with
      | none => nodes
      | some (b, rest') =>
        mergeLoop fuel
          (rest' ++ [{ freq := a.freq + b.freq, idx := BitVec.ofNat 9 nodes.length }])
          (nodes ++ [Node.internal (a.freq + b.freq) b.idx a.idx])

/-- All of `NODE` for a histogram: its leaves, then `L - 1` merges (R140, R146). -/
def buildNodes (h : Hist) : List Node :=
  mergeLoop (countNonzero h - 1) (activeFrom 0 (leavesOf h)) (leavesOf h)

/-- The state after a successful `BUILD`, in the given next phase (R140). -/
def withTree (s : State) (next : Phase) : State :=
  { s with
    nodes := buildNodes s.hist
    nleaves := BitVec.ofNat 9 (countNonzero s.hist)
    root := BitVec.ofNat 9 ((buildNodes s.hist).length - 1)
    phase := next }

/-- `BUILD` (R140); fewer than two nonzero counts raise `DegenerateHistogram` before anything is written (R145). -/
def execBuild (s : State) : Host.Outcome State Fault Refusal :=
  inPhase .build s
    (if countNonzero s.hist < 2 then
      raise { kind := .degenerateHistogram, info := BitVec.ofNat 64 (countNonzero s.hist) } Extent.none s
    else .next (withTree s (if s.phase = .normed then .builtE else .builtD)))

end Sys2Proof.Machine
end

