-- ==== Sys2Proof/Machine/Dispatch.lean ====
section
/-! DEFINITION. What each command does: one arm per constructor of `Instr`. -/

namespace Sys2Proof.Machine

def exec (i : Instr) (s : State) : Host.Outcome State Fault Refusal :=
  match i with
  | .clr => Sys2Proof.Machine.execClr s
  | .cnt => Sys2Proof.Machine.execCnt s
  | .norm => Sys2Proof.Machine.execNorm s
  | .build => Sys2Proof.Machine.execBuild s
  | .derive => Sys2Proof.Machine.execDerive s
  | .pack => Sys2Proof.Machine.execPack s
  | .wrhdr => Sys2Proof.Machine.execWrhdr s
  | .parse => Sys2Proof.Machine.execParse s
  | .unpack => Sys2Proof.Machine.execUnpack s

end Sys2Proof.Machine
end

