-- ==== Sys2Proof/Machine/Registers.lean ====
section
/-! DEFINITION. The register transactions other than a write of `CMD` (46_control.md R226, R227), the table window
(10_state.md R33, R35), and the host's accesses to the buffers (20_memory.md R60). -/

namespace Sys2Proof.Machine

/-- The word of a table that `TBL_ADDR` selects (R35, R98, R99, R100), 0 where there is none. -/
def tableWord (s : State) : Word :=
  match s.tblAddr.sel.toNat with
  | 0 =>
    if h : s.tblAddr.idx.toNat < 256 then
      if s.tblAddr.word = 0 then s.hist[s.tblAddr.idx.toNat] else 0
    else 0
  | 1 =>
    match s.nodes[s.tblAddr.idx.toNat]? with
    | none => 0
    | some n => nodeWord n s.tblAddr.word
  | 2 =>
    if h : s.tblAddr.idx.toNat < 256 then codeWord s.code[s.tblAddr.idx.toNat] s.tblAddr.word
    else 0
  | _ => 0

/-- What a read of `TBL_DATA` returns (R35); in phase `FAULT` a free value (R254). -/
def tblDataWord (s : State) : Word :=
  if s.phase = .fault then Config.freeTableWord s.draws else tableWord s

/-- The value a read of a register returns (R37, R227). -/
def regValue (r : Reg) (s : State) : Word :=
  match r with
  | .cmd => 0
  | .status => statusWord s
  | .srcLen => s.srcLen
  | .dstCap => s.dstCap
  | .dstLen => s.dstLen
  | .vbits => s.vbits.setWidth 64
  | .tree => treeWord s
  | .tblAddr => tblAddrWord s.tblAddr
  | .tblData => tblDataWord s
  | .errInfo => s.errInfo

/-- The value a read at an offset returns; an undefined offset of the window reads 0 (R38). -/
def offsetValue (o : Offset) (s : State) : Word :=
  match regAt o with
  | none => 0
  | some r => regValue r s

/-- `RD` (R227): the value goes to the bus and the block's state stays. The model counts the read as a draw, so that two
reads of `TBL_DATA` in phase `FAULT` need not agree (log entry 3). -/
def busRead (o : Offset) (s : State) : State :=
  { s with busData := offsetValue o s, draws := s.draws + 1 }

/-- `WR` at any register but `CMD` (R226): `SRC_LEN` and `DST_CAP` are stored in phase `IDLE` only, `TBL_ADDR` in every
phase, everything else is ignored. -/
def regWrite (r : Reg) (v : Word) (s : State) : State :=
  match r with
  | .srcLen => if s.phase = .idle then { s with srcLen := v } else s
  | .dstCap => if s.phase = .idle then { s with dstCap := v } else s
  | .tblAddr => { s with tblAddr := tblAddrOf v }
  | .cmd | .status | .dstLen | .vbits | .tree | .tblData | .errInfo => s

/-- `WR` at an offset other than that of `CMD`; an undefined offset ignores the write (R38). -/
def busWrite (o : Offset) (v : Word) (s : State) : State :=
  match regAt o with
  | none => s
  | some r => regWrite r v s

/-- The host places bytes in `SRC` (R60, R103). -/
def hostFill (index : Nat) (bytes : List Byte) (s : State) : State :=
  { s with src := Memory.writeRun s.src index bytes }

/-- The phases in which the host may look at `DST` (R74): the operation has completed. -/
def dstReadable (p : Phase) : Bool := p == .doneE || p == .doneD

/-- The host looks at a byte of `DST` (R60): it goes where read data goes, and nothing else changes. DESIGN CHOICE (log
entry 15): R60 gives `DST` the indices below `DST_CAP` and does not say what a look at or above `DST_CAP` shows; the
model lets it show the byte of the buffer there, as at any other index above the result (R68). -/
def hostReadDst (index : Nat) (s : State) : State := { s with busData := (dstByte s index).setWidth 64 }

end Sys2Proof.Machine
end

