-- ==== Sys2Proof/Machine/Step.lean ====
section
/-! DEFINITION. One step: the next move of the host and what the block does with it (46_control.md R226 to R228, R233). -/

namespace Sys2Proof.Machine

/-- A write of `w` to `CMD` (R228): the command it selects, or the treatment of a word that is none. -/
def submit (w : Word) (s : State) : Host.Outcome State Fault Refusal :=
  match decode w with
  | .ok i => exec i s
  | .error _ => submitIllegal w s

/-- One move of the host. A move that is not well formed is refused by name (R66, R60), and so
is a look at `DST` before the operation has completed (R74). -/
def hostMove (op : HostOp) (s : State) : Host.Outcome State Fault Refusal :=
  match op with
  | .write o v =>
    if Offset.aligned o then
      if regAt o = some .cmd then submit v s else .next (busWrite o v s)
    else .refused .unalignedRegisterAccess
  | .read o => if Offset.aligned o then .next (busRead o s) else .refused .unalignedRegisterAccess
  | .fillSrc i bytes => if HostOp.wf (.fillSrc i bytes) then .next (hostFill i bytes s) else .refused .noSuchBufferIndex
  | .readDst i =>
    if HostOp.wf (.readDst i) then
      if dstReadable s.phase then .next (hostReadDst i s) else .refused .dstNotReadable
    else .refused .noSuchBufferIndex

/-- One step: the host's next pending move. With none pending the block does nothing and holds its state (R7, R263). -/
def step (s : State) : Host.Outcome State Fault Refusal :=
  match s.pending with
  | [] => .next s
  | op :: rest => hostMove op { s with pending := rest }

/-- The state in which the host's next move writes the word `w` to `CMD` (log entry 4): a command is delivered as the
data of a register write (R75). -/
def State.withFetchWord (s : State) (_nbits w : Nat) : State :=
  { s with pending := .write (Reg.offset .cmd) (BitVec.ofNat 64 w) :: s.pending }

end Sys2Proof.Machine
end

