-- ==== Sys2Proof/Machine/HostProgram.lean ====
section
/-! DEFINITION. The host's command sequences: the pseudo-commands `ENCODE`, `DECODE` and `TBLRD` (30_encoding.md R104).
The hardware knows none of them. -/

namespace Sys2Proof.Machine

/-- The commands of `ENCODE` after its `CLR` (R104). -/
def encodeStages : List Instr := [.cnt, .norm, .build, .derive, .pack, .wrhdr]

/-- The commands of `DECODE` after its `CLR` (R104). -/
def decodeStages : List Instr := [.parse, .build, .unpack]

/-- Commands executed one after another, until the first stop. -/
def execAll : List Instr → State → Host.Outcome State Fault Refusal
  | [], s => .next s
  | i :: rest, s =>
    match exec i s with
    | .next t => execAll rest t
    | .fault f => .fault f
    | .refused r => .refused r

/-- `ENCODE` (R104, R230). -/
def execEncode (s : State) : Host.Outcome State Fault Refusal := execAll (.clr :: encodeStages) s

/-- `DECODE` (R104, R231). -/
def execDecode (s : State) : Host.Outcome State Fault Refusal := execAll (.clr :: decodeStages) s

/-- The host move that submits a command (R103). -/
def submitOp (i : Instr) : HostOp := .write (Reg.offset .cmd) (encode i)

/-- `TBLRD sel, idx, word` (R101, R104): a write of `TBL_ADDR`, then a read of `TBL_DATA`. -/
def tblrdOps (sel : BitVec 2) (idx : BitVec 9) (word : BitVec 3) : List HostOp :=
  [.write (Reg.offset .tblAddr) (tblAddrWord { sel := sel, idx := idx, word := word }),
   .read (Reg.offset .tblData)]

end Sys2Proof.Machine
end

