-- ==== Sys2Proof/Safety.lean ====
section
/-! DEFINITION. The invariant of the machine (10_state.md R23, R25 to R32, R42), and the words in which statements speak
of histograms, trees and codes. -/

namespace Sys2Proof.Machine

/-- The sum of all 256 counts. -/
def histTotal (h : Hist) : Nat := (h.toList.map BitVec.toNat).sum

/-- How often a byte value occurs in a run of bytes. -/
def occurrences (v : Byte) (bytes : List Byte) : Nat := (bytes.filter (fun b => b == v)).length

/-- From the node `i` the edges `path` lead to a leaf of the byte value `v`: left is 0, right is 1 (R161). -/
inductive Reaches (nodes : List Node) : NodeIdx → BitString → Byte → Prop where
  | leaf {i : NodeIdx} {v : Byte} {f : Freq} : nodes[i.toNat]? = some (.leaf v f) → Reaches nodes i [] v
  | left {i : NodeIdx} {f : Freq} {l r : NodeIdx} {path : BitString} {v : Byte} :
      nodes[i.toNat]? = some (.internal f l r) → Reaches nodes l path v → Reaches nodes i (false :: path) v
  | right {i : NodeIdx} {f : Freq} {l r : NodeIdx} {path : BitString} {v : Byte} :
      nodes[i.toNat]? = some (.internal f l r) → Reaches nodes r path v → Reaches nodes i (true :: path) v

/-- The children named by the internal nodes of an arena, as numbers, in arena order. -/
def childIndices : List Node → List Nat
  | [] => []
  | .leaf _ _ :: rest => childIndices rest
  | .internal _ l r :: rest => l.toNat :: r.toNat :: childIndices rest

/-- `ACTIVE` at the merge that makes the entry `i`: the entries below `i` that are no child of an entry below `i`
(R140, R143). -/
def activeBefore (nodes : List Node) (i : Nat) : List Active :=
  (activeFrom 0 (nodes.take i)).filter (fun a => !(childIndices (nodes.take i)).contains a.idx.toNat)

/-- The entry `i` was made of the two least of the entries that were active before it (R140 to
R142): the least is its right child, the second least its left child, and its frequency is their sum. -/
def MergedFromLeast (nodes : List Node) (i : Nat) : Prop :=
  ∃ a b : Active, nodes[i]? = some (.internal (a.freq + b.freq) b.idx a.idx) ∧
    a ∈ activeBefore nodes i ∧ b ∈ activeBefore nodes i ∧ a ≠ b ∧
    (∀ x ∈ activeBefore nodes i, x ≠ a → Active.lt a x = true) ∧
    (∀ x ∈ activeBefore nodes i, x ≠ a → x ≠ b → Active.lt b x = true)

/-- The bits the packer appends for a run of bytes: their codes end to end (R176). -/
def codeBits (code : CodeTable) (bytes : List Byte) : BitString := bytes.flatMap (fun v => code[v.toNat])

/-- The code table that `BUILD` and `DERIVE` make of a histogram (R144, R161). -/
def codeOfHist (h : Hist) : Option CodeTable :=
  deriveTable (buildNodes h) (BitVec.ofNat 9 ((buildNodes h).length - 1))

/-- The code table an encode of `bytes` uses. -/
def codeOfInput (bytes : List Byte) : Option CodeTable := codeOfHist (normalize (countBytes bytes emptyHist)).1

/-- The phase table of R229: the phase a legal command leads to when it does not fault. -/
def phaseTable : Phase → Instr → Option Phase
  | _, .clr => some .idle
  | .idle, .cnt => some .counted
  | .idle, .parse => some .parsed
  | .counted, .norm => some .normed
  | .normed, .build => some .builtE
  | .builtE, .derive => some .coded
  | .coded, .pack => some .packed
  | .packed, .wrhdr => some .doneE
  | .parsed, .build => some .builtD
  | .builtD, .unpack => some .doneD
  | _, _ => none

/-- The DST indices a command that completes has written (R69). `s` is the state after it. -/
def rowOf (i : Instr) (s : State) : Extent :=
  match i with
  | .pack => { lo := Config.payloadOff, hi := Config.payloadOff + ceil8 s.vbits.toNat }
  | .wrhdr => { lo := 0, hi := Config.hdrBytes }
  | .unpack => { lo := 0, hi := s.dstLen.toNat }
  | .clr | .cnt | .norm | .build | .derive | .parse => Extent.none

/-- `m` holds, from index 0, the container of the histogram `h` and the payload `bits` (R94, R96, R97). -/
structure IsContainer (h : Hist) (bits : BitString) (m : Memory) : Prop where
  counts : ∀ (v : Byte) (j : Nat), j < 4 →
    Memory.read? m (4 * v.toNat + j) = some (h[v.toNat].extractLsb' (24 - 8 * j) 8)
  bitCount : ∀ j < 4, Memory.read? m (1024 + j) = some ((BitVec.ofNat 32 bits.length).extractLsb' (24 - 8 * j) 8)
  payload : ∀ k < ceil8 bits.length, ∃ b, Memory.read? m (1028 + k) = some b ∧
    ∀ j < 8, b.getLsbD (7 - j) = bits.getD (8 * k + j) false

/-- `t` is a state in which the fault `k` with the value `info` has just been recorded, from the state `s` (R247), and
what the fault leaves alone is unchanged (R254). -/
structure FaultRecorded (k : FaultKind) (info : Word) (s t : State) : Prop where
  err : t.err = some k
  errInfo : t.errInfo = info
  dstLen : t.dstLen = 0
  phase : t.phase = .fault
  srcLen : t.srcLen = s.srcLen
  dstCap : t.dstCap = s.dstCap
  tblAddr : t.tblAddr = s.tblAddr
  src : t.src = s.src
  pending : t.pending = s.pending
  busData : t.busData = s.busData

/-! The invariant. -/

/-- `NODE` has no entry, `ROOT` and `NLEAVES` are 0 (R41). -/
def State.NoTree (s : State) : Prop := s.nodes = [] ∧ s.root = 0 ∧ s.nleaves = 0

/-- The tree is the one `BUILD` makes of the histogram, which has at least two nonzero counts (R23, R144, R145). -/
def State.TreeBuilt (s : State) : Prop :=
  2 ≤ countNonzero s.hist ∧ s.nodes = buildNodes s.hist ∧
  s.root = BitVec.ofNat 9 ((buildNodes s.hist).length - 1) ∧ s.nleaves = BitVec.ofNat 9 (countNonzero s.hist)

/-- The code table is the one `DERIVE` makes of the tree (R161). -/
def State.CodeDerived (s : State) : Prop := deriveTable s.nodes s.root = some s.code

/-- In an encode the counts sum to `SRC_LEN + NORM_CNT`, and `NORM_CNT` is 0, 1, or, for the empty input, 2
(R27, R148). -/
def State.EncodeCounts (s : State) : Prop :=
  histTotal s.hist = s.srcLen.toNat + s.normCnt.toNat ∧
  (s.normCnt.toNat ≤ 1 ∨ (s.normCnt.toNat = 2 ∧ s.srcLen.toNat = 0))

/-- In a decode every count fits 32 bits, the payload is long enough for `VBITS`, and nothing was normalized
(R207, R208, R209). -/
def State.DecodeHeader (s : State) : Prop :=
  (∀ v : Byte, s.hist[v.toNat].toNat ≤ Config.fieldMax) ∧
  Config.payloadOff + ceil8 s.vbits.toNat ≤ s.srcLen.toNat ∧ s.normCnt = 0

/-- What each phase says of the tables and of `VBITS`, `NORM_CNT` and `DST_LEN`. -/
def State.StageInv (s : State) : Prop :=
  match s.phase with
  | .idle => s.hist = emptyHist ∧ s.NoTree ∧ s.code = emptyCode ∧ s.vbits = 0 ∧ s.normCnt = 0
  | .counted => s.NoTree ∧ s.code = emptyCode ∧ s.vbits = 0 ∧ s.normCnt = 0 ∧ s.EncodeCounts
  | .normed => 2 ≤ countNonzero s.hist ∧ s.NoTree ∧ s.code = emptyCode ∧ s.vbits = 0 ∧ s.EncodeCounts
  | .builtE => s.TreeBuilt ∧ s.code = emptyCode ∧ s.vbits = 0 ∧ s.EncodeCounts
  | .coded => s.TreeBuilt ∧ s.CodeDerived ∧ s.vbits = 0 ∧ s.EncodeCounts
  | .packed =>
    s.TreeBuilt ∧ s.CodeDerived ∧ s.EncodeCounts ∧
    (s.vbits = 0 ∨ Config.payloadOff + ceil8 s.vbits.toNat ≤ s.dstCap.toNat)
  | .doneE =>
    s.TreeBuilt ∧ s.CodeDerived ∧ s.EncodeCounts ∧
    s.dstLen.toNat = Config.payloadOff + ceil8 s.vbits.toNat ∧ s.dstLen.toNat ≤ s.dstCap.toNat
  | .parsed => s.DecodeHeader ∧ s.NoTree ∧ s.code = emptyCode
  | .builtD => s.DecodeHeader ∧ s.TreeBuilt ∧ s.code = emptyCode
  | .doneD =>
    s.DecodeHeader ∧ s.TreeBuilt ∧ s.code = emptyCode ∧
    s.dstLen.toNat ≤ s.vbits.toNat ∧ s.dstLen.toNat ≤ s.dstCap.toNat
  | .fault => True

/-- The invariant every step keeps. -/
structure State.Inv (s : State) : Prop where
  /-- `SRC` is in canonical form. -/
  srcWf : Memory.wf s.src
  /-- `DST` is in canonical form. -/
  dstWf : Memory.wf s.dst
  /-- `ERR != 0` exactly when `PHASE = FAULT` (R26). -/
  errIffFault : s.err ≠ none ↔ s.phase = .fault
  /-- `ERR_INFO` is 0 when `ERR = 0` (R34). -/
  errInfoZero : s.err = none → s.errInfo = 0
  /-- `DST_LEN` is 0 until an operation completes (R32). -/
  dstLenZero : s.phase ≠ .doneE → s.phase ≠ .doneD → s.dstLen = 0
  /-- The contents of the tables match the phase. -/
  stage : s.StageInv

end Sys2Proof.Machine
end

