-- ==== Sys2Proof/Certificates/Slice0/Obligations.lean ====
section
/-! DEFINITION. The statements for the provers. Each docstring names the rules of spec/ it formalises. -/

open Sys2Proof Sys2Proof.Machine

/-! Encoding and dispatch. -/

/-- Four command words, written out from R90 and R91, select their commands. -/
def Obligations.SampleWordsDecode : Prop :=
  decode 0x0000000000000001 = .ok .clr ∧ decode 0x0000000000000012 = .ok .build ∧
  decode 0x0000000000000015 = .ok .wrhdr ∧ decode 0x0000000000000021 = .ok .unpack

/-- R91: a word selects a command exactly when bits 63:8 are 0 and bits 7:0 are its opcode; and the phases in which
each command is legal. -/
def Obligations.OpcodeMapIsExact : Prop :=
  (∀ (w : Word) (i : Instr), decode w = .ok i ↔
    w.extractLsb' 8 56 = 0 ∧
    w.extractLsb' 0 8 = (match i with
      | .clr => 0x01 | .cnt => 0x10 | .norm => 0x11 | .build => 0x12 | .derive => 0x13
      | .pack => 0x14 | .wrhdr => 0x15 | .parse => 0x20 | .unpack => 0x21)) ∧
  (∀ (i : Instr) (p : Phase), (legalIn i p = true ↔
    match i with
    | .clr => True
    | .cnt => p = .idle
    | .norm => p = .counted
    | .build => p = .normed ∨ p = .parsed
    | .derive => p = .builtE
    | .pack => p = .coded
    | .wrhdr => p = .packed
    | .parse => p = .idle
    | .unpack => p = .builtD))

/-- Decoding an encoded command gives it back, and only its own word decodes to it (R90, R91). -/
def Obligations.DecodeEncodeAgree : Prop :=
  ∀ (i : Instr) (w : Word), Instr.wf i = true → (decode w = .ok i ↔ w = encode i)

/-- R92: every other word is illegal, and writing it in a phase other than `FAULT` raises `IllegalCommand(w)`. -/
def Obligations.IllegalWordsRaise : Prop :=
  ∀ (w : Word) (s : State),
    (w.extractLsb' 8 56 ≠ 0 ∨
      w.extractLsb' 0 8 ∉ ([0x01, 0x10, 0x11, 0x12, 0x13, 0x14, 0x15, 0x20, 0x21] : List (BitVec 8))) →
    s.phase ≠ .fault →
    ∃ t, submit w s = .next t ∧ FaultRecorded .illegalCommand w s t

/-- A step in which the host writes a command word runs that command, on the state with the move taken off (R228); and
with no move pending nothing happens (R263). -/
def Obligations.StepRunsTheDecodedCommand : Prop :=
  (∀ (s : State) (w : Word) (rest : List HostOp) (i : Instr),
    s.pending = .write 0x00 w :: rest → decode w = .ok i → Instr.wf i = true →
    step s = exec i { s with pending := rest }) ∧
  (∀ s : State, s.pending = [] → step s = .next s)

/-- R249: in phase `FAULT` every write of `CMD` but the exact word 1 is ignored, register reads and writes of
`TBL_ADDR` still work, and writes of `SRC_LEN` and `DST_CAP` are ignored. -/
def Obligations.FaultPhaseIgnoresCommands : Prop :=
  ∀ s : State, s.phase = .fault →
    (∀ w : Word, w ≠ 0x0000000000000001 → hostMove (.write 0x00 w) s = .next s) ∧
    (∀ v : Word, hostMove (.write 0x10 v) s = .next s ∧ hostMove (.write 0x18 v) s = .next s) ∧
    (∀ v : Word, hostMove (.write 0x38 v) s = .next { s with tblAddr := tblAddrOf v }) ∧
    (∀ o : Offset, o.toNat % 8 = 0 →
      ∃ v, hostMove (.read o) s = .next { s with busData := v, draws := s.draws + 1 } ∧ v = offsetValue o s)

/-- R229: every legal command leads to the phase of the table or to `FAULT`; every other pair raises `Sequence`, or is
ignored in `FAULT`. -/
def Obligations.PhaseTableIsTheWholeOfControl : Prop :=
  ∀ (i : Instr) (s : State),
    (∀ p t, phaseTable s.phase i = some p → exec i s = .next t → t.phase = p ∨ t.phase = .fault) ∧
    (phaseTable s.phase i = none → s.phase ≠ .fault →
      ∃ t, exec i s = .next t ∧
        FaultRecorded .sequence (BitVec.ofNat 64 ((opcode i).toNat + (Phase.code s.phase).toNat * 2 ^ 8)) s t) ∧
    (phaseTable s.phase i = none → s.phase = .fault → exec i s = .next s)

/-- The numbers of the phases (R25) and of the fault kinds (R245). -/
def Obligations.PhaseAndFaultNumbers : Prop :=
  [Phase.idle, .counted, .normed, .builtE, .coded, .packed, .doneE, .parsed, .builtD, .doneD, .fault].map
      (fun p => (Phase.code p).toNat) = [0, 1, 2, 3, 4, 5, 6, 8, 9, 10, 15] ∧
  [FaultKind.truncatedInput, .lookup, .malformedStream, .degenerateHistogram, .countRange, .bitCountRange, .sequence,
    .illegalCommand, .dstOverflow].map (fun k => (FaultKind.code k).toNat) = [1, 2, 3, 4, 5, 6, 8, 9, 10] ∧
  errCode none = 0

/-! Reset and `CLR`. -/

/-- R275: the state after reset; and nothing runs until the host moves. The initial buffers, `pending`, `busData` and
`draws` are the model's own (log entries 1 to 4) and are not stated. -/
def Obligations.ResetLeavesTheBlockFresh : Prop :=
  State.reset.hist = Vector.replicate 256 0 ∧ State.reset.nodes = [] ∧
  State.reset.code = Vector.replicate 256 [] ∧ State.reset.phase = .idle ∧ State.reset.err = none ∧
  State.reset.normCnt = 0 ∧ State.reset.vbits = 0 ∧ treeWord State.reset = 0 ∧ State.reset.srcLen = 0 ∧
  State.reset.dstCap = BitVec.ofNat 64 (2 ^ 64 - 1) ∧ State.reset.dstLen = 0 ∧ tblAddrWord State.reset.tblAddr = 0 ∧
  State.reset.errInfo = 0 ∧ step State.reset = .next State.reset

/-- R225: `CLR` is legal in every phase and cannot fail; it empties the tables and zeroes the registers of the
operation, keeps `SRC_LEN`, `DST_CAP`, `TBL_ADDR` and the buffers, in phase `IDLE` changes nothing, and is the only command
that acts in `FAULT`. -/
def Obligations.ClrMakesTheBlockFresh : Prop :=
  (∀ s : State, exec .clr s = .next { s with
    hist := Vector.replicate 256 0, code := Vector.replicate 256 [], nodes := [], nleaves := 0, root := 0,
    vbits := 0, dstLen := 0, normCnt := 0, err := none, errInfo := 0, phase := .idle }) ∧
  (∀ s : State, s.Inv → s.phase = .idle → exec .clr s = .next s) ∧
  (∀ (s : State) (i : Instr), s.phase = .fault → i ≠ .clr → exec i s = .next s)

/-- R277: the state after `CLR` is the reset state but for `SRC_LEN`, `DST_CAP` and `TBL_ADDR` (and the buffers and the
model's own fields, which are no state of the block). -/
def Obligations.ClrGivesTheResetState : Prop :=
  ∀ s : State, exec .clr s = .next { State.reset with
    srcLen := s.srcLen, dstCap := s.dstCap, tblAddr := s.tblAddr, src := s.src, dst := s.dst, dstLost := s.dstLost,
    pending := s.pending, busData := s.busData, draws := s.draws }

/-! Registers and the table window. -/

/-- R226: what a register write does at each offset. -/
def Obligations.RegisterWritesFollowTheMap : Prop :=
  ∀ (s : State) (v : Word),
    hostMove (.write 0x00 v) s = submit v s ∧
    hostMove (.write 0x10 v) s = .next (if s.phase = .idle then { s with srcLen := v } else s) ∧
    hostMove (.write 0x18 v) s = .next (if s.phase = .idle then { s with dstCap := v } else s) ∧
    hostMove (.write 0x38 v) s = .next { s with tblAddr :=
      { sel := v.extractLsb' 24 2, idx := v.extractLsb' 8 9, word := v.extractLsb' 0 3 } } ∧
    (∀ o : Offset, o.toNat % 8 = 0 → o ∉ ([0x00, 0x10, 0x18, 0x38] : List Offset) →
      hostMove (.write o v) s = .next s)

/-- R37, R38, R227: what a register read returns at each offset, and that it leaves the block alone: only the bus data
and the model's own draw counter move. -/
def Obligations.RegisterReadsShowTheMap : Prop :=
  ∀ (s : State) (o : Offset), o.toNat % 8 = 0 →
    ∃ v : Word, hostMove (.read o) s = .next { s with busData := v, draws := s.draws + 1 } ∧
      (o = 0x00 → v = 0) ∧
      (o = 0x08 → v.toNat = (Phase.code s.phase).toNat + (errCode s.err).toNat * 16 + s.normCnt.toNat * 256) ∧
      (o = 0x10 → v = s.srcLen) ∧ (o = 0x18 → v = s.dstCap) ∧ (o = 0x20 → v = s.dstLen) ∧
      (o = 0x28 → v.toNat = s.vbits.toNat) ∧
      (o = 0x30 → v.toNat = s.root.toNat + (s.nodes.length % 1024) * 2 ^ 16 + s.nleaves.toNat * 2 ^ 32) ∧
      (o = 0x38 → v.toNat = s.tblAddr.word.toNat + s.tblAddr.idx.toNat * 2 ^ 8 + s.tblAddr.sel.toNat * 2 ^ 24) ∧
      (o = 0x40 → s.phase ≠ .fault → v = tableWord s) ∧
      (o = 0x48 → v = s.errInfo) ∧
      (0x50 ≤ o.toNat → v = 0)

/-- R101: the value to write to `TBL_ADDR` for a table word; and only the listed bits are stored (R33). -/
def Obligations.TblAddrStoresItsFields : Prop :=
  (∀ (sel : BitVec 2) (idx : BitVec 9) (word : BitVec 3),
    tblAddrOf (BitVec.ofNat 64 (sel.toNat * 2 ^ 24 + idx.toNat * 2 ^ 8 + word.toNat)) =
      { sel := sel, idx := idx, word := word }) ∧
  (∀ v : Word, tblAddrWord (tblAddrOf v) = v &&& 0x000000000301FF07)

/-- R100: `HIST` through the window. -/
def Obligations.WindowShowsHist : Prop :=
  ∀ (s : State) (v : Byte), s.tblAddr.sel = 0 → s.tblAddr.idx.toNat = v.toNat → s.tblAddr.word = 0 →
    tableWord s = s.hist[v.toNat]

/-- R98: `NODE` through the window, word 0 and every bit of word 1. -/
def Obligations.WindowShowsNode : Prop :=
  ∀ (s : State) (n : Node), s.tblAddr.sel = 1 → s.nodes[s.tblAddr.idx.toNat]? = some n →
    (s.tblAddr.word = 0 → tableWord s = (Node.freq n).extractLsb' 0 64) ∧
    (s.tblAddr.word = 1 →
      (tableWord s).extractLsb' 0 8 = (Node.freq n).extractLsb' 64 8 ∧
      (tableWord s).extractLsb' 8 8 = (match n with | .leaf v _ => v | .internal _ _ _ => 0) ∧
      (tableWord s).extractLsb' 16 9 = (match n with | .leaf _ _ => 0 | .internal _ l _ => l) ∧
      (tableWord s).extractLsb' 25 9 = (match n with | .leaf _ _ => 0 | .internal _ _ r => r) ∧
      (tableWord s).getLsbD 34 = (match n with | .leaf _ _ => false | .internal _ _ _ => true) ∧
      (tableWord s).getLsbD 35 = true ∧
      (tableWord s).extractLsb' 36 28 = 0)

/-- R99: `CODE` through the window: word 0 is `len`, and bit `k` of the code, counted from its start, is bit
`63 - k mod 64` of word `1 + k div 64`; the bits after the code are 0. -/
def Obligations.WindowShowsCode : Prop :=
  ∀ (s : State) (v : Byte), s.tblAddr.sel = 2 → s.tblAddr.idx.toNat = v.toNat → s.code[v.toNat].length ≤ 255 →
    (s.tblAddr.word = 0 → (tableWord s).toNat = s.code[v.toNat].length) ∧
    (∀ k < 256, s.tblAddr.word.toNat = 1 + k / 64 →
      (tableWord s).getLsbD (63 - k % 64) = s.code[v.toNat].getD k false)

/-- R35: outside the tables the window reads 0. -/
def Obligations.WindowReadsZeroOutside : Prop :=
  ∀ s : State,
    (s.tblAddr.sel = 3 → tableWord s = 0) ∧
    (s.tblAddr.sel = 0 → 256 ≤ s.tblAddr.idx.toNat ∨ s.tblAddr.word ≠ 0 → tableWord s = 0) ∧
    (s.tblAddr.sel = 1 → s.nodes.length ≤ s.tblAddr.idx.toNat ∨ 2 ≤ s.tblAddr.word.toNat → tableWord s = 0) ∧
    (s.tblAddr.sel = 2 → 256 ≤ s.tblAddr.idx.toNat ∨ 5 ≤ s.tblAddr.word.toNat → tableWord s = 0)

/-- R66: a register access at an offset that is no multiple of 8 is refused and changes nothing. The refusal by name
is the model's form of it (log entry 7). -/
def Obligations.UnalignedAccessesAreRefused : Prop :=
  ∀ (s : State) (o : Offset) (v : Word), o.toNat % 8 ≠ 0 →
    hostMove (.write o v) s = .refused .unalignedRegisterAccess ∧
    hostMove (.read o) s = .refused .unalignedRegisterAccess

/-- R60, R61: what the host places in `SRC` is what the block reads there, and every other byte stays. -/
def Obligations.SrcHoldsWhatTheHostPlaced : Prop :=
  ∀ (s : State) (i : Nat) (bytes : List Byte), i + bytes.length ≤ 2 ^ 64 →
    ∃ t, hostMove (.fillSrc i bytes) s = .next t ∧ t = { s with src := t.src } ∧
      (∀ k (h : k < bytes.length), srcByte t (i + k) = bytes[k]) ∧
      (∀ a, a < i ∨ i + bytes.length ≤ a → srcByte t a = srcByte s a)

/-- R60, R62, R68, R74: in phase `DONE_E` or `DONE_D` a look at `DST` shows the byte that the buffer holds, a stored byte
if one is stored there, and changes nothing but the bus data. At an index at or above `DST_CAP` the spec does not say what
a look shows: that the look is offered there and shows the buffer's byte is the model's choice (log entry 15). In every
other phase, and at an index that does not fit 64 bits, a look is refused; the refusals by name are the model's form of
it (log entries 8 and 9). -/
def Obligations.DstShowsWhatWasStored : Prop :=
  ∀ (s : State) (i : Nat),
    (i < 2 ^ 64 → s.phase = .doneE ∨ s.phase = .doneD →
      hostMove (.readDst i) s = .next { s with busData := (dstByte s i).setWidth 64 }) ∧
    (∀ b, Memory.read? s.dst i = some b → dstByte s i = b) ∧
    (i < 2 ^ 64 → s.phase ≠ .doneE → s.phase ≠ .doneD → hostMove (.readDst i) s = .refused .dstNotReadable) ∧
    (∀ bytes, 2 ^ 64 < i + bytes.length → hostMove (.fillSrc i bytes) s = .refused .noSuchBufferIndex) ∧
    (2 ^ 64 ≤ i → hostMove (.readDst i) s = .refused .noSuchBufferIndex)

/-! The histogram. -/

/-- R120, R121: in phase `IDLE`, `CNT` completes; every count is the number of occurrences of its byte value in the
source buffer, the counts sum to `SRC_LEN`, and nothing but `HIST` and `PHASE` changes. -/
def Obligations.CntCountsTheSource : Prop :=
  ∀ s : State, s.Inv → s.phase = .idle →
    ∃ t, exec .cnt s = .next t ∧ t = { s with hist := t.hist, phase := .counted } ∧
      (∀ v : Byte, t.hist[v.toNat].toNat =
        ((List.range s.srcLen.toNat).filter (fun a => srcByte s a == v)).length) ∧
      histTotal t.hist = s.srcLen.toNat

/-- R124: the three outcomes of `NORM`, by the number of nonzero entries, and two nonzero entries after it; and when, after
a `CNT`, there is none or one. -/
def Obligations.NormHasThreeOutcomes : Prop :=
  (∀ s t : State, s.Inv → s.phase = .idle → exec .cnt s = .next t →
    ((∀ v : Byte, t.hist[v.toNat] = 0) ↔ s.srcLen = 0) ∧
    (∀ d : Byte, (t.hist[d.toNat] ≠ 0 ∧ ∀ v : Byte, v ≠ d → t.hist[v.toNat] = 0) ↔
      (s.srcLen ≠ 0 ∧ ∀ a < s.srcLen.toNat, srcByte s a = d))) ∧
  ∀ s : State, s.phase = .counted →
    ∃ t, exec .norm s = .next t ∧ t = { s with hist := t.hist, normCnt := t.normCnt, phase := .normed } ∧
      ((∀ v : Byte, s.hist[v.toNat] = 0) →
        t.normCnt = 2 ∧ ∀ v : Byte, t.hist[v.toNat] = if v = 0 ∨ v = 1 then 1 else 0) ∧
      (∀ d : Byte, s.hist[d.toNat] ≠ 0 → (∀ v : Byte, v ≠ d → s.hist[v.toNat] = 0) →
        t.normCnt = 1 ∧ ∀ v : Byte, t.hist[v.toNat] = if v = d + 1 then 1 else s.hist[v.toNat]) ∧
      ((∃ v w : Byte, v ≠ w ∧ s.hist[v.toNat] ≠ 0 ∧ s.hist[w.toNat] ≠ 0) → t.normCnt = 0 ∧ t.hist = s.hist) ∧
      2 ≤ countNonzero t.hist

/-! The tree. -/

/-- R23, R146: from a histogram with `L` nonzero counts, `L` at least 2, `BUILD` completes; the leaves are the nonzero
byte values in ascending order, `L - 1` internal nodes follow, children are older than parents, every entry but the
root has exactly one parent, frequencies are exact sums, every walk from the root reaches a leaf after at most `L - 1`
edges; and nothing but `NODE`, `ROOT`, `NNODES`, `NLEAVES` and `PHASE` changes. -/
def Obligations.BuildMakesAFullTree : Prop :=
  ∀ (s : State) (L : Nat), (s.phase = .normed ∨ s.phase = .parsed) → countNonzero s.hist = L → 2 ≤ L →
    ∃ t, exec .build s = .next t ∧
      t = { s with nodes := t.nodes, root := t.root, nleaves := t.nleaves,
                   phase := if s.phase = .normed then .builtE else .builtD } ∧
      t.nleaves.toNat = L ∧ t.nodes.length = 2 * L - 1 ∧ t.root.toNat = 2 * L - 2 ∧
      t.nodes.take L = (allBytes.filter (fun v => s.hist[v.toNat] != 0)).map
        (fun v => Node.leaf v (s.hist[v.toNat].setWidth 72)) ∧
      (∀ i, L ≤ i → i ≤ 2 * L - 2 → ∃ f l r nl nr, t.nodes[i]? = some (.internal f l r) ∧ l.toNat < i ∧ r.toNat < i ∧
        t.nodes[l.toNat]? = some nl ∧ t.nodes[r.toNat]? = some nr ∧
        f.toNat = (Node.freq nl).toNat + (Node.freq nr).toNat) ∧
      (childIndices t.nodes).Perm (List.range (2 * L - 2)) ∧
      (∃ f l r, t.nodes[t.root.toNat]? = some (.internal f l r) ∧ f.toNat = histTotal s.hist) ∧
      (∀ path v, Reaches t.nodes t.root path v → path.length ≤ L - 1) ∧
      (∀ bits : BitString, L - 1 ≤ bits.length → ∃ path v, path <+: bits ∧ Reaches t.nodes t.root path v) ∧
      2 * L - 1 ≤ 511

/-- R141, R142: `ACTIVE` holds the frequency and the index of each node; `lt` is a strict total order on distinct indices;
the element extracted is less than all the others; and of the two extracted nodes the first becomes the right child and
the second the left. The last clause says it of the nodes that `BUILD` leaves: each internal node was made of the two
least of the nodes that were then active. -/
def Obligations.BuildMergesTheTwoLeast : Prop :=
  (∀ (n : Nat) (nodes : List Node), (activeFrom n nodes).map Active.freq = nodes.map Node.freq ∧
    (activeFrom n nodes).map Active.idx = (List.range' n nodes.length).map (BitVec.ofNat 9)) ∧
  (∀ a b : Active, Active.lt a b = true ↔ a.freq.toNat < b.freq.toNat ∨ (a.freq = b.freq ∧ a.idx.toNat < b.idx.toNat)) ∧
  (∀ a : Active, Active.lt a a = false) ∧
  (∀ a b c : Active, Active.lt a b = true → Active.lt b c = true → Active.lt a c = true) ∧
  (∀ a b : Active, a.idx ≠ b.idx → Active.lt a b = true ∨ Active.lt b a = true) ∧
  (∀ l : List Active, l ≠ [] → (l.map Active.idx).Nodup →
    ∃ a rest, extractLeast l = some (a, rest) ∧ l.Perm (a :: rest) ∧ ∀ x ∈ rest, Active.lt a x = true) ∧
  (∀ (fuel : Nat) (active rest rest' : List Active) (nodes : List Node) (a b : Active),
    extractLeast active = some (a, rest) → extractLeast rest = some (b, rest') →
    mergeLoop (fuel + 1) active nodes =
      mergeLoop fuel (rest' ++ [{ freq := a.freq + b.freq, idx := BitVec.ofNat 9 nodes.length }])
        (nodes ++ [Node.internal (a.freq + b.freq) b.idx a.idx])) ∧
  (∀ (s t : State) (L : Nat), (s.phase = .normed ∨ s.phase = .parsed) → countNonzero s.hist = L → 2 ≤ L →
    exec .build s = .next t →
    ∀ i, L ≤ i → i ≤ 2 * L - 2 → MergedFromLeast t.nodes i)

/-- R145: fewer than two nonzero counts raise `DegenerateHistogram` with their number, before anything is written; from a
state that meets the invariant this cannot happen in an encode. -/
def Obligations.BuildRefusesDegenerateHistograms : Prop :=
  (∀ s : State, s.Inv → s.phase = .normed → 2 ≤ countNonzero s.hist) ∧
  ∀ s : State, (s.phase = .normed ∨ s.phase = .parsed) → countNonzero s.hist < 2 →
    ∃ t, exec .build s = .next t ∧
      FaultRecorded .degenerateHistogram (BitVec.ofNat 64 (countNonzero s.hist)) s t ∧ t.dst = s.dst

/-- R144: `BUILD` is a pure function of `HIST`, whatever the phase and whatever ran before. -/
def Obligations.BuildDependsOnHistAlone : Prop :=
  ∀ s s' t t' : State, s.hist = s'.hist → exec .build s = .next t → exec .build s' = .next t' →
    (t.phase = .builtE ∨ t.phase = .builtD) → (t'.phase = .builtE ∨ t'.phase = .builtD) →
    t.nodes = t'.nodes ∧ t.root = t'.root ∧ t.nleaves = t'.nleaves

/-- R148: no frequency exceeds the total of the counts; the total is `SRC_LEN + NORM_CNT` and at most `2^64` in an encode,
and below `2^40` in a decode. -/
def Obligations.FrequenciesDoNotOverflow : Prop :=
  ∀ s : State, s.Inv → s.TreeBuilt →
    (∀ n ∈ s.nodes, (Node.freq n).toNat ≤ histTotal s.hist) ∧
    (s.phase ∈ [Phase.builtE, .coded, .packed, .doneE] →
      histTotal s.hist = s.srcLen.toNat + s.normCnt.toNat ∧ histTotal s.hist ≤ 2 ^ 64 ∧
      (s.normCnt = 2 → s.srcLen = 0)) ∧
    (s.phase ∈ [Phase.builtD, .doneD] →
      (∀ v : Byte, s.hist[v.toNat].toNat < 2 ^ 32) ∧ histTotal s.hist < 2 ^ 40)

/-! The code table. -/

/-- R160, R161, R163: on the tree that `BUILD` made, `DERIVE` completes; the code of a byte value is the sequence of
edge labels from `ROOT` to its leaf, a byte value with a zero count has none, and nothing but `CODE` and `PHASE`
changes. -/
def Obligations.DeriveWritesTheEdgeLabels : Prop :=
  ∀ s : State, s.phase = .builtE → s.TreeBuilt →
    ∃ t, exec .derive s = .next t ∧ t = { s with code := t.code, phase := .coded } ∧
      (∀ path v, Reaches s.nodes s.root path v → t.code[v.toNat] = path) ∧
      (∀ v : Byte, t.code[v.toNat] ≠ [] → Reaches s.nodes s.root t.code[v.toNat] v) ∧
      (∀ v : Byte, s.hist[v.toNat] = 0 → t.code[v.toNat] = [])

/-- R162: after `DERIVE` on the tree that `BUILD` made: coverage, the length bound, prefix-freedom, completeness (the
sum of `2^(-len)` is 1, multiplied out by `2^255`), and every long enough bit sequence starts with exactly one code. -/
def Obligations.CodesAreACompletePrefixCode : Prop :=
  ∀ s t : State, s.phase = .builtE → s.TreeBuilt → exec .derive s = .next t →
    (∀ v : Byte, t.code[v.toNat].length ≠ 0 ↔ t.hist[v.toNat] ≠ 0) ∧
    (∀ v : Byte, t.code[v.toNat].length ≤ countNonzero t.hist - 1) ∧ countNonzero t.hist - 1 ≤ 255 ∧
    (∀ v w : Byte, t.code[v.toNat] ≠ [] → t.code[w.toNat] ≠ [] → t.code[v.toNat] <+: t.code[w.toNat] → v = w) ∧
    ((allBytes.filter (fun v => t.code[v.toNat] != [])).map (fun v => 2 ^ (255 - t.code[v.toNat].length))).sum = 2 ^ 255 ∧
    (∀ bits : BitString, countNonzero t.hist - 1 ≤ bits.length → ∃ v : Byte, t.code[v.toNat] ≠ [] ∧ t.code[v.toNat] <+: bits ∧
      ∀ w : Byte, t.code[w.toNat] ≠ [] → t.code[w.toNat] <+: bits → w = v)

/-! The packer. -/

/-- R176, R177, R178: when every source byte has a code, the total fits 32 bits and the payload has room, `PACK`
completes; bit `i` of the codes end to end is bit `7 - i mod 8` of the `DST` byte `1028 + i div 8`, the last byte is
padded with zeros, `VBITS` is the total, which is the sum of occurrences times length; and nothing but those bytes,
`VBITS` and `PHASE` changes. Whenever `PACK` completes, these conditions held. The source bytes are those of the indices 0 to
`SRC_LEN - 1`, in that order. -/
def Obligations.PackStoresTheCodes : Prop :=
  (∀ s : State, Memory.wf s.src → srcBytes s = (List.range s.srcLen.toNat).map (srcByte s)) ∧
  (∀ s t : State, s.phase = .coded → exec .pack s = .next t → t.phase = .packed →
    (∀ v ∈ srcBytes s, s.code[v.toNat] ≠ []) ∧ (codeBits s.code (srcBytes s)).length ≤ 2 ^ 32 - 1 ∧
    (codeBits s.code (srcBytes s) = [] ∨ 1028 + ceil8 (codeBits s.code (srcBytes s)).length ≤ s.dstCap.toNat)) ∧
  ∀ (s : State) (bits : BitString), s.phase = .coded →
    bits = (srcBytes s).flatMap (fun v => s.code[v.toNat]) →
    (∀ v ∈ srcBytes s, s.code[v.toNat] ≠ []) → bits.length ≤ 2 ^ 32 - 1 →
    (bits = [] ∨ 1028 + ceil8 bits.length ≤ s.dstCap.toNat) →
    ∃ t, exec .pack s = .next t ∧ t = { s with dst := t.dst, vbits := t.vbits, phase := .packed } ∧
      t.vbits.toNat = bits.length ∧
      bits.length = (allBytes.map (fun v => occurrences v (srcBytes s) * s.code[v.toNat].length)).sum ∧
      (∀ k < ceil8 bits.length, ∃ b, Memory.read? t.dst (1028 + k) = some b ∧
        ∀ j < 8, b.getLsbD (7 - j) = bits.getD (8 * k + j) false) ∧
      (∀ a, a < 1028 ∨ 1028 + ceil8 bits.length ≤ a → Memory.read? t.dst a = Memory.read? s.dst a)

/-- R179: a source byte without a code raises `Lookup` with its index, before anything is appended for it: the bytes
before it all have codes, their total fits and the bytes they complete have room (R251). -/
def Obligations.PackRaisesLookup : Prop :=
  ∀ (s : State) (pre post : List Byte) (v : Byte), s.phase = .coded → srcBytes s = pre ++ v :: post →
    (∀ u ∈ pre, s.code[u.toNat] ≠ []) → (codeBits s.code pre).length ≤ 2 ^ 32 - 1 →
    ((codeBits s.code pre).length < 8 ∨ 1028 + (codeBits s.code pre).length / 8 ≤ s.dstCap.toNat) →
    s.code[v.toNat] = [] →
    ∃ t, exec .pack s = .next t ∧ FaultRecorded .lookup (BitVec.ofNat 64 pre.length) s t

/-- R180: a code that would take the total above `2^32 - 1` raises `BitCountRange` with the index of its byte, before
it is appended. -/
def Obligations.PackRaisesBitCountRange : Prop :=
  ∀ (s : State) (pre post : List Byte) (v : Byte), s.phase = .coded → srcBytes s = pre ++ v :: post →
    (∀ u ∈ pre, s.code[u.toNat] ≠ []) → (codeBits s.code pre).length ≤ 2 ^ 32 - 1 →
    ((codeBits s.code pre).length < 8 ∨ 1028 + (codeBits s.code pre).length / 8 ≤ s.dstCap.toNat) →
    s.code[v.toNat] ≠ [] → 2 ^ 32 - 1 < (codeBits s.code pre).length + s.code[v.toNat].length →
    ∃ t, exec .pack s = .next t ∧ FaultRecorded .bitCountRange (BitVec.ofNat 64 pre.length) s t

/-- R62 and R251 in `PACK`: a payload byte that has no room is refused at the first index that is not below `DST_CAP`, and
the header bytes of `DST` stay. It happens as soon as the codes of a first part of the source complete such a byte, whatever
the source bytes after them are: with no code (R179) or too many bits (R180) too. And it happens when every byte has a code
and the total fits but the payload, its padded last byte included, has no room. -/
def Obligations.PackRaisesDstOverflow : Prop :=
  (∀ (s : State) (pre post : List Byte), s.phase = .coded → srcBytes s = pre ++ post →
    (∀ v ∈ pre, s.code[v.toNat] ≠ []) → (codeBits s.code pre).length ≤ 2 ^ 32 - 1 →
    8 ≤ (codeBits s.code pre).length → s.dstCap.toNat < 1028 + (codeBits s.code pre).length / 8 →
    ∃ t, exec .pack s = .next t ∧
      FaultRecorded .dstOverflow (BitVec.ofNat 64 (max s.dstCap.toNat 1028)) s t ∧
      ∀ a < 1028, Memory.read? t.dst a = Memory.read? s.dst a) ∧
  ∀ s : State, s.phase = .coded → (∀ v ∈ srcBytes s, s.code[v.toNat] ≠ []) →
    (codeBits s.code (srcBytes s)).length ≤ 2 ^ 32 - 1 → codeBits s.code (srcBytes s) ≠ [] →
    s.dstCap.toNat < 1028 + ceil8 (codeBits s.code (srcBytes s)).length →
    ∃ t, exec .pack s = .next t ∧
      FaultRecorded .dstOverflow (BitVec.ofNat 64 (max s.dstCap.toNat 1028)) s t ∧
      ∀ a < 1028, Memory.read? t.dst a = Memory.read? s.dst a

/-! The header. -/

/-- R95: the four bytes of a field, most significant first, where they are stored, and their value. -/
def Obligations.BigEndianFieldsAgree : Prop :=
  (∀ b0 b1 b2 b3 : Byte,
    (be32 b0 b1 b2 b3).toNat = b0.toNat * 2 ^ 24 + b1.toNat * 2 ^ 16 + b2.toNat * 2 ^ 8 + b3.toNat) ∧
  (∀ v : BitVec 32, be32Bytes v =
    [v.extractLsb' 24 8, v.extractLsb' 16 8, v.extractLsb' 8 8, v.extractLsb' 0 8]) ∧
  (∀ (m : Memory) (a : Nat) (v : BitVec 32) (j : Nat), j < 4 →
    Memory.read? (Memory.writeRun m a (be32Bytes v)) (a + j) = some (v.extractLsb' (24 - 8 * j) 8)) ∧
  (∀ v : BitVec 32, be32Fields (be32Bytes v) = [v]) ∧
  be32Bytes 3 = [0x00, 0x00, 0x00, 0x03] ∧ be32Bytes 0x01020304 = [0x01, 0x02, 0x03, 0x04]

/-- R205, R211: when every count fits 32 bits and the header has room, `WRHDR` completes; it stores the counts and the
bit count big-endian at their offsets and sets `DST_LEN`; nothing but the 1028 header bytes, `DST_LEN` and `PHASE`
changes. -/
def Obligations.WrhdrWritesTheHeader : Prop :=
  ∀ s : State, s.phase = .packed → (∀ v : Byte, s.hist[v.toNat].toNat ≤ 2 ^ 32 - 1) → 1028 ≤ s.dstCap.toNat →
    ∃ t, exec .wrhdr s = .next t ∧ t = { s with dst := t.dst, dstLen := t.dstLen, phase := .doneE } ∧
      t.dstLen.toNat = 1028 + ceil8 s.vbits.toNat ∧
      (∀ (v : Byte) (j : Nat), j < 4 →
        Memory.read? t.dst (4 * v.toNat + j) = some (s.hist[v.toNat].extractLsb' (24 - 8 * j) 8)) ∧
      (∀ j < 4, Memory.read? t.dst (1024 + j) = some (s.vbits.extractLsb' (24 - 8 * j) 8)) ∧
      (∀ a, 1028 ≤ a → Memory.read? t.dst a = Memory.read? s.dst a)

/-- R206: a count of `2^32` or more raises `CountRange` with the lowest such byte value, and no header byte is
written. -/
def Obligations.WrhdrRaisesCountRange : Prop :=
  ∀ (s : State) (v : Byte), s.phase = .packed → 2 ^ 32 - 1 < s.hist[v.toNat].toNat →
    (∀ w : Byte, w.toNat < v.toNat → s.hist[w.toNat].toNat ≤ 2 ^ 32 - 1) →
    ∃ t, exec .wrhdr s = .next t ∧ FaultRecorded .countRange (BitVec.ofNat 64 v.toNat) s t ∧
      ∀ a < 1028, Memory.read? t.dst a = Memory.read? s.dst a

/-- R62 in `WRHDR`: when the counts fit but the header has no room, index `DST_CAP` is refused. -/
def Obligations.WrhdrRaisesDstOverflow : Prop :=
  ∀ s : State, s.phase = .packed → (∀ v : Byte, s.hist[v.toNat].toNat ≤ 2 ^ 32 - 1) → s.dstCap.toNat < 1028 →
    ∃ t, exec .wrhdr s = .next t ∧ FaultRecorded .dstOverflow s.dstCap s t

/-- R207, R209: when the buffer holds the header and enough payload, `PARSE` completes; every count and the bit count
are the big-endian fields at their offsets, zero-extended; nothing but `HIST`, `VBITS` and `PHASE` changes. -/
def Obligations.ParseReadsTheHeader : Prop :=
  ∀ (s : State) (vb : BitVec 32), Memory.wf s.src → s.phase = .idle → 1028 ≤ s.srcLen.toNat →
    vb = be32 (srcByte s 1024) (srcByte s 1025) (srcByte s 1026) (srcByte s 1027) →
    ceil8 vb.toNat ≤ s.srcLen.toNat - 1028 →
    ∃ t, exec .parse s = .next t ∧ t = { s with hist := t.hist, vbits := vb, phase := .parsed } ∧
      ∀ v : Byte, t.hist[v.toNat].toNat =
        (srcByte s (4 * v.toNat)).toNat * 2 ^ 24 + (srcByte s (4 * v.toNat + 1)).toNat * 2 ^ 16 +
        (srcByte s (4 * v.toNat + 2)).toNat * 2 ^ 8 + (srcByte s (4 * v.toNat + 3)).toNat ∧
        t.hist[v.toNat].toNat ≤ 2 ^ 32 - 1

/-- R208: the two causes of `TruncatedInput`, and the length each one asks for. -/
def Obligations.ParseRaisesTruncatedInput : Prop :=
  ∀ s : State, s.phase = .idle →
    (s.srcLen.toNat < 1028 → ∃ t, exec .parse s = .next t ∧ FaultRecorded .truncatedInput 1028 s t) ∧
    (∀ vb : BitVec 32, Memory.wf s.src → 1028 ≤ s.srcLen.toNat →
      vb = be32 (srcByte s 1024) (srcByte s 1025) (srcByte s 1026) (srcByte s 1027) →
      s.srcLen.toNat - 1028 < ceil8 vb.toNat →
      ∃ t, exec .parse s = .next t ∧
        FaultRecorded .truncatedInput (BitVec.ofNat 64 (1028 + ceil8 vb.toNat)) s t)

/-- R212: parsing a container whose header `WRHDR` wrote gives the histogram and the bit count back. -/
def Obligations.ParsedHistogramIsTheWrittenOne : Prop :=
  ∀ s t d u : State, s.phase = .packed → exec .wrhdr s = .next t → t.phase = .doneE →
    d.phase = .idle → Memory.wf d.src → (∀ a < 1028, Memory.read? t.dst a = some (srcByte d a)) →
    exec .parse d = .next u → u.phase = .parsed →
    u.hist = s.hist ∧ u.vbits = s.vbits

/-! The unpacker. -/

/-- R190, R191, R192: on the tree that `BUILD` made, when the `VBITS` bits of the payload are the codes of some bytes
that fit in `DST`, `UNPACK` completes and writes those bytes; nothing but those bytes, `DST_LEN` and `PHASE`
changes. -/
def Obligations.UnpackInvertsTheCodes : Prop :=
  ∀ (s : State) (code : CodeTable) (bytes : List Byte), Memory.wf s.src → s.phase = .builtD → s.TreeBuilt →
    deriveTable s.nodes s.root = some code → (∀ v ∈ bytes, code[v.toNat] ≠ []) →
    bytes.length ≤ s.dstCap.toNat → (codeBits code bytes).length = s.vbits.toNat →
    (∀ i < s.vbits.toNat,
      (srcByte s (1028 + i / 8)).getLsbD (7 - i % 8) = (codeBits code bytes).getD i false) →
    ∃ t, exec .unpack s = .next t ∧ t = { s with dst := t.dst, dstLen := t.dstLen, phase := .doneD } ∧
      t.dstLen.toNat = bytes.length ∧
      (∀ k (h : k < bytes.length), Memory.read? t.dst k = some bytes[k]) ∧
      (∀ a, bytes.length ≤ a → Memory.read? t.dst a = Memory.read? s.dst a)

/-- R193: the three causes of `MalformedStream` in the walk. On the tree that `BUILD` made it always reports `VBITS`: causes
(a) and (b) cannot happen; and a stream of whole codes followed by a part of one raises it (c). -/
def Obligations.UnpackReportsACodeCutShort : Prop :=
  (∀ (nodes : List Node) (root cur : NodeIdx) (cap i nout : Nat) (bit : Bool) (bits : BitString),
    (∀ v f, nodes[cur.toNat]? = some (.leaf v f) → walk nodes root cap (bit :: bits) i cur nout = .error (malformedAt i)) ∧
    (∀ f l r, nodes[cur.toNat]? = some (.internal f l r) → nodes.length ≤ (if bit then r else l).toNat →
      walk nodes root cap (bit :: bits) i cur nout = .error (malformedAt i)) ∧
    (cur ≠ root → walk nodes root cap [] i cur nout = .error (malformedAt i))) ∧
  (∀ s t : State, s.phase = .builtD → s.TreeBuilt → exec .unpack s = .next t → t.err = some .malformedStream →
    s.err = none → t.errInfo.toNat = s.vbits.toNat) ∧
  (∀ (s : State) (code : CodeTable) (bytes : List Byte) (v : Byte) (part : BitString), Memory.wf s.src →
    s.phase = .builtD → s.TreeBuilt → deriveTable s.nodes s.root = some code →
    (∀ u ∈ bytes, code[u.toNat] ≠ []) → bytes.length ≤ s.dstCap.toNat →
    part ≠ [] → part <+: code[v.toNat] → part ≠ code[v.toNat] →
    (codeBits code bytes ++ part).length = s.vbits.toNat →
    (∀ i < s.vbits.toNat,
      (srcByte s (1028 + i / 8)).getLsbD (7 - i % 8) = (codeBits code bytes ++ part).getD i false) →
    ∃ t, exec .unpack s = .next t ∧ FaultRecorded .malformedStream (s.vbits.setWidth 64) s t)

/-- R194, R196: `UNPACK` depends on `SRC` through the `VBITS` valid bits of the payload alone: neither padding bits nor
surplus bytes nor the header change what it does. Where it completes nothing differs but `SRC` itself; where it faults,
what R254 leaves defined is the same. -/
def Obligations.UnpackIgnoresPaddingAndSurplus : Prop :=
  ∀ (s t : State) (m : Memory), Memory.wf s.src → Memory.wf m →
    (∀ i < s.vbits.toNat, (srcByte { s with src := m } (1028 + i / 8)).getLsbD (7 - i % 8) =
      (srcByte s (1028 + i / 8)).getLsbD (7 - i % 8)) →
    exec .unpack s = .next t →
    ∃ t', exec .unpack { s with src := m } = .next t' ∧ (t.phase = .doneD → t' = { t with src := m }) ∧
      t'.phase = t.phase ∧ t'.err = t.err ∧ t'.errInfo = t.errInfo ∧ t'.dstLen = t.dstLen ∧
      t'.srcLen = t.srcLen ∧ t'.dstCap = t.dstCap ∧ t'.tblAddr = t.tblAddr

/-- R195: the size of the output of an `UNPACK` that completes, where it is stored, and that `DST_CAP >= VBITS` is always
enough. -/
def Obligations.UnpackOutputIsBounded : Prop :=
  ∀ s t : State, s.phase = .builtD → s.TreeBuilt → s.err = none → exec .unpack s = .next t →
    (t.phase = .doneD → t.dstLen.toNat ≤ s.vbits.toNat ∧
      s.vbits.toNat ≤ t.dstLen.toNat * (countNonzero s.hist - 1) ∧
      (∀ k < t.dstLen.toNat, ∃ b, Memory.read? t.dst k = some b) ∧
      (∀ a, t.dstLen.toNat ≤ a → Memory.read? t.dst a = Memory.read? s.dst a)) ∧
    (s.vbits.toNat ≤ s.dstCap.toNat → t.err ≠ some .dstOverflow)

/-- R62 in `UNPACK` (R190, R251): when the payload begins with the codes of more bytes than `DST_CAP`, index `DST_CAP` is
refused, whatever the bits after them are. -/
def Obligations.UnpackRaisesDstOverflow : Prop :=
  ∀ (s : State) (code : CodeTable) (bytes : List Byte), Memory.wf s.src → s.phase = .builtD → s.TreeBuilt →
    deriveTable s.nodes s.root = some code → (∀ v ∈ bytes, code[v.toNat] ≠ []) →
    s.dstCap.toNat < bytes.length → (codeBits code bytes).length ≤ s.vbits.toNat →
    (∀ i < (codeBits code bytes).length,
      (srcByte s (1028 + i / 8)).getLsbD (7 - i % 8) = (codeBits code bytes).getD i false) →
    ∃ t, exec .unpack s = .next t ∧ FaultRecorded .dstOverflow s.dstCap s t ∧
      ∀ a, s.dstCap.toNat ≤ a → dstByte t a = dstByte s a

/-! Faults. -/

/-- R247, R254: raising a fault records its kind and value, zeroes `DST_LEN`, leads to `FAULT` and leaves `SRC_LEN`,
`DST_CAP`, `TBL_ADDR` and `SRC` alone; and every write of `CMD` that leads from another phase into `FAULT` does just that. -/
def Obligations.FaultEntryRecordsTheFault : Prop :=
  (∀ (r : Raised) (own : Extent) (s : State), ∃ t, raise r own s = .next t ∧ FaultRecorded r.kind r.info s t) ∧
  ∀ (s t : State) (w : Word), s.phase ≠ .fault → submit w s = .next t → t.phase = .fault →
    ∃ k info, FaultRecorded k info s t ∧
      (k = .illegalCommand ↔ ∀ i, decode w ≠ .ok i)

/-- R248: once in `FAULT`, every step that is not the write of the exact word `CLR` keeps `ERR`, `ERR_INFO`, the phase
and every table. -/
def Obligations.FirstFaultSticks : Prop :=
  ∀ s t : State, s.phase = .fault → step s = .next t → (∀ rest, s.pending ≠ .write 0x00 1 :: rest) →
    t.phase = .fault ∧ t.err = s.err ∧ t.errInfo = s.errInfo ∧ t.dstLen = s.dstLen ∧ t.hist = s.hist ∧
    t.nodes = s.nodes ∧ t.code = s.code ∧ t.vbits = s.vbits ∧ t.root = s.root ∧ t.nleaves = s.nleaves ∧
    t.normCnt = s.normCnt ∧ t.srcLen = s.srcLen ∧ t.dstCap = s.dstCap ∧ ∀ a, dstByte t a = dstByte s a

/-! The whole machine. -/

/-- The invariant holds after reset. -/
def Obligations.ResetMeetsTheInvariant : Prop := State.reset.Inv

/-- Every step keeps the invariant: the canonical form of the buffers, `ERR != 0` exactly in `FAULT` (R26), `DST_LEN`
0 until an operation completes (R32), and in every phase the tables that its commands left (R23, R121, R124, R144, R148,
R161, R208, R209, R211). -/
def Obligations.StepKeepsTheInvariant : Prop :=
  ∀ s t : State, s.Inv → step s = .next t → t.Inv

/-- From a state that meets the invariant every well-formed host move has a next state, but for a look at `DST` that
R74 forbids: the block is never stuck, and no command stops (R160, R233). -/
def Obligations.NoMoveGetsStuck : Prop :=
  ∀ (s : State) (op : HostOp), s.Inv → HostOp.wf op = true →
    (∀ i, op = .readDst i → s.phase = .doneE ∨ s.phase = .doneD) → ∃ t, hostMove op s = .next t

/-- R42: once the histogram is built, only `CLR` and a fault change it. -/
def Obligations.HistIsImmutableOnceBuilt : Prop :=
  ∀ s t : State, s.phase ≠ .idle → s.phase ≠ .counted → step s = .next t →
    t.hist = s.hist ∨ (s.phase ≠ .fault ∧ t.phase = .fault) ∨ (∃ rest, s.pending = .write 0x00 1 :: rest)

/-- No command changes `SRC`, `SRC_LEN`, `DST_CAP` or `TBL_ADDR` (R30, R31, R33, R61). -/
def Obligations.CommandsLeaveTheHostsRegisters : Prop :=
  ∀ (i : Instr) (s t : State), exec i s = .next t →
    t.src = s.src ∧ t.srcLen = s.srcLen ∧ t.dstCap = s.dstCap ∧ t.tblAddr = s.tblAddr ∧ t.pending = s.pending ∧
    t.busData = s.busData

/-- R69: a command that completes writes `DST` in its row alone: every other byte is listed as before and holds what it
held before. -/
def Obligations.StoresStayInTheirRow : Prop :=
  ∀ (i : Instr) (s t : State), exec i s = .next t → t.phase ≠ .fault →
    ∀ a, ¬((rowOf i t).lo ≤ a ∧ a < (rowOf i t).hi) →
      Memory.read? t.dst a = Memory.read? s.dst a ∧ dstByte t a = dstByte s a

/-- R62: from a state that meets the invariant, no command, completing or faulting, touches a `DST` byte at an index at or
above `DST_CAP`. -/
def Obligations.NoStoreAtOrAboveDstCap : Prop :=
  ∀ (i : Instr) (s t : State), s.Inv → exec i s = .next t →
    ∀ a, s.dstCap.toNat ≤ a → Memory.read? t.dst a = Memory.read? s.dst a ∧ dstByte t a = dstByte s a

/-! Encode and decode. -/

/-- R68: after an operation that completes, the bytes of `DST` at and above `DST_LEN` hold whatever they held before it. -/
def Obligations.OperationsKeepTheRestOfDst : Prop :=
  (∀ s t : State, execEncode s = .next t → t.phase = .doneE → ∀ a, t.dstLen.toNat ≤ a → dstByte t a = dstByte s a) ∧
  (∀ s t : State, execDecode s = .next t → t.phase = .doneD → ∀ a, t.dstLen.toNat ≤ a → dstByte t a = dstByte s a)

/-- R230: `ENCODE` ends in `DONE_E` with the whole container of the input in `DST`, or in `FAULT` with one of three kinds. -/
def Obligations.EncodeHasOneOfFourOutcomes : Prop :=
  ∀ s : State, ∃ t code, execEncode s = .next t ∧ codeOfInput (srcBytes s) = some code ∧
    ((t.phase = .doneE ∧ t.dstLen.toNat = 1028 + ceil8 (codeBits code (srcBytes s)).length ∧
        IsContainer (normalize (countBytes (srcBytes s) emptyHist)).1 (codeBits code (srcBytes s)) t.dst) ∨
     (t.phase = .fault ∧
        (t.err = some .bitCountRange ∨ t.err = some .countRange ∨ t.err = some .dstOverflow)))

/-- R231: `DECODE` ends in `DONE_D` with, in `DST`, the bytes whose codes the payload is, or in `FAULT` with one of four
kinds. -/
def Obligations.DecodeHasOneOfFiveOutcomes : Prop :=
  ∀ s : State, Memory.wf s.src → ∃ t, execDecode s = .next t ∧
    ((t.phase = .doneD ∧ ∃ code out, codeOfHist t.hist = some code ∧ t.dstLen.toNat = out.length ∧
        (∀ k (h : k < out.length), Memory.read? t.dst k = some out[k]) ∧
        (codeBits code out).length = t.vbits.toNat ∧
        ∀ i < t.vbits.toNat, (srcByte s (1028 + i / 8)).getLsbD (7 - i % 8) = (codeBits code out).getD i false) ∨
     (t.phase = .fault ∧
        (t.err = some .truncatedInput ∨ t.err = some .degenerateHistogram ∨ t.err = some .malformedStream ∨
          t.err = some .dstOverflow)))

/-- R232: the round trip. Let no byte value occur `2^32` or more times and the encoded length be at most `2^32 - 1`. Then
`ENCODE` ends in `DONE_E`, and `DECODE`, from any state whose source buffer is the container, ends in `DONE_D` with the
original bytes. -/
def Obligations.DecodeOfEncodeIsTheInput : Prop :=
  ∀ (s : State) (code : CodeTable), Memory.wf s.src →
    codeOfInput (srcBytes s) = some code →
    (∀ v : Byte, occurrences v (srcBytes s) < 2 ^ 32) →
    (allBytes.map (fun v => occurrences v (srcBytes s) * code[v.toNat].length)).sum ≤ 2 ^ 32 - 1 →
    1028 + ceil8 (codeBits code (srcBytes s)).length ≤ s.dstCap.toNat →
    ∃ e, execEncode s = .next e ∧ e.phase = .doneE ∧
      ∀ d : State, Memory.wf d.src → d.srcLen = e.dstLen →
        (∀ a < e.dstLen.toNat, Memory.read? e.dst a = some (srcByte d a)) →
        s.srcLen.toNat ≤ d.dstCap.toNat →
        ∃ f, execDecode d = .next f ∧ f.phase = .doneD ∧ f.dstLen = s.srcLen ∧
          ∀ k < s.srcLen.toNat, Memory.read? f.dst k = some (srcByte s k)
end

