-- ==== Sys2Proof/Laws/State.lean ====
section
/-! SUPPORT. One lemma per field of the state for each named update, so that no later proof unfolds an update. -/

namespace Sys2Proof.Machine

/-! `enterFault`. -/

@[simp] theorem enterFault_hist (r : Raised) (own : Extent) (s : State) : (enterFault r own s).hist = Config.freeHist s.draws := rfl
@[simp] theorem enterFault_nodes (r : Raised) (own : Extent) (s : State) : (enterFault r own s).nodes = Config.freeNodes s.draws := rfl
@[simp] theorem enterFault_code (r : Raised) (own : Extent) (s : State) : (enterFault r own s).code = Config.freeCode s.draws := rfl
@[simp] theorem enterFault_phase (r : Raised) (own : Extent) (s : State) : (enterFault r own s).phase = .fault := rfl
@[simp] theorem enterFault_err (r : Raised) (own : Extent) (s : State) : (enterFault r own s).err = some r.kind := rfl
@[simp] theorem enterFault_normCnt (r : Raised) (own : Extent) (s : State) : (enterFault r own s).normCnt = Config.freeNormCnt s.draws := rfl
@[simp] theorem enterFault_vbits (r : Raised) (own : Extent) (s : State) : (enterFault r own s).vbits = Config.freeVbits s.draws := rfl
@[simp] theorem enterFault_root (r : Raised) (own : Extent) (s : State) : (enterFault r own s).root = Config.freeRoot s.draws := rfl
@[simp] theorem enterFault_nleaves (r : Raised) (own : Extent) (s : State) : (enterFault r own s).nleaves = Config.freeNleaves s.draws := rfl
@[simp] theorem enterFault_srcLen (r : Raised) (own : Extent) (s : State) : (enterFault r own s).srcLen = s.srcLen := rfl
@[simp] theorem enterFault_dstCap (r : Raised) (own : Extent) (s : State) : (enterFault r own s).dstCap = s.dstCap := rfl
@[simp] theorem enterFault_dstLen (r : Raised) (own : Extent) (s : State) : (enterFault r own s).dstLen = 0 := rfl
@[simp] theorem enterFault_tblAddr (r : Raised) (own : Extent) (s : State) : (enterFault r own s).tblAddr = s.tblAddr := rfl
@[simp] theorem enterFault_errInfo (r : Raised) (own : Extent) (s : State) : (enterFault r own s).errInfo = r.info := rfl
@[simp] theorem enterFault_src (r : Raised) (own : Extent) (s : State) : (enterFault r own s).src = s.src := rfl
@[simp] theorem enterFault_dst (r : Raised) (own : Extent) (s : State) : (enterFault r own s).dst = Memory.forget (Memory.forget s.dst (storedExtent s)) own := rfl
@[simp] theorem enterFault_dstLost (r : Raised) (own : Extent) (s : State) : (enterFault r own s).dstLost = loseRange own s.draws (loseRange (storedExtent s) s.draws s.dstLost) := rfl
@[simp] theorem enterFault_pending (r : Raised) (own : Extent) (s : State) : (enterFault r own s).pending = s.pending := rfl
@[simp] theorem enterFault_busData (r : Raised) (own : Extent) (s : State) : (enterFault r own s).busData = s.busData := rfl
@[simp] theorem enterFault_draws (r : Raised) (own : Extent) (s : State) : (enterFault r own s).draws = s.draws + 1 := rfl

/-! `clear`. -/

@[simp] theorem clear_hist (s : State) : (clear s).hist = emptyHist := rfl
@[simp] theorem clear_nodes (s : State) : (clear s).nodes = [] := rfl
@[simp] theorem clear_code (s : State) : (clear s).code = emptyCode := rfl
@[simp] theorem clear_phase (s : State) : (clear s).phase = .idle := rfl
@[simp] theorem clear_err (s : State) : (clear s).err = none := rfl
@[simp] theorem clear_normCnt (s : State) : (clear s).normCnt = 0 := rfl
@[simp] theorem clear_vbits (s : State) : (clear s).vbits = 0 := rfl
@[simp] theorem clear_root (s : State) : (clear s).root = 0 := rfl
@[simp] theorem clear_nleaves (s : State) : (clear s).nleaves = 0 := rfl
@[simp] theorem clear_srcLen (s : State) : (clear s).srcLen = s.srcLen := rfl
@[simp] theorem clear_dstCap (s : State) : (clear s).dstCap = s.dstCap := rfl
@[simp] theorem clear_dstLen (s : State) : (clear s).dstLen = 0 := rfl
@[simp] theorem clear_tblAddr (s : State) : (clear s).tblAddr = s.tblAddr := rfl
@[simp] theorem clear_errInfo (s : State) : (clear s).errInfo = 0 := rfl
@[simp] theorem clear_src (s : State) : (clear s).src = s.src := rfl
@[simp] theorem clear_dst (s : State) : (clear s).dst = s.dst := rfl
@[simp] theorem clear_dstLost (s : State) : (clear s).dstLost = s.dstLost := rfl
@[simp] theorem clear_pending (s : State) : (clear s).pending = s.pending := rfl
@[simp] theorem clear_busData (s : State) : (clear s).busData = s.busData := rfl
@[simp] theorem clear_draws (s : State) : (clear s).draws = s.draws := rfl

/-! `withCounts`. -/

@[simp] theorem withCounts_hist (s : State) : (withCounts s).hist = countBytes (srcBytes s) s.hist := rfl
@[simp] theorem withCounts_nodes (s : State) : (withCounts s).nodes = s.nodes := rfl
@[simp] theorem withCounts_code (s : State) : (withCounts s).code = s.code := rfl
@[simp] theorem withCounts_phase (s : State) : (withCounts s).phase = .counted := rfl
@[simp] theorem withCounts_err (s : State) : (withCounts s).err = s.err := rfl
@[simp] theorem withCounts_normCnt (s : State) : (withCounts s).normCnt = s.normCnt := rfl
@[simp] theorem withCounts_vbits (s : State) : (withCounts s).vbits = s.vbits := rfl
@[simp] theorem withCounts_root (s : State) : (withCounts s).root = s.root := rfl
@[simp] theorem withCounts_nleaves (s : State) : (withCounts s).nleaves = s.nleaves := rfl
@[simp] theorem withCounts_srcLen (s : State) : (withCounts s).srcLen = s.srcLen := rfl
@[simp] theorem withCounts_dstCap (s : State) : (withCounts s).dstCap = s.dstCap := rfl
@[simp] theorem withCounts_dstLen (s : State) : (withCounts s).dstLen = s.dstLen := rfl
@[simp] theorem withCounts_tblAddr (s : State) : (withCounts s).tblAddr = s.tblAddr := rfl
@[simp] theorem withCounts_errInfo (s : State) : (withCounts s).errInfo = s.errInfo := rfl
@[simp] theorem withCounts_src (s : State) : (withCounts s).src = s.src := rfl
@[simp] theorem withCounts_dst (s : State) : (withCounts s).dst = s.dst := rfl
@[simp] theorem withCounts_dstLost (s : State) : (withCounts s).dstLost = s.dstLost := rfl
@[simp] theorem withCounts_pending (s : State) : (withCounts s).pending = s.pending := rfl
@[simp] theorem withCounts_busData (s : State) : (withCounts s).busData = s.busData := rfl
@[simp] theorem withCounts_draws (s : State) : (withCounts s).draws = s.draws := rfl

/-! `withNormal`. -/

@[simp] theorem withNormal_hist (s : State) : (withNormal s).hist = (normalize s.hist).1 := rfl
@[simp] theorem withNormal_nodes (s : State) : (withNormal s).nodes = s.nodes := rfl
@[simp] theorem withNormal_code (s : State) : (withNormal s).code = s.code := rfl
@[simp] theorem withNormal_phase (s : State) : (withNormal s).phase = .normed := rfl
@[simp] theorem withNormal_err (s : State) : (withNormal s).err = s.err := rfl
@[simp] theorem withNormal_normCnt (s : State) : (withNormal s).normCnt = BitVec.ofNat 2 (normalize s.hist).2 := rfl
@[simp] theorem withNormal_vbits (s : State) : (withNormal s).vbits = s.vbits := rfl
@[simp] theorem withNormal_root (s : State) : (withNormal s).root = s.root := rfl
@[simp] theorem withNormal_nleaves (s : State) : (withNormal s).nleaves = s.nleaves := rfl
@[simp] theorem withNormal_srcLen (s : State) : (withNormal s).srcLen = s.srcLen := rfl
@[simp] theorem withNormal_dstCap (s : State) : (withNormal s).dstCap = s.dstCap := rfl
@[simp] theorem withNormal_dstLen (s : State) : (withNormal s).dstLen = s.dstLen := rfl
@[simp] theorem withNormal_tblAddr (s : State) : (withNormal s).tblAddr = s.tblAddr := rfl
@[simp] theorem withNormal_errInfo (s : State) : (withNormal s).errInfo = s.errInfo := rfl
@[simp] theorem withNormal_src (s : State) : (withNormal s).src = s.src := rfl
@[simp] theorem withNormal_dst (s : State) : (withNormal s).dst = s.dst := rfl
@[simp] theorem withNormal_dstLost (s : State) : (withNormal s).dstLost = s.dstLost := rfl
@[simp] theorem withNormal_pending (s : State) : (withNormal s).pending = s.pending := rfl
@[simp] theorem withNormal_busData (s : State) : (withNormal s).busData = s.busData := rfl
@[simp] theorem withNormal_draws (s : State) : (withNormal s).draws = s.draws := rfl

/-! `withTree`. -/

@[simp] theorem withTree_hist (s : State) (p : Phase) : (withTree s p).hist = s.hist := rfl
@[simp] theorem withTree_nodes (s : State) (p : Phase) : (withTree s p).nodes = buildNodes s.hist := rfl
@[simp] theorem withTree_code (s : State) (p : Phase) : (withTree s p).code = s.code := rfl
@[simp] theorem withTree_phase (s : State) (p : Phase) : (withTree s p).phase = p := rfl
@[simp] theorem withTree_err (s : State) (p : Phase) : (withTree s p).err = s.err := rfl
@[simp] theorem withTree_normCnt (s : State) (p : Phase) : (withTree s p).normCnt = s.normCnt := rfl
@[simp] theorem withTree_vbits (s : State) (p : Phase) : (withTree s p).vbits = s.vbits := rfl
@[simp] theorem withTree_root (s : State) (p : Phase) : (withTree s p).root = BitVec.ofNat 9 ((buildNodes s.hist).length - 1) := rfl
@[simp] theorem withTree_nleaves (s : State) (p : Phase) : (withTree s p).nleaves = BitVec.ofNat 9 (countNonzero s.hist) := rfl
@[simp] theorem withTree_srcLen (s : State) (p : Phase) : (withTree s p).srcLen = s.srcLen := rfl
@[simp] theorem withTree_dstCap (s : State) (p : Phase) : (withTree s p).dstCap = s.dstCap := rfl
@[simp] theorem withTree_dstLen (s : State) (p : Phase) : (withTree s p).dstLen = s.dstLen := rfl
@[simp] theorem withTree_tblAddr (s : State) (p : Phase) : (withTree s p).tblAddr = s.tblAddr := rfl
@[simp] theorem withTree_errInfo (s : State) (p : Phase) : (withTree s p).errInfo = s.errInfo := rfl
@[simp] theorem withTree_src (s : State) (p : Phase) : (withTree s p).src = s.src := rfl
@[simp] theorem withTree_dst (s : State) (p : Phase) : (withTree s p).dst = s.dst := rfl
@[simp] theorem withTree_dstLost (s : State) (p : Phase) : (withTree s p).dstLost = s.dstLost := rfl
@[simp] theorem withTree_pending (s : State) (p : Phase) : (withTree s p).pending = s.pending := rfl
@[simp] theorem withTree_busData (s : State) (p : Phase) : (withTree s p).busData = s.busData := rfl
@[simp] theorem withTree_draws (s : State) (p : Phase) : (withTree s p).draws = s.draws := rfl

/-! `withCode`. -/

@[simp] theorem withCode_hist (c : CodeTable) (s : State) : (withCode c s).hist = s.hist := rfl
@[simp] theorem withCode_nodes (c : CodeTable) (s : State) : (withCode c s).nodes = s.nodes := rfl
@[simp] theorem withCode_code (c : CodeTable) (s : State) : (withCode c s).code = c := rfl
@[simp] theorem withCode_phase (c : CodeTable) (s : State) : (withCode c s).phase = .coded := rfl
@[simp] theorem withCode_err (c : CodeTable) (s : State) : (withCode c s).err = s.err := rfl
@[simp] theorem withCode_normCnt (c : CodeTable) (s : State) : (withCode c s).normCnt = s.normCnt := rfl
@[simp] theorem withCode_vbits (c : CodeTable) (s : State) : (withCode c s).vbits = s.vbits := rfl
@[simp] theorem withCode_root (c : CodeTable) (s : State) : (withCode c s).root = s.root := rfl
@[simp] theorem withCode_nleaves (c : CodeTable) (s : State) : (withCode c s).nleaves = s.nleaves := rfl
@[simp] theorem withCode_srcLen (c : CodeTable) (s : State) : (withCode c s).srcLen = s.srcLen := rfl
@[simp] theorem withCode_dstCap (c : CodeTable) (s : State) : (withCode c s).dstCap = s.dstCap := rfl
@[simp] theorem withCode_dstLen (c : CodeTable) (s : State) : (withCode c s).dstLen = s.dstLen := rfl
@[simp] theorem withCode_tblAddr (c : CodeTable) (s : State) : (withCode c s).tblAddr = s.tblAddr := rfl
@[simp] theorem withCode_errInfo (c : CodeTable) (s : State) : (withCode c s).errInfo = s.errInfo := rfl
@[simp] theorem withCode_src (c : CodeTable) (s : State) : (withCode c s).src = s.src := rfl
@[simp] theorem withCode_dst (c : CodeTable) (s : State) : (withCode c s).dst = s.dst := rfl
@[simp] theorem withCode_dstLost (c : CodeTable) (s : State) : (withCode c s).dstLost = s.dstLost := rfl
@[simp] theorem withCode_pending (c : CodeTable) (s : State) : (withCode c s).pending = s.pending := rfl
@[simp] theorem withCode_busData (c : CodeTable) (s : State) : (withCode c s).busData = s.busData := rfl
@[simp] theorem withCode_draws (c : CodeTable) (s : State) : (withCode c s).draws = s.draws := rfl

/-! `withPayload`. -/

@[simp] theorem withPayload_hist (b : List Byte) (n : Nat) (s : State) : (withPayload b n s).hist = s.hist := rfl
@[simp] theorem withPayload_nodes (b : List Byte) (n : Nat) (s : State) : (withPayload b n s).nodes = s.nodes := rfl
@[simp] theorem withPayload_code (b : List Byte) (n : Nat) (s : State) : (withPayload b n s).code = s.code := rfl
@[simp] theorem withPayload_phase (b : List Byte) (n : Nat) (s : State) : (withPayload b n s).phase = .packed := rfl
@[simp] theorem withPayload_err (b : List Byte) (n : Nat) (s : State) : (withPayload b n s).err = s.err := rfl
@[simp] theorem withPayload_normCnt (b : List Byte) (n : Nat) (s : State) : (withPayload b n s).normCnt = s.normCnt := rfl
@[simp] theorem withPayload_vbits (b : List Byte) (n : Nat) (s : State) : (withPayload b n s).vbits = BitVec.ofNat 32 n := rfl
@[simp] theorem withPayload_root (b : List Byte) (n : Nat) (s : State) : (withPayload b n s).root = s.root := rfl
@[simp] theorem withPayload_nleaves (b : List Byte) (n : Nat) (s : State) : (withPayload b n s).nleaves = s.nleaves := rfl
@[simp] theorem withPayload_srcLen (b : List Byte) (n : Nat) (s : State) : (withPayload b n s).srcLen = s.srcLen := rfl
@[simp] theorem withPayload_dstCap (b : List Byte) (n : Nat) (s : State) : (withPayload b n s).dstCap = s.dstCap := rfl
@[simp] theorem withPayload_dstLen (b : List Byte) (n : Nat) (s : State) : (withPayload b n s).dstLen = s.dstLen := rfl
@[simp] theorem withPayload_tblAddr (b : List Byte) (n : Nat) (s : State) : (withPayload b n s).tblAddr = s.tblAddr := rfl
@[simp] theorem withPayload_errInfo (b : List Byte) (n : Nat) (s : State) : (withPayload b n s).errInfo = s.errInfo := rfl
@[simp] theorem withPayload_src (b : List Byte) (n : Nat) (s : State) : (withPayload b n s).src = s.src := rfl
@[simp] theorem withPayload_dst (b : List Byte) (n : Nat) (s : State) : (withPayload b n s).dst = Memory.writeRun s.dst Config.payloadOff b := rfl
@[simp] theorem withPayload_dstLost (b : List Byte) (n : Nat) (s : State) : (withPayload b n s).dstLost = s.dstLost := rfl
@[simp] theorem withPayload_pending (b : List Byte) (n : Nat) (s : State) : (withPayload b n s).pending = s.pending := rfl
@[simp] theorem withPayload_busData (b : List Byte) (n : Nat) (s : State) : (withPayload b n s).busData = s.busData := rfl
@[simp] theorem withPayload_draws (b : List Byte) (n : Nat) (s : State) : (withPayload b n s).draws = s.draws := rfl

/-! `withHeader`. -/

@[simp] theorem withHeader_hist (s : State) : (withHeader s).hist = s.hist := rfl
@[simp] theorem withHeader_nodes (s : State) : (withHeader s).nodes = s.nodes := rfl
@[simp] theorem withHeader_code (s : State) : (withHeader s).code = s.code := rfl
@[simp] theorem withHeader_phase (s : State) : (withHeader s).phase = .doneE := rfl
@[simp] theorem withHeader_err (s : State) : (withHeader s).err = s.err := rfl
@[simp] theorem withHeader_normCnt (s : State) : (withHeader s).normCnt = s.normCnt := rfl
@[simp] theorem withHeader_vbits (s : State) : (withHeader s).vbits = s.vbits := rfl
@[simp] theorem withHeader_root (s : State) : (withHeader s).root = s.root := rfl
@[simp] theorem withHeader_nleaves (s : State) : (withHeader s).nleaves = s.nleaves := rfl
@[simp] theorem withHeader_srcLen (s : State) : (withHeader s).srcLen = s.srcLen := rfl
@[simp] theorem withHeader_dstCap (s : State) : (withHeader s).dstCap = s.dstCap := rfl
@[simp] theorem withHeader_dstLen (s : State) : (withHeader s).dstLen = BitVec.ofNat 64 (Config.payloadOff + ceil8 s.vbits.toNat) := rfl
@[simp] theorem withHeader_tblAddr (s : State) : (withHeader s).tblAddr = s.tblAddr := rfl
@[simp] theorem withHeader_errInfo (s : State) : (withHeader s).errInfo = s.errInfo := rfl
@[simp] theorem withHeader_src (s : State) : (withHeader s).src = s.src := rfl
@[simp] theorem withHeader_dst (s : State) : (withHeader s).dst = Memory.writeRun s.dst 0 (headerBytes s.hist s.vbits) := rfl
@[simp] theorem withHeader_dstLost (s : State) : (withHeader s).dstLost = s.dstLost := rfl
@[simp] theorem withHeader_pending (s : State) : (withHeader s).pending = s.pending := rfl
@[simp] theorem withHeader_busData (s : State) : (withHeader s).busData = s.busData := rfl
@[simp] theorem withHeader_draws (s : State) : (withHeader s).draws = s.draws := rfl

/-! `withParsed`. -/

@[simp] theorem withParsed_hist (s : State) : (withParsed s).hist = histOfFields (headerFields s) := by simp only [withParsed]
@[simp] theorem withParsed_nodes (s : State) : (withParsed s).nodes = s.nodes := by simp only [withParsed]
@[simp] theorem withParsed_code (s : State) : (withParsed s).code = s.code := by simp only [withParsed]
@[simp] theorem withParsed_phase (s : State) : (withParsed s).phase = .parsed := by simp only [withParsed]
@[simp] theorem withParsed_err (s : State) : (withParsed s).err = s.err := by simp only [withParsed]
@[simp] theorem withParsed_normCnt (s : State) : (withParsed s).normCnt = s.normCnt := by simp only [withParsed]
@[simp] theorem withParsed_vbits (s : State) : (withParsed s).vbits = vbitsOfFields (headerFields s) := by simp only [withParsed]
@[simp] theorem withParsed_root (s : State) : (withParsed s).root = s.root := by simp only [withParsed]
@[simp] theorem withParsed_nleaves (s : State) : (withParsed s).nleaves = s.nleaves := by simp only [withParsed]
@[simp] theorem withParsed_srcLen (s : State) : (withParsed s).srcLen = s.srcLen := by simp only [withParsed]
@[simp] theorem withParsed_dstCap (s : State) : (withParsed s).dstCap = s.dstCap := by simp only [withParsed]
@[simp] theorem withParsed_dstLen (s : State) : (withParsed s).dstLen = s.dstLen := by simp only [withParsed]
@[simp] theorem withParsed_tblAddr (s : State) : (withParsed s).tblAddr = s.tblAddr := by simp only [withParsed]
@[simp] theorem withParsed_errInfo (s : State) : (withParsed s).errInfo = s.errInfo := by simp only [withParsed]
@[simp] theorem withParsed_src (s : State) : (withParsed s).src = s.src := by simp only [withParsed]
@[simp] theorem withParsed_dst (s : State) : (withParsed s).dst = s.dst := by simp only [withParsed]
@[simp] theorem withParsed_dstLost (s : State) : (withParsed s).dstLost = s.dstLost := by simp only [withParsed]
@[simp] theorem withParsed_pending (s : State) : (withParsed s).pending = s.pending := by simp only [withParsed]
@[simp] theorem withParsed_busData (s : State) : (withParsed s).busData = s.busData := by simp only [withParsed]
@[simp] theorem withParsed_draws (s : State) : (withParsed s).draws = s.draws := by simp only [withParsed]

/-! `withOutput`. -/

@[simp] theorem withOutput_hist (b : List Byte) (s : State) : (withOutput b s).hist = s.hist := rfl
@[simp] theorem withOutput_nodes (b : List Byte) (s : State) : (withOutput b s).nodes = s.nodes := rfl
@[simp] theorem withOutput_code (b : List Byte) (s : State) : (withOutput b s).code = s.code := rfl
@[simp] theorem withOutput_phase (b : List Byte) (s : State) : (withOutput b s).phase = .doneD := rfl
@[simp] theorem withOutput_err (b : List Byte) (s : State) : (withOutput b s).err = s.err := rfl
@[simp] theorem withOutput_normCnt (b : List Byte) (s : State) : (withOutput b s).normCnt = s.normCnt := rfl
@[simp] theorem withOutput_vbits (b : List Byte) (s : State) : (withOutput b s).vbits = s.vbits := rfl
@[simp] theorem withOutput_root (b : List Byte) (s : State) : (withOutput b s).root = s.root := rfl
@[simp] theorem withOutput_nleaves (b : List Byte) (s : State) : (withOutput b s).nleaves = s.nleaves := rfl
@[simp] theorem withOutput_srcLen (b : List Byte) (s : State) : (withOutput b s).srcLen = s.srcLen := rfl
@[simp] theorem withOutput_dstCap (b : List Byte) (s : State) : (withOutput b s).dstCap = s.dstCap := rfl
@[simp] theorem withOutput_dstLen (b : List Byte) (s : State) : (withOutput b s).dstLen = BitVec.ofNat 64 b.length := rfl
@[simp] theorem withOutput_tblAddr (b : List Byte) (s : State) : (withOutput b s).tblAddr = s.tblAddr := rfl
@[simp] theorem withOutput_errInfo (b : List Byte) (s : State) : (withOutput b s).errInfo = s.errInfo := rfl
@[simp] theorem withOutput_src (b : List Byte) (s : State) : (withOutput b s).src = s.src := rfl
@[simp] theorem withOutput_dst (b : List Byte) (s : State) : (withOutput b s).dst = Memory.writeRun s.dst 0 b := rfl
@[simp] theorem withOutput_dstLost (b : List Byte) (s : State) : (withOutput b s).dstLost = s.dstLost := rfl
@[simp] theorem withOutput_pending (b : List Byte) (s : State) : (withOutput b s).pending = s.pending := rfl
@[simp] theorem withOutput_busData (b : List Byte) (s : State) : (withOutput b s).busData = s.busData := rfl
@[simp] theorem withOutput_draws (b : List Byte) (s : State) : (withOutput b s).draws = s.draws := rfl

/-! `busRead`. -/

@[simp] theorem busRead_hist (o : Offset) (s : State) : (busRead o s).hist = s.hist := rfl
@[simp] theorem busRead_nodes (o : Offset) (s : State) : (busRead o s).nodes = s.nodes := rfl
@[simp] theorem busRead_code (o : Offset) (s : State) : (busRead o s).code = s.code := rfl
@[simp] theorem busRead_phase (o : Offset) (s : State) : (busRead o s).phase = s.phase := rfl
@[simp] theorem busRead_err (o : Offset) (s : State) : (busRead o s).err = s.err := rfl
@[simp] theorem busRead_normCnt (o : Offset) (s : State) : (busRead o s).normCnt = s.normCnt := rfl
@[simp] theorem busRead_vbits (o : Offset) (s : State) : (busRead o s).vbits = s.vbits := rfl
@[simp] theorem busRead_root (o : Offset) (s : State) : (busRead o s).root = s.root := rfl
@[simp] theorem busRead_nleaves (o : Offset) (s : State) : (busRead o s).nleaves = s.nleaves := rfl
@[simp] theorem busRead_srcLen (o : Offset) (s : State) : (busRead o s).srcLen = s.srcLen := rfl
@[simp] theorem busRead_dstCap (o : Offset) (s : State) : (busRead o s).dstCap = s.dstCap := rfl
@[simp] theorem busRead_dstLen (o : Offset) (s : State) : (busRead o s).dstLen = s.dstLen := rfl
@[simp] theorem busRead_tblAddr (o : Offset) (s : State) : (busRead o s).tblAddr = s.tblAddr := rfl
@[simp] theorem busRead_errInfo (o : Offset) (s : State) : (busRead o s).errInfo = s.errInfo := rfl
@[simp] theorem busRead_src (o : Offset) (s : State) : (busRead o s).src = s.src := rfl
@[simp] theorem busRead_dst (o : Offset) (s : State) : (busRead o s).dst = s.dst := rfl
@[simp] theorem busRead_dstLost (o : Offset) (s : State) : (busRead o s).dstLost = s.dstLost := rfl
@[simp] theorem busRead_pending (o : Offset) (s : State) : (busRead o s).pending = s.pending := rfl
@[simp] theorem busRead_busData (o : Offset) (s : State) : (busRead o s).busData = offsetValue o s := rfl
@[simp] theorem busRead_draws (o : Offset) (s : State) : (busRead o s).draws = s.draws + 1 := rfl

/-! `hostFill`. -/

@[simp] theorem hostFill_hist (i : Nat) (b : List Byte) (s : State) : (hostFill i b s).hist = s.hist := rfl
@[simp] theorem hostFill_nodes (i : Nat) (b : List Byte) (s : State) : (hostFill i b s).nodes = s.nodes := rfl
@[simp] theorem hostFill_code (i : Nat) (b : List Byte) (s : State) : (hostFill i b s).code = s.code := rfl
@[simp] theorem hostFill_phase (i : Nat) (b : List Byte) (s : State) : (hostFill i b s).phase = s.phase := rfl
@[simp] theorem hostFill_err (i : Nat) (b : List Byte) (s : State) : (hostFill i b s).err = s.err := rfl
@[simp] theorem hostFill_normCnt (i : Nat) (b : List Byte) (s : State) : (hostFill i b s).normCnt = s.normCnt := rfl
@[simp] theorem hostFill_vbits (i : Nat) (b : List Byte) (s : State) : (hostFill i b s).vbits = s.vbits := rfl
@[simp] theorem hostFill_root (i : Nat) (b : List Byte) (s : State) : (hostFill i b s).root = s.root := rfl
@[simp] theorem hostFill_nleaves (i : Nat) (b : List Byte) (s : State) : (hostFill i b s).nleaves = s.nleaves := rfl
@[simp] theorem hostFill_srcLen (i : Nat) (b : List Byte) (s : State) : (hostFill i b s).srcLen = s.srcLen := rfl
@[simp] theorem hostFill_dstCap (i : Nat) (b : List Byte) (s : State) : (hostFill i b s).dstCap = s.dstCap := rfl
@[simp] theorem hostFill_dstLen (i : Nat) (b : List Byte) (s : State) : (hostFill i b s).dstLen = s.dstLen := rfl
@[simp] theorem hostFill_tblAddr (i : Nat) (b : List Byte) (s : State) : (hostFill i b s).tblAddr = s.tblAddr := rfl
@[simp] theorem hostFill_errInfo (i : Nat) (b : List Byte) (s : State) : (hostFill i b s).errInfo = s.errInfo := rfl
@[simp] theorem hostFill_src (i : Nat) (b : List Byte) (s : State) : (hostFill i b s).src = Memory.writeRun s.src i b := rfl
@[simp] theorem hostFill_dst (i : Nat) (b : List Byte) (s : State) : (hostFill i b s).dst = s.dst := rfl
@[simp] theorem hostFill_dstLost (i : Nat) (b : List Byte) (s : State) : (hostFill i b s).dstLost = s.dstLost := rfl
@[simp] theorem hostFill_pending (i : Nat) (b : List Byte) (s : State) : (hostFill i b s).pending = s.pending := rfl
@[simp] theorem hostFill_busData (i : Nat) (b : List Byte) (s : State) : (hostFill i b s).busData = s.busData := rfl
@[simp] theorem hostFill_draws (i : Nat) (b : List Byte) (s : State) : (hostFill i b s).draws = s.draws := rfl

/-! `hostReadDst`. -/

@[simp] theorem hostReadDst_hist (i : Nat) (s : State) : (hostReadDst i s).hist = s.hist := rfl
@[simp] theorem hostReadDst_nodes (i : Nat) (s : State) : (hostReadDst i s).nodes = s.nodes := rfl
@[simp] theorem hostReadDst_code (i : Nat) (s : State) : (hostReadDst i s).code = s.code := rfl
@[simp] theorem hostReadDst_phase (i : Nat) (s : State) : (hostReadDst i s).phase = s.phase := rfl
@[simp] theorem hostReadDst_err (i : Nat) (s : State) : (hostReadDst i s).err = s.err := rfl
@[simp] theorem hostReadDst_normCnt (i : Nat) (s : State) : (hostReadDst i s).normCnt = s.normCnt := rfl
@[simp] theorem hostReadDst_vbits (i : Nat) (s : State) : (hostReadDst i s).vbits = s.vbits := rfl
@[simp] theorem hostReadDst_root (i : Nat) (s : State) : (hostReadDst i s).root = s.root := rfl
@[simp] theorem hostReadDst_nleaves (i : Nat) (s : State) : (hostReadDst i s).nleaves = s.nleaves := rfl
@[simp] theorem hostReadDst_srcLen (i : Nat) (s : State) : (hostReadDst i s).srcLen = s.srcLen := rfl
@[simp] theorem hostReadDst_dstCap (i : Nat) (s : State) : (hostReadDst i s).dstCap = s.dstCap := rfl
@[simp] theorem hostReadDst_dstLen (i : Nat) (s : State) : (hostReadDst i s).dstLen = s.dstLen := rfl
@[simp] theorem hostReadDst_tblAddr (i : Nat) (s : State) : (hostReadDst i s).tblAddr = s.tblAddr := rfl
@[simp] theorem hostReadDst_errInfo (i : Nat) (s : State) : (hostReadDst i s).errInfo = s.errInfo := rfl
@[simp] theorem hostReadDst_src (i : Nat) (s : State) : (hostReadDst i s).src = s.src := rfl
@[simp] theorem hostReadDst_dst (i : Nat) (s : State) : (hostReadDst i s).dst = s.dst := rfl
@[simp] theorem hostReadDst_dstLost (i : Nat) (s : State) : (hostReadDst i s).dstLost = s.dstLost := rfl
@[simp] theorem hostReadDst_pending (i : Nat) (s : State) : (hostReadDst i s).pending = s.pending := rfl
@[simp] theorem hostReadDst_busData (i : Nat) (s : State) : (hostReadDst i s).busData = (dstByte s i).setWidth 64 := rfl
@[simp] theorem hostReadDst_draws (i : Nat) (s : State) : (hostReadDst i s).draws = s.draws := rfl

/-! The conditional updates of the register writes: what they leave alone. -/


@[simp] theorem regWrite_hist (r : Reg) (v : Word) (s : State) : (regWrite r v s).hist = s.hist := by
  unfold regWrite; split <;> (try split) <;> rfl

@[simp] theorem busWrite_hist (o : Offset) (v : Word) (s : State) : (busWrite o v s).hist = s.hist := by
  unfold busWrite; split
  · rfl
  · exact regWrite_hist _ v s

@[simp] theorem regWrite_nodes (r : Reg) (v : Word) (s : State) : (regWrite r v s).nodes = s.nodes := by
  unfold regWrite; split <;> (try split) <;> rfl

@[simp] theorem busWrite_nodes (o : Offset) (v : Word) (s : State) : (busWrite o v s).nodes = s.nodes := by
  unfold busWrite; split
  · rfl
  · exact regWrite_nodes _ v s

@[simp] theorem regWrite_code (r : Reg) (v : Word) (s : State) : (regWrite r v s).code = s.code := by
  unfold regWrite; split <;> (try split) <;> rfl

@[simp] theorem busWrite_code (o : Offset) (v : Word) (s : State) : (busWrite o v s).code = s.code := by
  unfold busWrite; split
  · rfl
  · exact regWrite_code _ v s

@[simp] theorem regWrite_phase (r : Reg) (v : Word) (s : State) : (regWrite r v s).phase = s.phase := by
  unfold regWrite; split <;> (try split) <;> rfl

@[simp] theorem busWrite_phase (o : Offset) (v : Word) (s : State) : (busWrite o v s).phase = s.phase := by
  unfold busWrite; split
  · rfl
  · exact regWrite_phase _ v s

@[simp] theorem regWrite_err (r : Reg) (v : Word) (s : State) : (regWrite r v s).err = s.err := by
  unfold regWrite; split <;> (try split) <;> rfl

@[simp] theorem busWrite_err (o : Offset) (v : Word) (s : State) : (busWrite o v s).err = s.err := by
  unfold busWrite; split
  · rfl
  · exact regWrite_err _ v s

@[simp] theorem regWrite_normCnt (r : Reg) (v : Word) (s : State) : (regWrite r v s).normCnt = s.normCnt := by
  unfold regWrite; split <;> (try split) <;> rfl

@[simp] theorem busWrite_normCnt (o : Offset) (v : Word) (s : State) : (busWrite o v s).normCnt = s.normCnt := by
  unfold busWrite; split
  · rfl
  · exact regWrite_normCnt _ v s

@[simp] theorem regWrite_vbits (r : Reg) (v : Word) (s : State) : (regWrite r v s).vbits = s.vbits := by
  unfold regWrite; split <;> (try split) <;> rfl

@[simp] theorem busWrite_vbits (o : Offset) (v : Word) (s : State) : (busWrite o v s).vbits = s.vbits := by
  unfold busWrite; split
  · rfl
  · exact regWrite_vbits _ v s

@[simp] theorem regWrite_root (r : Reg) (v : Word) (s : State) : (regWrite r v s).root = s.root := by
  unfold regWrite; split <;> (try split) <;> rfl

@[simp] theorem busWrite_root (o : Offset) (v : Word) (s : State) : (busWrite o v s).root = s.root := by
  unfold busWrite; split
  · rfl
  · exact regWrite_root _ v s

@[simp] theorem regWrite_nleaves (r : Reg) (v : Word) (s : State) : (regWrite r v s).nleaves = s.nleaves := by
  unfold regWrite; split <;> (try split) <;> rfl

@[simp] theorem busWrite_nleaves (o : Offset) (v : Word) (s : State) : (busWrite o v s).nleaves = s.nleaves := by
  unfold busWrite; split
  · rfl
  · exact regWrite_nleaves _ v s

@[simp] theorem regWrite_dstLen (r : Reg) (v : Word) (s : State) : (regWrite r v s).dstLen = s.dstLen := by
  unfold regWrite; split <;> (try split) <;> rfl

@[simp] theorem busWrite_dstLen (o : Offset) (v : Word) (s : State) : (busWrite o v s).dstLen = s.dstLen := by
  unfold busWrite; split
  · rfl
  · exact regWrite_dstLen _ v s

@[simp] theorem regWrite_errInfo (r : Reg) (v : Word) (s : State) : (regWrite r v s).errInfo = s.errInfo := by
  unfold regWrite; split <;> (try split) <;> rfl

@[simp] theorem busWrite_errInfo (o : Offset) (v : Word) (s : State) : (busWrite o v s).errInfo = s.errInfo := by
  unfold busWrite; split
  · rfl
  · exact regWrite_errInfo _ v s

@[simp] theorem regWrite_src (r : Reg) (v : Word) (s : State) : (regWrite r v s).src = s.src := by
  unfold regWrite; split <;> (try split) <;> rfl

@[simp] theorem busWrite_src (o : Offset) (v : Word) (s : State) : (busWrite o v s).src = s.src := by
  unfold busWrite; split
  · rfl
  · exact regWrite_src _ v s

@[simp] theorem regWrite_dst (r : Reg) (v : Word) (s : State) : (regWrite r v s).dst = s.dst := by
  unfold regWrite; split <;> (try split) <;> rfl

@[simp] theorem busWrite_dst (o : Offset) (v : Word) (s : State) : (busWrite o v s).dst = s.dst := by
  unfold busWrite; split
  · rfl
  · exact regWrite_dst _ v s

@[simp] theorem regWrite_dstLost (r : Reg) (v : Word) (s : State) : (regWrite r v s).dstLost = s.dstLost := by
  unfold regWrite; split <;> (try split) <;> rfl

@[simp] theorem busWrite_dstLost (o : Offset) (v : Word) (s : State) : (busWrite o v s).dstLost = s.dstLost := by
  unfold busWrite; split
  · rfl
  · exact regWrite_dstLost _ v s

@[simp] theorem regWrite_pending (r : Reg) (v : Word) (s : State) : (regWrite r v s).pending = s.pending := by
  unfold regWrite; split <;> (try split) <;> rfl

@[simp] theorem busWrite_pending (o : Offset) (v : Word) (s : State) : (busWrite o v s).pending = s.pending := by
  unfold busWrite; split
  · rfl
  · exact regWrite_pending _ v s

@[simp] theorem regWrite_busData (r : Reg) (v : Word) (s : State) : (regWrite r v s).busData = s.busData := by
  unfold regWrite; split <;> (try split) <;> rfl

@[simp] theorem busWrite_busData (o : Offset) (v : Word) (s : State) : (busWrite o v s).busData = s.busData := by
  unfold busWrite; split
  · rfl
  · exact regWrite_busData _ v s

@[simp] theorem regWrite_draws (r : Reg) (v : Word) (s : State) : (regWrite r v s).draws = s.draws := by
  unfold regWrite; split <;> (try split) <;> rfl

@[simp] theorem busWrite_draws (o : Offset) (v : Word) (s : State) : (busWrite o v s).draws = s.draws := by
  unfold busWrite; split
  · rfl
  · exact regWrite_draws _ v s

end Sys2Proof.Machine
end

