-- ==== Sys2Proof/Laws/Memory.lean ====
section
/-! SUPPORT. What the buffer operations do: reading after a store, the canonical form, one pass over a run. -/

namespace Sys2Proof.Machine

@[simp] theorem Memory.read?_nil (a : Nat) : Memory.read? [] a = none := rfl

theorem Memory.read?_cons (c : Host.Cell) (m : Memory) (a : Nat) :
    Memory.read? (c :: m) a = if c.1 = a then some c.2 else Memory.read? m a := rfl

theorem Memory.read?_append (m n : Memory) (a : Nat) :
    Memory.read? (m ++ n) a = (Memory.read? m a).or (Memory.read? n a) := by
  induction m with
  | nil => simp
  | cons c m ih =>
    simp only [List.cons_append, Memory.read?_cons]
    split <;> simp_all

/-- Keeping the cells of some indices keeps what those indices read as, and nothing else. -/
theorem Memory.read?_filter (p : Nat → Bool) (m : Memory) (a : Nat) :
    Memory.read? (m.filter (fun c => p c.1)) a = if p a then Memory.read? m a else none := by
  induction m with
  | nil => simp
  | cons c m ih =>
    by_cases hc : c.1 = a
    · subst hc
      by_cases hp : p c.1 <;> simp_all [Memory.read?_cons]
    · by_cases hp : p c.1 <;> simp_all [Memory.read?_cons]

theorem cellsFrom_read? (bytes : List Byte) (b a : Nat) :
    Memory.read? (cellsFrom b bytes) a = if b ≤ a then bytes[a - b]? else none := by
  induction bytes generalizing b with
  | nil => simp [cellsFrom]
  | cons v bytes ih =>
    rw [cellsFrom, Memory.read?_cons, ih]
    by_cases h : b = a
    · subst h; simp
    · by_cases h2 : b ≤ a
      · have h3 : b + 1 ≤ a := by omega
        obtain ⟨k, hk⟩ : ∃ k, a - b = k + 1 := ⟨a - b - 1, by omega⟩
        have hk' : a - (b + 1) = k := by omega
        simp [h, h2, h3, hk, hk']
      · have h3 : ¬ b + 1 ≤ a := by omega
        simp [h, h2, h3]

/-- A run stored at `b` is read back at its indices, and every other index reads as before. -/
theorem Memory.read?_writeRun (m : Memory) (b : Nat) (bytes : List Byte) (a : Nat) :
    Memory.read? (Memory.writeRun m b bytes) a =
      if b ≤ a ∧ a < b + bytes.length then bytes[a - b]? else Memory.read? m a := by
  unfold Memory.writeRun
  rw [Memory.read?_append, Memory.read?_append, cellsFrom_read?,
    Memory.read?_filter (fun i => decide (i < b)), Memory.read?_filter (fun i => decide (b + bytes.length ≤ i))]
  by_cases h1 : a < b
  · have h2 : ¬ b ≤ a := by omega
    have h3 : ¬ b + bytes.length ≤ a := by omega
    simp [h1, h2, h3]
  · by_cases h3 : b + bytes.length ≤ a
    · have h4 : ¬ a < b + bytes.length := by omega
      have h2 : b ≤ a := by omega
      have h5 : bytes[a - b]? = none := by rw [List.getElem?_eq_none]; omega
      simp [h1, h2, h3, h4, h5]
    · have h2 : b ≤ a := by omega
      have h4 : a < b + bytes.length := by omega
      simp [h1, h2, h3, h4]

theorem Memory.read?_writeRun_outside {m : Memory} {b : Nat} {bytes : List Byte} {a : Nat}
    (h : a < b ∨ b + bytes.length ≤ a) : Memory.read? (Memory.writeRun m b bytes) a = Memory.read? m a := by
  rw [Memory.read?_writeRun, if_neg]; omega

theorem Memory.read?_writeRun_inside {m : Memory} {b : Nat} {bytes : List Byte} {k : Nat} (h : k < bytes.length) :
    Memory.read? (Memory.writeRun m b bytes) (b + k) = some bytes[k] := by
  rw [Memory.read?_writeRun, if_pos (by omega), Nat.add_sub_cancel_left, List.getElem?_eq_getElem h]

/-- A byte inside the forgotten range has no value, every other index reads as before. -/
theorem Memory.read?_forget (m : Memory) (e : Extent) (a : Nat) :
    Memory.read? (Memory.forget m e) a = if e.lo ≤ a ∧ a < e.hi then none else Memory.read? m a := by
  unfold Memory.forget
  rw [Memory.read?_filter (fun i => decide (i < e.lo) || decide (e.hi ≤ i))]
  by_cases h : e.lo ≤ a ∧ a < e.hi
  · rw [if_pos h, if_neg]; simp; omega
  · rw [if_neg h, if_pos]; simp; omega

@[simp] theorem Memory.forget_none (m : Memory) : Memory.forget m Extent.none = m := by
  simp [Memory.forget, Extent.none]

/-! The byte that `DST` holds. -/

theorem unlistedDstByte_loseRange (e : Extent) (draw : Nat) (lost : List Lost) (a : Nat) :
    unlistedDstByte (loseRange e draw lost) a =
      if e.lo ≤ a ∧ a < e.hi then Config.unspecifiedDstByte draw a else unlistedDstByte lost a := by
  unfold loseRange
  split
  · rfl
  · rw [if_neg]; omega

/-- A byte outside what the operation may have written is what it was before the fault (R68, R254). -/
theorem dstByte_enterFault {r : Raised} {own : Extent} {s : State} {a : Nat}
    (h1 : ¬((storedExtent s).lo ≤ a ∧ a < (storedExtent s).hi)) (h2 : ¬(own.lo ≤ a ∧ a < own.hi)) :
    dstByte (enterFault r own s) a = dstByte s a := by
  simp only [dstByte, enterFault_dst, enterFault_dstLost, Memory.read?_forget, unlistedDstByte_loseRange, if_neg h1, if_neg h2]

/-- Where two states list the same byte and have lost the same ranges, `DST` holds the same byte. -/
theorem dstByte_congr {s t : State} {a : Nat} (h : Memory.read? t.dst a = Memory.read? s.dst a)
    (hl : t.dstLost = s.dstLost) : dstByte t a = dstByte s a := by
  rw [dstByte, dstByte, h, hl]

/-- A listed byte is the byte that `DST` holds. -/
theorem dstByte_of_listed {s : State} {a : Nat} {b : Byte} (h : Memory.read? s.dst a = some b) : dstByte s a = b := by
  rw [dstByte, h]; rfl

/-! The canonical form. -/

theorem cellsFrom_bounds {bytes : List Byte} {b : Nat} {c : Host.Cell} (h : c ∈ cellsFrom b bytes) :
    b ≤ c.1 ∧ c.1 < b + bytes.length := by
  induction bytes generalizing b with
  | nil => simp [cellsFrom] at h
  | cons v bytes ih =>
    rw [cellsFrom, List.mem_cons] at h
    rcases h with rfl | h
    · simp
    · have := ih h; simp; omega

theorem cellsFrom_wf (bytes : List Byte) (b : Nat) : Memory.wf (cellsFrom b bytes) := by
  induction bytes generalizing b with
  | nil => simp [cellsFrom, Memory.wf]
  | cons v bytes ih =>
    rw [cellsFrom, Memory.wf, List.pairwise_cons]
    exact ⟨fun c hc => by have := cellsFrom_bounds hc; simp; omega, ih _⟩

theorem Memory.wf_nil : Memory.wf [] := List.Pairwise.nil

/-- A store keeps the canonical form. -/
theorem Memory.writeRun_wf {m : Memory} (h : Memory.wf m) (b : Nat) (bytes : List Byte) :
    Memory.wf (Memory.writeRun m b bytes) := by
  unfold Memory.writeRun Memory.wf
  rw [List.pairwise_append, List.pairwise_append]
  refine ⟨⟨List.Pairwise.filter _ h, cellsFrom_wf bytes b, ?_⟩, List.Pairwise.filter _ h, ?_⟩
  · intro c hc d hd
    have h1 := (List.mem_filter.mp hc).2
    have h2 := cellsFrom_bounds hd
    simp at h1; omega
  · intro c hc d hd
    have h2 := (List.mem_filter.mp hd).2
    simp at h2
    rcases List.mem_append.mp hc with hc | hc
    · have h1 := (List.mem_filter.mp hc).2
      simp at h1; omega
    · have h1 := cellsFrom_bounds hc; omega

/-- Forgetting keeps the canonical form. -/
theorem Memory.forget_wf {m : Memory} (h : Memory.wf m) (e : Extent) : Memory.wf (Memory.forget m e) :=
  List.Pairwise.filter _ h

/-! One pass over a run. -/

theorem Memory.read?_eq_none_of_lt {m : Memory} {a : Nat} (h : ∀ c ∈ m, a < c.1) : Memory.read? m a = none := by
  induction m with
  | nil => rfl
  | cons c m ih =>
    have h1 := h c (List.mem_cons_self ..)
    rw [Memory.read?_cons, if_neg (by omega)]
    exact ih fun d hd => h d (List.mem_cons_of_mem _ hd)

theorem Memory.read?_dropWhile {m : Memory} (_hm : Memory.wf m) {a b : Nat} (hb : a ≤ b) :
    Memory.read? (m.dropWhile (fun c => decide (c.1 < a))) b = Memory.read? m b := by
  induction m with
  | nil => rfl
  | cons c m ih =>
    rw [List.dropWhile_cons]
    split
    · next h =>
      simp at h
      rw [ih (List.pairwise_cons.mp _hm).2, Memory.read?_cons, if_neg (by omega)]
    · rfl

@[simp] theorem Memory.readRun_length (u : Nat → Byte) (a n : Nat) (m : Memory) :
    (Memory.readRun u a n m).length = n := by
  induction n generalizing a m with
  | zero => rfl
  | succ n ih =>
    rw [Memory.readRun]
    split
    · simp [ih]
    · split <;> simp [ih]

/-- The run is, byte for byte, what the single reads give (R67). -/
theorem Memory.readRun_eq {m : Memory} (hm : Memory.wf m) (u : Nat → Byte) (a n : Nat) :
    Memory.readRun u a n m = (List.range' a n).map (fun i => (Memory.read? m i).getD (u i)) := by
  induction n generalizing a m with
  | zero => rfl
  | succ n ih =>
    rw [Memory.readRun, List.range'_succ, List.map_cons]
    have hd : ∀ b, a ≤ b → Memory.read? (m.dropWhile (fun c => decide (c.1 < a))) b = Memory.read? m b :=
      fun b hb => Memory.read?_dropWhile hm hb
    have hw : Memory.wf (m.dropWhile (fun c => decide (c.1 < a))) :=
      List.Pairwise.sublist (List.dropWhile_sublist _) hm
    have hge : ∀ c, (m.dropWhile (fun c => decide (c.1 < a))).head? = some c → a ≤ c.1 := by
      intro c hc
      have := List.head?_dropWhile_not (fun c : Host.Cell => decide (c.1 < a)) m
      rw [hc] at this; simpa using this
    have tail : ∀ m' : Memory, Memory.wf m' → (∀ b, a + 1 ≤ b → Memory.read? m' b = Memory.read? m b) →
        Memory.readRun u (a + 1) n m' = (List.range' (a + 1) n).map (fun i => (Memory.read? m i).getD (u i)) := by
      intro m' hm' heq
      rw [ih hm']
      apply List.map_congr_left
      intro i hi
      rw [heq i (by have := List.mem_range'_1.mp hi; omega)]
    split
    · next h =>
      rw [← hd a (Nat.le_refl a), h]
      rw [tail [] Memory.wf_nil (fun b hb => by rw [← hd b (by omega), h])]
      rfl
    · next c rest h =>
      have hwc : Memory.wf (c :: rest) := by rw [← h]; exact hw
      have hca : a ≤ c.1 := hge c (by rw [h]; rfl)
      split
      · next hc =>
        rw [← hd a (Nat.le_refl a), h, Memory.read?_cons, if_pos hc]
        rw [tail rest (List.pairwise_cons.mp hwc).2 (fun b hb => by
          rw [← hd b (by omega), h, Memory.read?_cons, if_neg (by omega)])]
        rfl
      · next hc =>
        have hn : Memory.read? m a = none := by
          rw [← hd a (Nat.le_refl a), h]
          apply Memory.read?_eq_none_of_lt
          intro d hd'
          rcases List.mem_cons.mp hd' with rfl | hd'
          · omega
          · have := (List.pairwise_cons.mp hwc).1 d hd'; omega
        rw [hn, tail (c :: rest) hwc (fun b hb => by rw [← hd b (by omega), h])]
        rfl

@[simp] theorem srcRun_length (s : State) (a n : Nat) : (srcRun s a n).length = n := Memory.readRun_length ..

@[simp] theorem srcBytes_length (s : State) : (srcBytes s).length = s.srcLen.toNat := srcRun_length ..

/-- A run of `SRC` is, byte for byte, what the single reads give (R61, R67). -/
theorem srcRun_eq {s : State} (hs : Memory.wf s.src) (a n : Nat) :
    srcRun s a n = (List.range' a n).map (srcByte s) := Memory.readRun_eq hs _ a n

/-- A run of a run: the `n` bytes from `a` on are a slice of the whole buffer. -/
theorem srcRun_eq_slice {s : State} (hs : Memory.wf s.src) {a n : Nat} (h : a + n ≤ s.srcLen.toNat) :
    srcRun s a n = ((srcBytes s).drop a).take n := by
  unfold srcBytes
  rw [srcRun_eq hs, srcRun_eq hs, ← List.map_drop, ← List.map_take]
  congr 1
  apply List.ext_getElem <;> simp
  omega

end Sys2Proof.Machine
end

