-- ==== Sys2Proof/Laws/Dispatch.lean ====
section
/-! SUPPORT. What a command can do: the phase check, and one inversion lemma for `exec` and one for `submit`. -/

namespace Sys2Proof.Machine

theorem inPhase_fault {i : Instr} {s : State} {body : Host.Outcome State Fault Refusal} (h : s.phase = .fault) :
    inPhase i s body = .next s := by rw [inPhase, if_pos h]

theorem inPhase_legal {i : Instr} {s : State} {body : Host.Outcome State Fault Refusal} (h : s.phase ≠ .fault)
    (hl : legalIn i s.phase = true) : inPhase i s body = body := by rw [inPhase, if_neg h, if_pos hl]

theorem inPhase_illegal {i : Instr} {s : State} {body : Host.Outcome State Fault Refusal} (h : s.phase ≠ .fault)
    (hl : legalIn i s.phase = false) :
    inPhase i s body = .next (enterFault { kind := .sequence, info := sequenceInfo i s.phase } Extent.none s) := by
  rw [inPhase, if_neg h, if_neg (by simp [hl])]; rfl

/-- The three ways past the phase check. -/
theorem inPhase_cases {i : Instr} {s t : State} {body : Host.Outcome State Fault Refusal}
    (h : inPhase i s body = .next t) :
    (s.phase = .fault ∧ t = s) ∨
    (s.phase ≠ .fault ∧ legalIn i s.phase = true ∧ body = .next t) ∨
    (s.phase ≠ .fault ∧ legalIn i s.phase = false ∧
      t = enterFault { kind := .sequence, info := sequenceInfo i s.phase } Extent.none s) := by
  by_cases hf : s.phase = .fault
  · rw [inPhase_fault hf] at h; cases h; exact .inl ⟨hf, rfl⟩
  · cases hl : legalIn i s.phase
    · rw [inPhase_illegal hf hl] at h; cases h; exact .inr (.inr ⟨hf, rfl, rfl⟩)
    · rw [inPhase_legal hf hl] at h; exact .inr (.inl ⟨hf, rfl, h⟩)

/-- In phase `FAULT` every command but `CLR` is ignored (R228, R249). -/
theorem exec_fault {i : Instr} {s : State} (hi : i ≠ .clr) (hf : s.phase = .fault) : exec i s = .next s := by
  cases i <;> first | exact inPhase_fault hf | exact absurd rfl hi

/-! Each command in its own phase. -/

theorem exec_cnt {s : State} (hp : s.phase = .idle) : exec .cnt s = .next (withCounts s) :=
  inPhase_legal (by rw [hp]; decide) (by rw [hp]; rfl)

theorem exec_norm {s : State} (hp : s.phase = .counted) : exec .norm s = .next (withNormal s) :=
  inPhase_legal (by rw [hp]; decide) (by rw [hp]; rfl)

theorem exec_build {s : State} (hp : s.phase = .normed ∨ s.phase = .parsed) (hc : 2 ≤ countNonzero s.hist) :
    exec .build s = .next (withTree s (if s.phase = .normed then .builtE else .builtD)) := by
  show inPhase .build s _ = _
  rw [inPhase_legal, if_neg (Nat.not_lt.mpr hc)]
  · rcases hp with h | h <;> rw [h] <;> decide
  · rcases hp with h | h <;> rw [h] <;> rfl

theorem exec_build_degenerate {s : State} (hp : s.phase = .normed ∨ s.phase = .parsed) (hc : countNonzero s.hist < 2) :
    exec .build s = .next
      (enterFault { kind := .degenerateHistogram, info := BitVec.ofNat 64 (countNonzero s.hist) } Extent.none s) := by
  show inPhase .build s _ = _
  rw [inPhase_legal, if_pos hc]
  · rfl
  · rcases hp with h | h <;> rw [h] <;> decide
  · rcases hp with h | h <;> rw [h] <;> rfl

theorem exec_derive {s : State} (hp : s.phase = .builtE) {code : CodeTable}
    (hd : deriveTable s.nodes s.root = some code) : exec .derive s = .next (withCode code s) := by
  have h : exec .derive s = _ := inPhase_legal (by rw [hp]; decide) (by rw [hp]; rfl)
  rw [h, hd]

theorem exec_pack_ok {s : State} (hp : s.phase = .coded) {payload : List Byte} {nb : Nat}
    (h : packAll s.code s.dstCap.toNat (srcBytes s) = .ok (payload, nb)) :
    exec .pack s = .next (withPayload payload nb s) := by
  have he : exec .pack s = _ := inPhase_legal (by rw [hp]; decide) (by rw [hp]; rfl)
  rw [he, h]

theorem exec_pack_error {s : State} (hp : s.phase = .coded) {r : Raised}
    (h : packAll s.code s.dstCap.toNat (srcBytes s) = .error r) :
    exec .pack s = .next (enterFault r (packExtent s) s) := by
  have he : exec .pack s = _ := inPhase_legal (by rw [hp]; decide) (by rw [hp]; rfl)
  rw [he, h]; rfl

theorem exec_wrhdr {s : State} (hp : s.phase = .packed) (hc : countTooLarge s.hist = none)
    (hd : Config.hdrBytes ≤ s.dstCap.toNat) : exec .wrhdr s = .next (withHeader s) := by
  have he : exec .wrhdr s = _ := inPhase_legal (by rw [hp]; decide) (by rw [hp]; rfl)
  rw [he, hc]; exact if_neg (Nat.not_lt.mpr hd)

theorem exec_wrhdr_countRange {s : State} (hp : s.phase = .packed) {v : Byte} (hc : countTooLarge s.hist = some v) :
    exec .wrhdr s = .next (enterFault { kind := .countRange, info := v.setWidth 64 } Extent.none s) := by
  have he : exec .wrhdr s = _ := inPhase_legal (by rw [hp]; decide) (by rw [hp]; rfl)
  rw [he, hc]; rfl

theorem exec_wrhdr_dstOverflow {s : State} (hp : s.phase = .packed) (hc : countTooLarge s.hist = none)
    (hd : s.dstCap.toNat < Config.hdrBytes) :
    exec .wrhdr s = .next (enterFault { kind := .dstOverflow, info := s.dstCap } (headerExtent s) s) := by
  have he : exec .wrhdr s = _ := inPhase_legal (by rw [hp]; decide) (by rw [hp]; rfl)
  rw [he, hc]; exact if_pos hd

theorem exec_parse {s : State} (hp : s.phase = .idle) (h1 : Config.hdrBytes ≤ s.srcLen.toNat)
    (h2 : ceil8 (vbitsOfFields (headerFields s)).toNat ≤ s.srcLen.toNat - Config.payloadOff) :
    exec .parse s = .next (withParsed s) := by
  have he : exec .parse s = _ := inPhase_legal (by rw [hp]; decide) (by rw [hp]; rfl)
  rw [he, if_neg (Nat.not_lt.mpr h1), if_neg (Nat.not_lt.mpr h2)]

theorem exec_parse_shortHeader {s : State} (hp : s.phase = .idle) (h1 : s.srcLen.toNat < Config.hdrBytes) :
    exec .parse s = .next (enterFault (truncatedAt Config.hdrBytes) Extent.none s) := by
  have he : exec .parse s = _ := inPhase_legal (by rw [hp]; decide) (by rw [hp]; rfl)
  rw [he, if_pos h1]; rfl

theorem exec_parse_shortPayload {s : State} (hp : s.phase = .idle) (h1 : Config.hdrBytes ≤ s.srcLen.toNat)
    (h2 : s.srcLen.toNat - Config.payloadOff < ceil8 (vbitsOfFields (headerFields s)).toNat) :
    exec .parse s = .next (enterFault
      (truncatedAt (Config.payloadOff + ceil8 (vbitsOfFields (headerFields s)).toNat)) Extent.none s) := by
  have he : exec .parse s = _ := inPhase_legal (by rw [hp]; decide) (by rw [hp]; rfl)
  rw [he, if_neg (Nat.not_lt.mpr h1), if_pos h2]; rfl

theorem exec_unpack_ok {s : State} (hp : s.phase = .builtD) {out : List Byte} (h : unpackAll s = .ok out) :
    exec .unpack s = .next (withOutput out s) := by
  have he : exec .unpack s = _ := inPhase_legal (by rw [hp]; decide) (by rw [hp]; rfl)
  rw [he, h]

theorem exec_unpack_error {s : State} (hp : s.phase = .builtD) {r : Raised} (h : unpackAll s = .error r) :
    exec .unpack s = .next (enterFault r (unpackExtent s) s) := by
  have he : exec .unpack s = _ := inPhase_legal (by rw [hp]; decide) (by rw [hp]; rfl)
  rw [he, h]; rfl

/-- Every next state a command can lead to, with what the command checked on the way. -/
inductive Effect (s : State) : Instr → State → Prop where
  | cleared : Effect s .clr (clear s)
  | ignored {i : Instr} : i ≠ .clr → s.phase = .fault → Effect s i s
  | outOfSequence {i : Instr} : s.phase ≠ .fault → legalIn i s.phase = false →
      Effect s i (enterFault { kind := .sequence, info := sequenceInfo i s.phase } Extent.none s)
  | counted : s.phase = .idle → Effect s .cnt (withCounts s)
  | normed : s.phase = .counted → Effect s .norm (withNormal s)
  | degenerate : s.phase = .normed ∨ s.phase = .parsed → countNonzero s.hist < 2 →
      Effect s .build
        (enterFault { kind := .degenerateHistogram, info := BitVec.ofNat 64 (countNonzero s.hist) } Extent.none s)
  | builtE : s.phase = .normed → 2 ≤ countNonzero s.hist → Effect s .build (withTree s .builtE)
  | builtD : s.phase = .parsed → 2 ≤ countNonzero s.hist → Effect s .build (withTree s .builtD)
  | derived {code : CodeTable} : s.phase = .builtE → deriveTable s.nodes s.root = some code →
      Effect s .derive (withCode code s)
  | packFault {r : Raised} : s.phase = .coded → packAll s.code s.dstCap.toNat (srcBytes s) = .error r →
      Effect s .pack (enterFault r (packExtent s) s)
  | packed {payload : List Byte} {nb : Nat} : s.phase = .coded →
      packAll s.code s.dstCap.toNat (srcBytes s) = .ok (payload, nb) → Effect s .pack (withPayload payload nb s)
  | countRange {v : Byte} : s.phase = .packed → countTooLarge s.hist = some v →
      Effect s .wrhdr (enterFault { kind := .countRange, info := v.setWidth 64 } Extent.none s)
  | headerOverflow : s.phase = .packed → countTooLarge s.hist = none → s.dstCap.toNat < Config.hdrBytes →
      Effect s .wrhdr (enterFault { kind := .dstOverflow, info := s.dstCap } (headerExtent s) s)
  | headerWritten : s.phase = .packed → countTooLarge s.hist = none → Config.hdrBytes ≤ s.dstCap.toNat →
      Effect s .wrhdr (withHeader s)
  | shortHeader : s.phase = .idle → s.srcLen.toNat < Config.hdrBytes →
      Effect s .parse (enterFault (truncatedAt Config.hdrBytes) Extent.none s)
  | shortPayload : s.phase = .idle → Config.hdrBytes ≤ s.srcLen.toNat →
      s.srcLen.toNat - Config.payloadOff < ceil8 (vbitsOfFields (headerFields s)).toNat →
      Effect s .parse
        (enterFault (truncatedAt (Config.payloadOff + ceil8 (vbitsOfFields (headerFields s)).toNat)) Extent.none s)
  | parsed : s.phase = .idle → Config.hdrBytes ≤ s.srcLen.toNat →
      ceil8 (vbitsOfFields (headerFields s)).toNat ≤ s.srcLen.toNat - Config.payloadOff →
      Effect s .parse (withParsed s)
  | unpackFault {r : Raised} : s.phase = .builtD → unpackAll s = .error r →
      Effect s .unpack (enterFault r (unpackExtent s) s)
  | unpacked {out : List Byte} : s.phase = .builtD → unpackAll s = .ok out → Effect s .unpack (withOutput out s)

/-- What `exec` can answer as a next state. -/
theorem exec_effect {i : Instr} {s t : State} (h : exec i s = .next t) : Effect s i t := by
  cases i with
  | clr => cases h; exact .cleared
  | cnt =>
    rcases inPhase_cases h with ⟨hf, rfl⟩ | ⟨_, hl, hb⟩ | ⟨hf, hl, rfl⟩
    · exact .ignored (by decide) hf
    · cases hb; exact .counted (by simpa [legalIn] using hl)
    · exact .outOfSequence hf hl
  | norm =>
    rcases inPhase_cases h with ⟨hf, rfl⟩ | ⟨_, hl, hb⟩ | ⟨hf, hl, rfl⟩
    · exact .ignored (by decide) hf
    · cases hb; exact .normed (by simpa [legalIn] using hl)
    · exact .outOfSequence hf hl
  | build =>
    rcases inPhase_cases h with ⟨hf, rfl⟩ | ⟨_, hl, hb⟩ | ⟨hf, hl, rfl⟩
    · exact .ignored (by decide) hf
    · have hp : s.phase = .normed ∨ s.phase = .parsed := by simpa [legalIn] using hl
      split at hb
      · next hc => cases hb; exact .degenerate hp hc
      · next hc =>
        cases hb
        rcases hp with hp | hp
        · simp only [hp, if_true]; exact .builtE hp (by omega)
        · simp only [hp, reduceCtorEq, if_false]; exact .builtD hp (by omega)
    · exact .outOfSequence hf hl
  | derive =>
    rcases inPhase_cases h with ⟨hf, rfl⟩ | ⟨_, hl, hb⟩ | ⟨hf, hl, rfl⟩
    · exact .ignored (by decide) hf
    · split at hb
      · cases hb
      · next hc => cases hb; exact .derived (by simpa [legalIn] using hl) hc
    · exact .outOfSequence hf hl
  | pack =>
    rcases inPhase_cases h with ⟨hf, rfl⟩ | ⟨_, hl, hb⟩ | ⟨hf, hl, rfl⟩
    · exact .ignored (by decide) hf
    · have hp : s.phase = .coded := by simpa [legalIn] using hl
      split at hb
      · next hc => cases hb; exact .packFault hp hc
      · next hc => cases hb; exact .packed hp hc
    · exact .outOfSequence hf hl
  | wrhdr =>
    rcases inPhase_cases h with ⟨hf, rfl⟩ | ⟨_, hl, hb⟩ | ⟨hf, hl, rfl⟩
    · exact .ignored (by decide) hf
    · have hp : s.phase = .packed := by simpa [legalIn] using hl
      split at hb
      · next hc => cases hb; exact .countRange hp hc
      · next hc =>
        split at hb
        · next hd => cases hb; exact .headerOverflow hp hc hd
        · next hd => cases hb; exact .headerWritten hp hc (by omega)
    · exact .outOfSequence hf hl
  | parse =>
    rcases inPhase_cases h with ⟨hf, rfl⟩ | ⟨_, hl, hb⟩ | ⟨hf, hl, rfl⟩
    · exact .ignored (by decide) hf
    · have hp : s.phase = .idle := by simpa [legalIn] using hl
      split at hb
      · next hc => cases hb; exact .shortHeader hp hc
      · next hc =>
        split at hb
        · next hd => cases hb; exact .shortPayload hp (Nat.le_of_not_lt hc) hd
        · next hd => obtain rfl := Host.Outcome.next.inj hb; exact .parsed hp (Nat.le_of_not_lt hc) (Nat.le_of_not_lt hd)
    · exact .outOfSequence hf hl
  | unpack =>
    rcases inPhase_cases h with ⟨hf, rfl⟩ | ⟨_, hl, hb⟩ | ⟨hf, hl, rfl⟩
    · exact .ignored (by decide) hf
    · have hp : s.phase = .builtD := by simpa [legalIn] using hl
      split at hb
      · next hc => cases hb; exact .unpackFault hp hc
      · next hc => cases hb; exact .unpacked hp hc
    · exact .outOfSequence hf hl

/-- The one way a command ends without a next state: `DERIVE` on a tree that is not well formed. -/
theorem exec_stops {i : Instr} {s : State} (h : ∀ t, exec i s ≠ .next t) :
    i = .derive ∧ s.phase = .builtE ∧ deriveTable s.nodes s.root = none ∧ exec i s = .fault .malformedTree := by
  have key : ∀ (j : Instr) (body : Host.Outcome State Fault Refusal), (∀ t, inPhase j s body ≠ .next t) →
      legalIn j s.phase = true ∧ inPhase j s body = body ∧ ∀ t, body ≠ .next t := by
    intro j body hn
    by_cases hf : s.phase = .fault
    · exact absurd (inPhase_fault hf) (hn s)
    · cases hl : legalIn j s.phase
      · exact absurd (inPhase_illegal hf hl) (hn _)
      · exact ⟨rfl, inPhase_legal hf hl, fun t ht => hn t (by rw [inPhase_legal hf hl, ht])⟩
  cases i with
  | clr => exact absurd rfl (h (clear s))
  | cnt => exact absurd rfl ((key .cnt _ h).2.2 _)
  | norm => exact absurd rfl ((key .norm _ h).2.2 _)
  | build => have := (key .build _ h).2.2; split at this <;> exact absurd rfl (this _)
  | derive =>
    obtain ⟨hl, he, hn⟩ := key .derive _ h
    refine ⟨rfl, by simpa [legalIn] using hl, ?_⟩
    have he' : exec .derive s = _ := he
    split at hn
    · next hd => exact ⟨hd, by rw [he', hd]⟩
    · exact absurd rfl (hn _)
  | pack => have := (key .pack _ h).2.2; split at this <;> exact absurd rfl (this _)
  | wrhdr =>
    have := (key .wrhdr _ h).2.2
    split at this
    · exact absurd rfl (this _)
    · split at this <;> exact absurd rfl (this _)
  | parse =>
    have := (key .parse _ h).2.2
    split at this
    · exact absurd rfl (this _)
    · split at this <;> exact absurd rfl (this _)
  | unpack => have := (key .unpack _ h).2.2; split at this <;> exact absurd rfl (this _)

/-- What a write of `CMD` can answer as a next state. -/
theorem submit_cases {w : Word} {s t : State} (h : submit w s = .next t) :
    (∃ i, decode w = .ok i ∧ Effect s i t) ∨
    (∃ k, decode w = .error k ∧
      ((s.phase = .fault ∧ t = s) ∨
       (s.phase ≠ .fault ∧ t = enterFault { kind := .illegalCommand, info := w } Extent.none s))) := by
  unfold submit at h
  split at h
  · next i hd => exact .inl ⟨i, hd, exec_effect h⟩
  · next k hd =>
    refine .inr ⟨k, hd, ?_⟩
    unfold submitIllegal at h
    split at h
    · next hf => cases h; exact .inl ⟨hf, rfl⟩
    · next hf => cases h; exact .inr ⟨hf, rfl⟩

/-- What a step can answer as a next state: nothing pending and nothing done, or one move of the host. -/
theorem step_cases {s t : State} (h : step s = .next t) :
    (s.pending = [] ∧ t = s) ∨
    ∃ op rest, s.pending = op :: rest ∧ hostMove op { s with pending := rest } = .next t := by
  unfold step at h
  split at h
  · next hp => cases h; exact .inl ⟨hp, rfl⟩
  · next op rest hp => exact .inr ⟨op, rest, hp, h⟩

/-- What one move of the host can answer as a next state. -/
theorem hostMove_cases {op : HostOp} {s t : State} (h : hostMove op s = .next t) :
    (∃ o v, op = .write o v ∧ Offset.aligned o = true ∧ regAt o = some .cmd ∧ submit v s = .next t) ∨
    (∃ o v, op = .write o v ∧ Offset.aligned o = true ∧ regAt o ≠ some .cmd ∧ t = busWrite o v s) ∨
    (∃ o, op = .read o ∧ Offset.aligned o = true ∧ t = busRead o s) ∨
    (∃ i bytes, op = .fillSrc i bytes ∧ i + bytes.length ≤ 2 ^ 64 ∧ t = hostFill i bytes s) ∨
    (∃ i, op = .readDst i ∧ i < 2 ^ 64 ∧ dstReadable s.phase = true ∧ t = hostReadDst i s) := by
  cases op with
  | write o v =>
    simp only [hostMove] at h
    split at h
    · next ha =>
      split at h
      · next hr => exact .inl ⟨o, v, rfl, ha, hr, h⟩
      · next hr => cases h; exact .inr (.inl ⟨o, v, rfl, ha, hr, rfl⟩)
    · cases h
  | read o =>
    simp only [hostMove] at h
    split at h
    · next ha => cases h; exact .inr (.inr (.inl ⟨o, rfl, ha, rfl⟩))
    · cases h
  | fillSrc i bytes =>
    simp only [hostMove] at h
    split at h
    · next hw => cases h; exact .inr (.inr (.inr (.inl ⟨i, bytes, rfl, by simpa [HostOp.wf] using hw, rfl⟩)))
    · cases h
  | readDst i =>
    simp only [hostMove] at h
    split at h
    · next hw =>
      split at h
      · next hr => cases h; exact .inr (.inr (.inr (.inr ⟨i, rfl, by simpa [HostOp.wf] using hw, hr, rfl⟩)))
      · cases h
    · cases h

end Sys2Proof.Machine
end

