-- ==== Sys2Proof/Laws/Histogram.lean ====
section
/-! SUPPORT. The table `HIST`: its entries in order, counting bytes, and the passes of the normalizer. -/

namespace Sys2Proof.Machine

theorem allBytes_length : allBytes.length = 256 := by simp [allBytes]

theorem allBytes_getElem (k : Nat) (h : k < allBytes.length) : allBytes[k] = BitVec.ofNat 8 k := by
  simp [allBytes]

theorem mem_allBytes (v : Byte) : v ∈ allBytes := by
  rw [allBytes, List.mem_map]
  exact ⟨v.toNat, List.mem_range.mpr v.isLt, by simp⟩

theorem allBytes_sorted : allBytes.Pairwise (fun v w => v.toNat < w.toNat) := by
  rw [allBytes, List.pairwise_map]
  refine List.Pairwise.imp_of_mem ?_ List.pairwise_lt_range
  intro a b ha hb hab
  have h1 := List.mem_range.mp ha
  have h2 := List.mem_range.mp hb
  simp; omega

theorem allBytes_nodup : allBytes.Nodup :=
  allBytes_sorted.imp (fun {a b} h => by rintro rfl; omega)

/-- Two histograms, or two code tables, with the same entries are the same. -/
theorem table_ext {α : Type} {g h : Vector α 256} (H : ∀ v : Byte, g[v.toNat] = h[v.toNat]) : g = h := by
  apply Vector.ext
  intro i hi
  have := H (BitVec.ofNat 8 i)
  simpa [Nat.mod_eq_of_lt hi] using this

/-- The entries, written by byte value. -/
theorem entries_eq (h : Hist) : entries h = allBytes.map (fun v => (v, h[v.toNat])) := by
  apply List.ext_getElem
  · simp [entries, allBytes_length]
  · intro k h1 h2
    have hk : k < 256 := by simpa [allBytes_length] using h2
    simp [entries, allBytes_getElem, Nat.mod_eq_of_lt hk]

theorem toList_eq_map {α : Type} (h : Vector α 256) : h.toList = allBytes.map (fun v => h[v.toNat]) := by
  apply List.ext_getElem
  · simp [allBytes_length]
  · intro k h1 h2
    have hk : k < 256 := by simpa [allBytes_length] using h2
    simp [allBytes_getElem, Nat.mod_eq_of_lt hk]

theorem nonzeroEntries_eq (h : Hist) :
    nonzeroEntries h = (nonzeroBytes h).map (fun v => (v, h[v.toNat])) := by
  unfold nonzeroBytes nonzeroEntries
  rw [entries_eq, List.filter_map, List.map_map, List.map_map]
  apply List.map_congr_left
  intro v _
  rfl

/-- The nonzero byte values are the byte values whose count is not 0, in ascending order. -/
theorem nonzeroBytes_eq (h : Hist) : nonzeroBytes h = allBytes.filter (fun v => h[v.toNat] != 0) := by
  unfold nonzeroBytes nonzeroEntries
  rw [entries_eq, List.filter_map, List.map_map]
  simp [Function.comp_def]

theorem mem_nonzeroBytes {h : Hist} {v : Byte} : v ∈ nonzeroBytes h ↔ h[v.toNat] ≠ 0 := by
  rw [nonzeroBytes_eq, List.mem_filter]
  simp [mem_allBytes]

theorem nonzeroBytes_sorted (h : Hist) : (nonzeroBytes h).Pairwise (fun v w => v.toNat < w.toNat) := by
  rw [nonzeroBytes_eq]; exact allBytes_sorted.filter _

theorem nonzeroBytes_nodup (h : Hist) : (nonzeroBytes h).Nodup := by
  rw [nonzeroBytes_eq]; exact allBytes_nodup.filter _

theorem countNonzero_eq (h : Hist) : countNonzero h = (nonzeroEntries h).length := by
  simp [countNonzero, nonzeroBytes]

theorem countNonzero_le (h : Hist) : countNonzero h ≤ 256 := by
  rw [countNonzero, nonzeroBytes_eq]
  exact Nat.le_trans (List.length_filter_le _ _) (by rw [allBytes_length])

@[simp] theorem emptyHist_getElem (v : Byte) : emptyHist[v.toNat] = 0 := by simp [emptyHist]

@[simp] theorem emptyCode_getElem (v : Byte) : emptyCode[v.toNat] = [] := by simp [emptyCode]

theorem nonzeroBytes_emptyHist : nonzeroBytes emptyHist = [] := by
  rw [List.eq_nil_iff_forall_not_mem]
  intro v; simp [mem_nonzeroBytes]

/-! Counting. -/

theorem toNat_inj8 {v w : Byte} : v.toNat = w.toNat ↔ v = w := BitVec.toNat_inj

theorem bump_getElem (h : Hist) (v w : Byte) :
    (bump h v)[w.toNat] = if v = w then h[w.toNat] + 1 else h[w.toNat] := by
  unfold bump
  rw [Vector.getElem_set]
  by_cases e : v = w
  · subst e; simp
  · rw [if_neg (by rwa [toNat_inj8]), if_neg e]

theorem occurrences_cons (v b : Byte) (bytes : List Byte) :
    occurrences v (b :: bytes) = occurrences v bytes + if b = v then 1 else 0 := by
  by_cases e : b = v <;> simp [occurrences, e]

theorem occurrences_le (v : Byte) (bytes : List Byte) : occurrences v bytes ≤ bytes.length :=
  List.length_filter_le _ _

/-- Counting adds to each count the number of occurrences of its byte value. -/
theorem countBytes_getElem (bytes : List Byte) (h : Hist) (v : Byte) :
    (countBytes bytes h)[v.toNat] = h[v.toNat] + BitVec.ofNat 64 (occurrences v bytes) := by
  induction bytes generalizing h with
  | nil => simp [countBytes, occurrences]
  | cons b bytes ih =>
    have : countBytes (b :: bytes) h = countBytes bytes (bump h b) := rfl
    rw [this, ih, bump_getElem, occurrences_cons]
    by_cases e : b = v
    · simp only [e, if_true, BitVec.ofNat_add]
      ac_rfl
    · simp [e]

/-- From an empty histogram, on a buffer whose length fits 64 bits, no count wraps (R122). -/
theorem countBytes_toNat {bytes : List Byte} (hl : bytes.length < 2 ^ 64) (v : Byte) :
    (countBytes bytes emptyHist)[v.toNat].toNat = occurrences v bytes := by
  have := occurrences_le v bytes
  rw [countBytes_getElem]
  simp; omega

theorem sum_occurrences (bytes : List Byte) : (allBytes.map (fun v => occurrences v bytes)).sum = bytes.length := by
  induction bytes with
  | nil => simp [occurrences]
  | cons b bytes ih =>
    have h1 : (allBytes.map (fun v => occurrences v (b :: bytes))).sum =
        (allBytes.map (fun v => occurrences v bytes)).sum + (allBytes.map (fun v => if b = v then 1 else 0)).sum := by
      simp only [occurrences_cons]
      exact List.sum_map_add
    have h2 : (allBytes.map (fun v => if b = v then 1 else 0)).sum = allBytes.count b := by
      rw [List.count_eq_countP, List.countP_eq_length_filter]
      induction allBytes with
      | nil => rfl
      | cons x xs ihx =>
        rw [List.map_cons, List.sum_cons, ihx, List.filter_cons]
        by_cases e : b = x
        · subst e; simp; omega
        · have e' : ¬ x = b := fun q => e q.symm
          simp [e, e']
    rw [h1, h2, ih, List.count_eq_one_of_mem allBytes_nodup (mem_allBytes b)]
    simp

theorem histTotal_eq (h : Hist) : histTotal h = (allBytes.map (fun v => h[v.toNat].toNat)).sum := by
  rw [histTotal, toList_eq_map, List.map_map]; rfl

/-- The counts of a buffer sum to its length (R121). -/
theorem histTotal_countBytes {bytes : List Byte} (hl : bytes.length < 2 ^ 64) :
    histTotal (countBytes bytes emptyHist) = bytes.length := by
  have he : allBytes.map (fun v => (countBytes bytes emptyHist)[v.toNat].toNat) =
      allBytes.map (fun v => occurrences v bytes) := List.map_congr_left fun v _ => countBytes_toNat hl v
  rw [histTotal_eq, he, sum_occurrences]

/-! Bumping one entry. -/

theorem sum_map_update {l : List Byte} (hn : l.Nodup) {t : Byte} (ht : t ∈ l) (f g : Byte → Nat) {d : Nat}
    (hf : ∀ v, v ≠ t → f v = g v) (h1 : f t = g t + d) : (l.map f).sum = (l.map g).sum + d := by
  induction l with
  | nil => cases ht
  | cons x xs ih =>
    rw [List.nodup_cons] at hn
    rw [List.map_cons, List.map_cons, List.sum_cons, List.sum_cons]
    rcases List.mem_cons.mp ht with rfl | ht
    · have : xs.map f = xs.map g := List.map_congr_left fun v hv => hf v (by rintro rfl; exact hn.1 hv)
      rw [this, h1]; omega
    · rw [ih hn.2 ht, hf x (by rintro rfl; exact hn.1 ht)]; omega

theorem histTotal_bump {h : Hist} {t : Byte} (hz : h[t.toNat] = 0) : histTotal (bump h t) = histTotal h + 1 := by
  rw [histTotal_eq, histTotal_eq]
  apply sum_map_update allBytes_nodup (mem_allBytes t)
  · intro v hv; rw [bump_getElem, if_neg (Ne.symm hv)]
  · rw [bump_getElem, if_pos rfl, hz]; rfl

/-! The normalizer. -/

theorem add_one_ne (d : Byte) : d + 1 ≠ d := by
  intro h
  have := congrArg BitVec.toNat h
  simp at this
  have := d.isLt
  omega

theorem phantomTarget_none {h : Hist} : phantomTarget h = none ↔ 2 ≤ countNonzero h := by
  unfold phantomTarget countNonzero
  split <;> simp_all

theorem phantomTarget_zero {h : Hist} {t : Byte} (ht : phantomTarget h = some t) : h[t.toNat] = 0 := by
  by_contra hne
  have hm := mem_nonzeroBytes.mpr hne
  unfold phantomTarget at ht
  split at ht
  · next h0 => rw [h0] at hm; cases hm
  · next d h0 =>
    rw [h0, List.mem_singleton] at hm
    cases ht
    exact add_one_ne d hm
  · cases ht

theorem mem_nonzeroBytes_bump {h : Hist} {t v : Byte} (hz : h[t.toNat] = 0) :
    v ∈ nonzeroBytes (bump h t) ↔ v = t ∨ v ∈ nonzeroBytes h := by
  rw [mem_nonzeroBytes, mem_nonzeroBytes, bump_getElem]
  by_cases e : t = v
  · subst e; simp [hz]
  · simp [e, Ne.symm e]

theorem countNonzero_bump {h : Hist} {t : Byte} (hz : h[t.toNat] = 0) :
    countNonzero (bump h t) = countNonzero h + 1 := by
  have hp : (nonzeroBytes (bump h t)).Perm (t :: nonzeroBytes h) := by
    rw [List.perm_ext_iff_of_nodup (nonzeroBytes_nodup _)]
    · intro v; rw [mem_nonzeroBytes_bump hz, List.mem_cons]
    · rw [List.nodup_cons]
      exact ⟨fun hm => mem_nonzeroBytes.mp hm hz, nonzeroBytes_nodup h⟩
  exact hp.length_eq

theorem nonzeroBytes_of_countNonzero_zero {h : Hist} (hz : countNonzero h = 0) : nonzeroBytes h = [] :=
  List.length_eq_zero_iff.mp hz

theorem normLoop_none {h : Hist} (hn : phantomTarget h = none) (fuel : Nat) : normLoop fuel h = (h, 0) := by
  cases fuel with
  | zero => rfl
  | succ fuel => rw [normLoop, hn]

theorem normLoop_some {h : Hist} {t : Byte} (hs : phantomTarget h = some t) (fuel : Nat) :
    normLoop (fuel + 1) h = ((normLoop fuel (bump h t)).1, (normLoop fuel (bump h t)).2 + 1) := by
  rw [normLoop, hs]

theorem phantomTarget_single {h : Hist} {d : Byte} (hd : nonzeroBytes h = [d]) : phantomTarget h = some (d + 1) := by
  rw [phantomTarget, hd]

theorem phantomTarget_empty {h : Hist} (hz : nonzeroBytes h = []) : phantomTarget h = some 0 := by
  rw [phantomTarget, hz]

theorem normalize_many {h : Hist} (hc : 2 ≤ countNonzero h) : normalize h = (h, 0) := by
  exact normLoop_none (phantomTarget_none.mpr hc) 2

theorem normalize_one {h : Hist} {d : Byte} (hd : nonzeroBytes h = [d]) : normalize h = (bump h (d + 1), 1) := by
  have h1 := phantomTarget_single hd
  have h2 : phantomTarget (bump h (d + 1)) = none := by
    rw [phantomTarget_none, countNonzero_bump (phantomTarget_zero h1), countNonzero, hd]; simp
  rw [normalize, normLoop_some h1, normLoop_none h2]

theorem normalize_empty {h : Hist} (hz : nonzeroBytes h = []) : normalize h = (bump (bump h 0) 1, 2) := by
  have h1 := phantomTarget_empty hz
  have hc : countNonzero (bump h 0) = 1 := by
    rw [countNonzero_bump (phantomTarget_zero h1), countNonzero, hz]; rfl
  have h2 : phantomTarget (bump h 0) = some 1 := by
    obtain ⟨d, hd⟩ := List.length_eq_one_iff.mp hc
    have : (0 : Byte) ∈ nonzeroBytes (bump h 0) := by
      rw [mem_nonzeroBytes_bump (phantomTarget_zero h1)]; exact .inl rfl
    rw [hd, List.mem_singleton] at this
    subst this
    exact phantomTarget_single hd
  have h3 : phantomTarget (bump (bump h 0) 1) = none := by
    rw [phantomTarget_none, countNonzero_bump (phantomTarget_zero h2), hc]
  rw [normalize, normLoop_some h1, normLoop_some h2, normLoop_none h3]

/-- The three cases of the normalizer (R124). -/
theorem normalize_cases (h : Hist) :
    (nonzeroBytes h = [] ∧ normalize h = (bump (bump h 0) 1, 2)) ∨
    (∃ d, nonzeroBytes h = [d] ∧ normalize h = (bump h (d + 1), 1)) ∨
    (2 ≤ countNonzero h ∧ normalize h = (h, 0)) := by
  match hn : nonzeroBytes h with
  | [] => exact .inl ⟨rfl, normalize_empty hn⟩
  | [d] => exact .inr (.inl ⟨d, rfl, normalize_one hn⟩)
  | _ :: _ :: _ =>
    have : 2 ≤ countNonzero h := by rw [countNonzero, hn]; simp
    exact .inr (.inr ⟨this, normalize_many this⟩)

theorem countNonzero_normalize (h : Hist) : 2 ≤ countNonzero (normalize h).1 := by
  rcases normalize_cases h with ⟨hz, he⟩ | ⟨d, hd, he⟩ | ⟨hc, he⟩
  · have h1 : h[(0 : Byte).toNat] = 0 := by
      by_contra hne; have := mem_nonzeroBytes.mpr hne; rw [hz] at this; cases this
    have h2 : (bump h 0)[(1 : Byte).toNat] = 0 := by
      rw [bump_getElem, if_neg (by decide)]
      by_contra hne; have := mem_nonzeroBytes.mpr hne; rw [hz] at this; cases this
    rw [he]; show 2 ≤ countNonzero (bump (bump h 0) 1)
    rw [countNonzero_bump h2, countNonzero_bump h1]; omega
  · have h1 : h[(d + 1).toNat] = 0 := phantomTarget_zero (phantomTarget_single hd)
    rw [he]; show 2 ≤ countNonzero (bump h (d + 1))
    rw [countNonzero_bump h1, countNonzero, hd]; simp
  · rw [he]; exact hc

theorem normalize_snd_le (h : Hist) : (normalize h).2 ≤ 2 := by
  rcases normalize_cases h with ⟨_, he⟩ | ⟨d, _, he⟩ | ⟨_, he⟩ <;> simp [he]

/-- Every phantom adds one to the total (R124, R148). -/
theorem histTotal_normalize (h : Hist) : histTotal (normalize h).1 = histTotal h + (normalize h).2 := by
  rcases normalize_cases h with ⟨hz, he⟩ | ⟨d, hd, he⟩ | ⟨_, he⟩
  · have hall : ∀ v : Byte, h[v.toNat] = 0 := fun v => by
      by_contra hne; have := mem_nonzeroBytes.mpr hne; rw [hz] at this; cases this
    rw [he]; show histTotal (bump (bump h 0) 1) = histTotal h + 2
    rw [histTotal_bump (by rw [bump_getElem, if_neg (by decide), hall]), histTotal_bump (hall 0)]
  · have h1 : h[(d + 1).toNat] = 0 := phantomTarget_zero (phantomTarget_single hd)
    rw [he]; exact histTotal_bump h1
  · rw [he]; rfl

/-- A byte value that occurs keeps its count (R125). -/
theorem normalize_getElem_of_ne_zero {h : Hist} {v : Byte} (hv : h[v.toNat] ≠ 0) :
    (normalize h).1[v.toNat] = h[v.toNat] := by
  have hm := mem_nonzeroBytes.mpr hv
  rcases normalize_cases h with ⟨hz, he⟩ | ⟨d, hd, he⟩ | ⟨_, he⟩
  · rw [hz] at hm; cases hm
  · rw [hd, List.mem_singleton] at hm
    subst hm
    rw [he]; show (bump h (v + 1))[v.toNat] = _
    rw [bump_getElem, if_neg (add_one_ne v)]
  · rw [he]

end Sys2Proof.Machine
end

