-- ==== Sys2Proof/Laws/Extract.lean ====
section
/-! SUPPORT. The order `lt` of R141 and the extraction of the least element of `ACTIVE`. -/

namespace Sys2Proof.Machine

theorem Active.lt_iff {a b : Active} :
    Active.lt a b = true ↔ a.freq.toNat < b.freq.toNat ∨ (a.freq = b.freq ∧ a.idx.toNat < b.idx.toNat) := by
  simp [Active.lt, BitVec.lt_def]

theorem Active.lt_irrefl (a : Active) : Active.lt a a = false := by
  rw [Bool.eq_false_iff]; intro h; rw [Active.lt_iff] at h; omega

theorem Active.lt_trans {a b c : Active} (h1 : Active.lt a b = true) (h2 : Active.lt b c = true) :
    Active.lt a c = true := by
  rw [Active.lt_iff] at *
  rcases h1 with h1 | ⟨e1, h1⟩ <;> rcases h2 with h2 | ⟨e2, h2⟩
  · exact .inl (by omega)
  · exact .inl (by rw [← e2]; exact h1)
  · exact .inl (by rw [e1]; exact h2)
  · exact .inr ⟨e1.trans e2, by omega⟩

theorem Active.lt_total {a b : Active} (h : a.idx ≠ b.idx) : Active.lt a b = true ∨ Active.lt b a = true := by
  rw [Active.lt_iff, Active.lt_iff]
  have hi : a.idx.toNat ≠ b.idx.toNat := fun e => h (BitVec.eq_of_toNat_eq e)
  by_cases hf : a.freq = b.freq
  · rcases Nat.lt_or_gt_of_ne hi with h | h
    · exact .inl (.inr ⟨hf, h⟩)
    · exact .inr (.inr ⟨hf.symm, h⟩)
  · have : a.freq.toNat ≠ b.freq.toNat := fun e => hf (BitVec.eq_of_toNat_eq e)
    rcases Nat.lt_or_gt_of_ne this with h | h
    · exact .inl (.inl h)
    · exact .inr (.inl h)

/-- Not being less is transitive: `lt` compares by a number and then by a number. -/
theorem Active.not_lt_trans {a b c : Active} (h1 : Active.lt a b = false) (h2 : Active.lt b c = false) :
    Active.lt a c = false := by
  rw [Bool.eq_false_iff] at *
  rw [Ne, Active.lt_iff] at *
  rintro (h | ⟨e, h⟩)
  · by_cases hb : b.freq.toNat < c.freq.toNat
    · exact h2 (.inl hb)
    · exact h1 (.inl (by omega))
  · by_cases hab : a.freq = b.freq
    · by_cases hi : a.idx.toNat < b.idx.toNat
      · exact h1 (.inr ⟨hab, hi⟩)
      · exact h2 (.inr ⟨hab ▸ e, by omega⟩)
    · have hne : a.freq.toNat ≠ b.freq.toNat := fun q => hab (BitVec.eq_of_toNat_eq q)
      rcases Nat.lt_or_gt_of_ne hne with hlt | hlt
      · exact h1 (.inl hlt)
      · exact h2 (.inl (by rw [← e]; exact hlt))

theorem leastOf_mem (a : Active) (l : List Active) : leastOf a l ∈ a :: l := by
  induction l generalizing a with
  | nil => simp [leastOf]
  | cons b l ih =>
    rw [leastOf]
    split
    · have := ih b; simp at this ⊢; tauto
    · have := ih a; simp at this ⊢; tauto

theorem leastOf_le (a : Active) (l : List Active) : ∀ x ∈ a :: l, Active.lt x (leastOf a l) = false := by
  induction l generalizing a with
  | nil => intro x hx; rw [List.mem_singleton] at hx; subst hx; exact Active.lt_irrefl x
  | cons b l ih =>
    rw [leastOf]
    split
    · next hlt =>
      intro x hx
      rcases List.mem_cons.mp hx with rfl | hx
      · have h1 := ih b b (List.mem_cons_self ..)
        by_contra hc
        rw [Bool.not_eq_false] at hc
        have := Active.lt_trans hlt hc
        rw [h1] at this; cases this
      · exact ih b x hx
    · next hlt =>
      rw [Bool.not_eq_true] at hlt
      intro x hx
      rcases List.mem_cons.mp hx with rfl | hx
      · exact ih x x (List.mem_cons_self ..)
      · rcases List.mem_cons.mp hx with rfl | hx
        · exact Active.not_lt_trans hlt (ih a a (List.mem_cons_self ..))
        · exact ih a x (List.mem_cons_of_mem _ hx)

/-- The extracted element and the rest are the whole, and no element of the rest is less (R140, R141). -/
theorem extractLeast_spec {l : List Active} {a : Active} {rest : List Active}
    (h : extractLeast l = some (a, rest)) : l.Perm (a :: rest) ∧ ∀ x ∈ rest, Active.lt x a = false := by
  cases l with
  | nil => cases h
  | cons x xs =>
    simp only [extractLeast, Option.some.injEq, Prod.mk.injEq] at h
    obtain ⟨rfl, rfl⟩ := h
    have hm := leastOf_mem x xs
    exact ⟨List.perm_cons_erase hm, fun y hy => leastOf_le x xs y (List.mem_of_mem_erase hy)⟩

theorem extractLeast_none {l : List Active} (h : extractLeast l = none) : l = [] := by
  cases l with
  | nil => rfl
  | cons x xs => cases h

end Sys2Proof.Machine
end

