-- ==== Sys2Proof/Laws/Tree.lean ====
section
/-! SUPPORT. The tree an arena denotes, and the invariant of the merge loop: what `BUILD` makes of any list of leaves
(R23, R140, R143, R146, R148). -/

namespace Sys2Proof.Machine

/-- A Huffman tree as a term: what a node of the arena stands for. -/
inductive HTree where
  | leaf (value : Byte) (freq : Freq)
  | node (left right : HTree)

/-- The leaves from left to right. -/
def HTree.leaves : HTree → List (Byte × Freq)
  | .leaf v f => [(v, f)]
  | .node l r => HTree.leaves l ++ HTree.leaves r

/-- The sum of the frequencies of the leaves. -/
def HTree.weight : HTree → Nat
  | .leaf _ f => f.toNat
  | .node l r => HTree.weight l + HTree.weight r

/-- The number of edges of the longest path. -/
def HTree.depth : HTree → Nat
  | .leaf _ _ => 0
  | .node l r => max (HTree.depth l) (HTree.depth r) + 1

/-- The node `i` of the arena stands for a tree. -/
inductive Denotes (nodes : List Node) : NodeIdx → HTree → Prop where
  | leaf {i : NodeIdx} {v : Byte} {f : Freq} : nodes[i.toNat]? = some (.leaf v f) → Denotes nodes i (.leaf v f)
  | node {i : NodeIdx} {f : Freq} {l r : NodeIdx} {tl tr : HTree} : nodes[i.toNat]? = some (.internal f l r) →
      Denotes nodes l tl → Denotes nodes r tr → Denotes nodes i (.node tl tr)

theorem getElem?_append_some {α : Type} {l xs : List α} {i : Nat} {x : α} (h : l[i]? = some x) :
    (l ++ xs)[i]? = some x := by
  have hi : i < l.length := (List.getElem?_eq_some_iff.mp h).1
  rw [List.getElem?_append_left hi]; exact h

/-- Nodes are only added, so a tree stays what it is. -/
theorem Denotes.append {nodes xs : List Node} {i : NodeIdx} {t : HTree} (h : Denotes nodes i t) :
    Denotes (nodes ++ xs) i t := by
  induction h with
  | leaf h => exact .leaf (getElem?_append_some h)
  | node h _ _ ihl ihr => exact .node (getElem?_append_some h) ihl ihr

theorem HTree.depth_lt_leaves (t : HTree) : t.depth < t.leaves.length := by
  induction t with
  | leaf v f => simp [HTree.depth, HTree.leaves]
  | node l r ihl ihr => simp only [HTree.depth, HTree.leaves, List.length_append]; omega

theorem HTree.weight_eq (t : HTree) : t.weight = (t.leaves.map (fun e => e.2.toNat)).sum := by
  induction t with
  | leaf v f => simp [HTree.weight, HTree.leaves]
  | node l r ihl ihr => simp [HTree.weight, HTree.leaves, ihl, ihr]

theorem childIndices_append (xs ys : List Node) :
    childIndices (xs ++ ys) = childIndices xs ++ childIndices ys := by
  induction xs with
  | nil => rfl
  | cons x xs ih => cases x <;> simp [childIndices, ih]

/-- The leaf nodes of a list of entries. -/
def leafNodes (es : List (Byte × Freq)) : List Node := es.map (fun e => Node.leaf e.1 e.2)

theorem childIndices_leafNodes (es : List (Byte × Freq)) : childIndices (leafNodes es) = [] := by
  induction es with
  | nil => rfl
  | cons e es ih => simpa [leafNodes, childIndices] using ih

/-- What the merge loop keeps, for the leaves `es`. -/
structure Forest (es : List (Byte × Freq)) (nodes : List Node) (active : List Active) : Prop where
  /-- Every merge takes one from `ACTIVE` and adds one to the arena. -/
  count : nodes.length + active.length = 2 * es.length
  /-- The arena begins with the leaves. -/
  first : ∃ xs, nodes = leafNodes es ++ xs
  /-- Every later entry is internal, its children are older, and its frequency is the exact sum of theirs. -/
  later : ∀ i, es.length ≤ i → i < nodes.length → ∃ f l r nl nr,
    nodes[i]? = some (.internal f l r) ∧ l.toNat < i ∧ r.toNat < i ∧
    nodes[l.toNat]? = some nl ∧ nodes[r.toNat]? = some nr ∧
    f.toNat = (Node.freq nl).toNat + (Node.freq nr).toNat
  /-- Every entry is the child of one internal entry, or active. -/
  owned : (childIndices nodes ++ active.map (fun a => a.idx.toNat)).Perm (List.range nodes.length)
  /-- The frequencies in `ACTIVE` are those of the arena. -/
  freqs : ∀ a ∈ active, ∃ n, nodes[a.idx.toNat]? = some n ∧ Node.freq n = a.freq
  /-- Each active node stands for a tree of its weight, and these trees share out the leaves. -/
  trees : ∃ T : NodeIdx → HTree,
    (∀ a ∈ active, Denotes nodes a.idx (T a.idx) ∧ a.freq.toNat = (T a.idx).weight) ∧
    (active.flatMap (fun a => (T a.idx).leaves)).Perm es

theorem Forest.idx_lt {es : List (Byte × Freq)} {nodes : List Node} {active : List Active}
    (hF : Forest es nodes active) {a : Active} (ha : a ∈ active) : a.idx.toNat < nodes.length := by
  have : a.idx.toNat ∈ childIndices nodes ++ active.map (fun a => a.idx.toNat) :=
    List.mem_append_right _ (List.mem_map_of_mem ha)
  exact List.mem_range.mp (hF.owned.mem_iff.mp this)

/-- Reordering `ACTIVE` changes nothing. -/
theorem Forest.perm {es : List (Byte × Freq)} {nodes : List Node} {active active' : List Active}
    (hF : Forest es nodes active) (hp : active.Perm active') : Forest es nodes active' where
  count := by rw [← hp.length_eq]; exact hF.count
  first := hF.first
  later := hF.later
  owned := (List.Perm.append_left _ (hp.symm.map _)).trans hF.owned
  freqs := fun a ha => hF.freqs a (hp.mem_iff.mpr ha)
  trees := by
    obtain ⟨T, h1, h2⟩ := hF.trees
    exact ⟨T, fun a ha => h1 a (hp.mem_iff.mpr ha), (hp.symm.flatMap_right _).trans h2⟩

theorem sum_freqs_le {es fs : List (Byte × Freq)} (h : List.Sublist fs es) :
    (fs.map (fun e => e.2.toNat)).sum ≤ (es.map (fun e => e.2.toNat)).sum :=
  List.Sublist.sum_le_sum (h.map _) (fun _ _ => Nat.zero_le _)

/-- One merge: the two nodes at the head of `ACTIVE` get a new parent. -/
theorem Forest.merge {es : List (Byte × Freq)} {nodes : List Node} {a b : Active} {rest : List Active}
    (hF : Forest es nodes (a :: b :: rest)) (hlen : es.length ≤ 256)
    (hsum : (es.map (fun e => e.2.toNat)).sum < 2 ^ 72) :
    Forest es (nodes ++ [Node.internal (a.freq + b.freq) b.idx a.idx])
      (rest ++ [{ freq := a.freq + b.freq, idx := BitVec.ofNat 9 nodes.length }]) := by
  obtain ⟨T, hT, hleaves⟩ := hF.trees
  have hcount := hF.count
  simp only [List.length_cons] at hcount
  have ha := hT a (by simp)
  have hb := hT b (by simp)
  have hia := hF.idx_lt (a := a) (by simp)
  have hib := hF.idx_lt (a := b) (by simp)
  have hidx : (BitVec.ofNat 9 nodes.length).toNat = nodes.length := by
    rw [BitVec.toNat_ofNat]; apply Nat.mod_eq_of_lt; omega
  -- the sum of the two frequencies is exact
  have hw : (T a.idx).weight + (T b.idx).weight < 2 ^ 72 := by
    have h1 : ((T a.idx).leaves ++ (T b.idx).leaves).Sublist
        ((a :: b :: rest).flatMap (fun a => (T a.idx).leaves)) := by
      simp [List.flatMap_cons]
    have h2 := sum_freqs_le h1
    rw [(hleaves.map (fun e => e.2.toNat)).sum_eq] at h2
    rw [HTree.weight_eq, HTree.weight_eq]
    rw [List.map_append, List.sum_append] at h2
    omega
  have hf : (a.freq + b.freq).toNat = a.freq.toNat + b.freq.toNat := by
    rw [BitVec.toNat_add, Nat.mod_eq_of_lt]; rw [ha.2, hb.2]; exact hw
  have hnew : (nodes ++ [Node.internal (a.freq + b.freq) b.idx a.idx])[nodes.length]? =
      some (Node.internal (a.freq + b.freq) b.idx a.idx) := by simp
  obtain ⟨na, hna, hfa⟩ := hF.freqs a (by simp)
  obtain ⟨nb, hnb, hfb⟩ := hF.freqs b (by simp)
  refine ⟨?_, ?_, ?_, ?_, ?_, ?_⟩
  · simp only [List.length_append, List.length_singleton]; omega
  · obtain ⟨xs, hxs⟩ := hF.first
    exact ⟨xs ++ [Node.internal (a.freq + b.freq) b.idx a.idx], by rw [hxs, List.append_assoc]⟩
  · intro i hi hi'
    rw [List.length_append, List.length_singleton] at hi'
    by_cases he : i = nodes.length
    · subst he
      exact ⟨_, _, _, nb, na, hnew, hib, hia, getElem?_append_some hnb, getElem?_append_some hna, by
        rw [hf, hfa, hfb]; omega⟩
    · obtain ⟨f, l, r, nl, nr, h1, h2, h3, h4, h5, h6⟩ := hF.later i hi (by omega)
      exact ⟨f, l, r, nl, nr, getElem?_append_some h1, h2, h3, getElem?_append_some h4, getElem?_append_some h5, h6⟩
  · rw [childIndices_append, List.length_append, List.length_singleton, List.range_succ, List.map_append]
    simp only [childIndices, List.map_cons, List.map_nil, hidx]
    rw [← List.append_assoc]
    refine List.Perm.append_right _ (List.Perm.trans ?_ hF.owned)
    rw [List.append_assoc]
    refine List.Perm.append_left _ ?_
    simp only [List.map_cons, List.cons_append, List.nil_append]
    exact List.Perm.swap ..
  · intro x hx
    rcases List.mem_append.mp hx with hx | hx
    · obtain ⟨n, h1, h2⟩ := hF.freqs x (by simp [hx])
      exact ⟨n, getElem?_append_some h1, h2⟩
    · rw [List.mem_singleton] at hx; subst hx
      exact ⟨_, by show (nodes ++ _)[(BitVec.ofNat 9 nodes.length).toNat]? = _; rw [hidx]; exact hnew, rfl⟩
  · have hne : ∀ x ∈ a :: b :: rest, x.idx ≠ BitVec.ofNat 9 nodes.length := by
      intro x hx he
      have := hF.idx_lt hx
      rw [he, hidx] at this; omega
    refine ⟨fun i => if i = BitVec.ofNat 9 nodes.length then .node (T b.idx) (T a.idx) else T i, ?_, ?_⟩
    · intro x hx
      rcases List.mem_append.mp hx with hx | hx
      · have hx' : x ∈ a :: b :: rest := by simp [hx]
        beta_reduce
        rw [if_neg (hne x hx')]
        exact ⟨(hT x hx').1.append, (hT x hx').2⟩
      · rw [List.mem_singleton] at hx; subst hx
        beta_reduce
        rw [if_pos rfl]
        refine ⟨.node (by rw [hidx]; exact hnew) hb.1.append ha.1.append, ?_⟩
        show (a.freq + b.freq).toNat = _
        rw [hf, ha.2, hb.2, HTree.weight]; omega
    · have hsame : rest.flatMap (fun x => (if x.idx = BitVec.ofNat 9 nodes.length then HTree.node (T b.idx) (T a.idx)
          else T x.idx).leaves) = rest.flatMap (fun x => (T x.idx).leaves) := by
        simp only [List.flatMap_def]
        congr 1
        apply List.map_congr_left
        intro x hx
        rw [if_neg (hne x (by simp [hx]))]
      rw [List.flatMap_append, hsame]
      simp only [List.flatMap_cons, List.flatMap_nil, if_true, HTree.leaves, List.append_nil]
      refine List.Perm.trans ?_ hleaves
      simp only [List.flatMap_cons]
      refine List.perm_append_comm.trans ?_
      rw [← List.append_assoc]
      exact List.Perm.append_right _ List.perm_append_comm

/-- The loop ends with one active node. -/
theorem Forest.mergeLoop {es : List (Byte × Freq)} (hlen : es.length ≤ 256)
    (hsum : (es.map (fun e => e.2.toNat)).sum < 2 ^ 72) :
    ∀ {fuel : Nat} {active : List Active} {nodes : List Node}, active.length = fuel + 1 → Forest es nodes active →
      ∃ x, Forest es (Sys2Proof.Machine.mergeLoop fuel active nodes) [x]
  | 0, active, nodes, hl, hF => by
    obtain ⟨x, rfl⟩ := List.length_eq_one_iff.mp hl
    exact ⟨x, hF⟩
  | fuel + 1, active, nodes, hl, hF => by
    rw [Sys2Proof.Machine.mergeLoop]
    split
    · next h => rw [extractLeast_none h] at hl; simp at hl
    · next a rest h =>
      have hp := (extractLeast_spec h).1
      split
      · next h' => rw [extractLeast_none h'] at hp; have := hp.length_eq; simp at this; omega
      · next b rest' h' =>
        have hp' := (extractLeast_spec h').1
        have hF' := (hF.perm (hp.trans (List.Perm.cons a hp'))).merge hlen hsum
        refine Forest.mergeLoop hlen hsum ?_ hF'
        have h1 := hp.length_eq
        have h2 := hp'.length_eq
        simp at h1 h2 ⊢; omega

/-- The only active node at the end is the last of the arena. -/
theorem Forest.root {es : List (Byte × Freq)} {nodes : List Node} {x : Active} (hF : Forest es nodes [x])
    (hl : 2 ≤ es.length) : nodes.length = 2 * es.length - 1 ∧ x.idx.toNat = 2 * es.length - 2 := by
  have hc := hF.count
  simp only [List.length_singleton] at hc
  refine ⟨by omega, ?_⟩
  have hmem : 2 * es.length - 2 ∈ childIndices nodes ++ [x].map (fun a => a.idx.toNat) := by
    rw [hF.owned.mem_iff, List.mem_range]; omega
  rcases List.mem_append.mp hmem with h | h
  · exfalso
    -- a child is older than some internal entry
    have key : ∀ (ys zs : List Node), nodes = ys ++ zs → ∀ c ∈ childIndices zs, c + 1 < nodes.length := by
      intro ys zs
      induction zs generalizing ys with
      | nil => intro _ c hc; cases hc
      | cons z zs ih =>
        intro he c hc
        have ih' := ih (ys ++ [z]) (by rw [he, List.append_assoc]; rfl)
        cases z with
        | leaf v f => exact ih' c hc
        | internal f l r =>
          have hz : nodes[ys.length]? = some (.internal f l r) := by rw [he]; simp
          have hlt : ys.length < nodes.length := (List.getElem?_eq_some_iff.mp hz).1
          by_cases hge : es.length ≤ ys.length
          · obtain ⟨f', l', r', _, _, h1, h2, h3, _⟩ := hF.later ys.length hge hlt
            rw [hz] at h1
            cases h1
            simp only [childIndices, List.mem_cons] at hc
            rcases hc with rfl | rfl | hc
            · omega
            · omega
            · exact ih' c hc
          · exfalso
            obtain ⟨xs, hxs⟩ := hF.first
            rw [hxs, List.getElem?_append_left (by simp [leafNodes]; omega), leafNodes, List.getElem?_map] at hz
            rcases he' : es[ys.length]? with _ | e <;> rw [he'] at hz <;> simp at hz
    have := key [] nodes rfl _ h
    omega
  · simpa using (List.mem_singleton.mp h).symm

/-! The start of the loop. -/

theorem activeFrom_length (ns : List Node) (n : Nat) : (activeFrom n ns).length = ns.length := by
  induction ns generalizing n with
  | nil => rfl
  | cons x xs ih => simp [activeFrom, ih]

theorem mem_activeFrom {ns : List Node} {n : Nat} {a : Active} (h : a ∈ activeFrom n ns) :
    ∃ k x, ns[k]? = some x ∧ a = { freq := Node.freq x, idx := BitVec.ofNat 9 (n + k) } := by
  induction ns generalizing n with
  | nil => cases h
  | cons x xs ih =>
    rw [activeFrom, List.mem_cons] at h
    rcases h with rfl | h
    · exact ⟨0, x, rfl, rfl⟩
    · obtain ⟨k, y, h1, h2⟩ := ih h
      exact ⟨k + 1, y, by simpa using h1, by rw [h2, Nat.add_right_comm]; rfl⟩

theorem activeFrom_idx (ns : List Node) (n : Nat) (h : n + ns.length ≤ 512) :
    (activeFrom n ns).map (fun a => a.idx.toNat) = List.range' n ns.length := by
  induction ns generalizing n with
  | nil => rfl
  | cons x xs ih =>
    simp only [List.length_cons] at h
    rw [activeFrom, List.map_cons, ih (n + 1) (by omega), List.length_cons, List.range'_succ]
    simp; omega

theorem Forest.start {es : List (Byte × Freq)} (hlen : es.length ≤ 256) :
    Forest es (leafNodes es) (activeFrom 0 (leafNodes es)) := by
  have hl : (leafNodes es).length = es.length := by simp [leafNodes]
  refine ⟨?_, ⟨[], by simp⟩, ?_, ?_, ?_, ?_⟩
  · rw [activeFrom_length, hl]; omega
  · intro i h1 h2; omega
  · rw [childIndices_leafNodes, List.nil_append, activeFrom_idx _ _ (by omega), List.range_eq_range']
  · intro a ha
    obtain ⟨k, x, h1, rfl⟩ := mem_activeFrom ha
    have hk : k < (leafNodes es).length := (List.getElem?_eq_some_iff.mp h1).1
    refine ⟨x, ?_, rfl⟩
    simp only [Nat.zero_add, BitVec.toNat_ofNat]
    rw [Nat.mod_eq_of_lt (by omega)]; exact h1
  · refine ⟨fun i => match es[i.toNat]? with | some e => .leaf e.1 e.2 | none => .leaf 0 0, ?_, ?_⟩
    · intro a ha
      obtain ⟨k, x, h1, rfl⟩ := mem_activeFrom ha
      have hk : k < (leafNodes es).length := (List.getElem?_eq_some_iff.mp h1).1
      have hi : (BitVec.ofNat 9 (0 + k)).toNat = k := by
        rw [BitVec.toNat_ofNat, Nat.zero_add, Nat.mod_eq_of_lt (by omega)]
      rw [leafNodes, List.getElem?_map] at h1
      rcases he : es[k]? with _ | e
      · rw [he] at h1; cases h1
      · rw [he] at h1
        simp only [Option.map_some, Option.some.injEq] at h1
        subst h1
        simp only [hi, he]
        refine ⟨.leaf ?_, rfl⟩
        rw [hi, leafNodes, List.getElem?_map, he]; rfl
    · have hk : ∀ (fs : List (Byte × Freq)) (n : Nat), n + fs.length ≤ 512 →
          (∀ k, es[n + k]? = fs[k]?) →
          (activeFrom n (leafNodes fs)).flatMap (fun a => HTree.leaves (match es[a.idx.toNat]? with
            | some e => HTree.leaf e.1 e.2 | none => HTree.leaf 0 0)) = fs := by
        intro fs
        induction fs with
        | nil => intro n _ _; rfl
        | cons e fs ih =>
          intro n hn heq
          simp only [List.length_cons] at hn
          have hi : (BitVec.ofNat 9 n).toNat = n := by rw [BitVec.toNat_ofNat, Nat.mod_eq_of_lt (by omega)]
          have h0 : es[n]? = some e := by simpa using heq 0
          have htail := ih (n + 1) (by omega) (fun k => by
            have := heq (k + 1)
            rw [show n + 1 + k = n + (k + 1) by omega, this]; rfl)
          simp only [leafNodes, List.map_cons, activeFrom, List.flatMap_cons] at htail ⊢
          rw [htail]
          simp only [hi, h0, HTree.leaves]; rfl
      rw [hk es 0 (by omega) (fun k => by rw [Nat.zero_add])]

/-! `BUILD`. -/

/-- The leaves of a histogram with their 72-bit frequencies. -/
def leafEntries (h : Hist) : List (Byte × Freq) := (nonzeroEntries h).map (fun e => (e.1, e.2.setWidth 72))

theorem leavesOf_eq (h : Hist) : leavesOf h = leafNodes (leafEntries h) := by
  simp [leavesOf, leafNodes, leafEntries]

theorem leafEntries_eq (h : Hist) :
    leafEntries h = (nonzeroBytes h).map (fun v => (v, h[v.toNat].setWidth 72)) := by
  rw [leafEntries, nonzeroEntries_eq, List.map_map]; rfl

theorem leafEntries_length (h : Hist) : (leafEntries h).length = countNonzero h := by
  rw [leafEntries_eq, List.length_map]; rfl

theorem setWidth72_toNat (w : Word) : (w.setWidth 72).toNat = w.toNat := by
  rw [BitVec.toNat_setWidth, Nat.mod_eq_of_lt]; have := w.isLt; omega

/-- The frequencies of the leaves sum to the total of the counts. -/
theorem leafEntries_sum (h : Hist) : ((leafEntries h).map (fun e => e.2.toNat)).sum = histTotal h := by
  rw [leafEntries_eq, List.map_map, histTotal_eq, nonzeroBytes_eq]
  generalize allBytes = l
  induction l with
  | nil => rfl
  | cons v l ih =>
    rw [List.filter_cons, List.map_cons, List.sum_cons]
    split
    · rw [List.map_cons, List.sum_cons, ih, Function.comp_apply, setWidth72_toNat]
    · next hz => rw [ih]; simp at hz; simp [hz]

theorem histTotal_lt (h : Hist) : histTotal h < 2 ^ 72 := by
  have : ∀ l : List Byte, (l.map (fun v => h[v.toNat].toNat)).sum ≤ l.length * (2 ^ 64 - 1) := by
    intro l
    induction l with
    | nil => simp
    | cons v l ih =>
      have := h[v.toNat].isLt
      rw [List.map_cons, List.sum_cons, List.length_cons]; omega
  have := this allBytes
  rw [allBytes_length] at this
  rw [histTotal_eq]; omega

/-- What `BUILD` leaves, in one statement (R23, R143, R146, R148). -/
theorem buildNodes_forest {h : Hist} (hc : 2 ≤ countNonzero h) :
    ∃ x : Active, Forest (leafEntries h) (buildNodes h) [x] ∧
      (buildNodes h).length = 2 * countNonzero h - 1 ∧ x.idx = BitVec.ofNat 9 ((buildNodes h).length - 1) ∧
      x.idx.toNat = 2 * countNonzero h - 2 := by
  have hlen : (leafEntries h).length ≤ 256 := by rw [leafEntries_length]; exact countNonzero_le h
  have hs : ((leafEntries h).map (fun e => e.2.toNat)).sum < 2 ^ 72 := by
    rw [leafEntries_sum]; exact histTotal_lt h
  have hstart := Forest.start hlen
  have hal : (activeFrom 0 (leafNodes (leafEntries h))).length = (countNonzero h - 1) + 1 := by
    rw [activeFrom_length, leafNodes, List.length_map, leafEntries_length]; omega
  obtain ⟨x, hx⟩ := Forest.mergeLoop hlen hs hal hstart
  have hx' : Forest (leafEntries h) (buildNodes h) [x] := by
    rw [buildNodes, leavesOf_eq]; exact hx
  have hr := hx'.root (by rw [leafEntries_length]; exact hc)
  rw [leafEntries_length] at hr
  refine ⟨x, hx', hr.1, ?_, hr.2⟩
  apply BitVec.eq_of_toNat_eq
  rw [hr.2, hr.1, BitVec.toNat_ofNat, Nat.mod_eq_of_lt]
  · omega
  · have := countNonzero_le h; omega

/-- The tree of a histogram: a term whose leaves are the nonzero counts. -/
theorem buildNodes_denotes {h : Hist} (hc : 2 ≤ countNonzero h) :
    ∃ tl tr : HTree, Denotes (buildNodes h) (BitVec.ofNat 9 ((buildNodes h).length - 1)) (.node tl tr) ∧
      (HTree.node tl tr).leaves.Perm (leafEntries h) := by
  obtain ⟨x, hF, hl, hx, hi⟩ := buildNodes_forest hc
  obtain ⟨T, hT, hp⟩ := hF.trees
  have hd := (hT x (by simp)).1
  have hle : (T x.idx).leaves.Perm (leafEntries h) := by simpa using hp
  rw [← hx]
  cases ht : T x.idx with
  | leaf v f =>
    rw [ht] at hle
    have := hle.length_eq
    rw [leafEntries_length] at this
    simp [HTree.leaves] at this; omega
  | node tl tr =>
    rw [ht] at hd hle
    exact ⟨tl, tr, hd, hle⟩

/-! Which entries `BUILD` merges. -/

theorem activeFrom_mem {ns : List Node} {n k : Nat} {x : Node} (h : ns[k]? = some x) :
    { freq := Node.freq x, idx := BitVec.ofNat 9 (n + k) } ∈ activeFrom n ns := by
  induction ns generalizing n k with
  | nil => cases h
  | cons y ns ih =>
    rw [activeFrom, List.mem_cons]
    cases k with
    | zero => cases h; exact .inl rfl
    | succ k => right; rw [← Nat.add_assoc, Nat.add_right_comm]; exact ih (by simpa using h)

theorem Forest.nodup {es : List (Byte × Freq)} {nodes : List Node} {active : List Active} (hF : Forest es nodes active) :
    (childIndices nodes ++ active.map (fun a => a.idx.toNat)).Nodup := hF.owned.nodup_iff.mpr List.nodup_range

/-- `ACTIVE` is the entries that are no child yet. -/
theorem Forest.mem_active {es : List (Byte × Freq)} {nodes : List Node} {active : List Active}
    (hF : Forest es nodes active) (hlen : nodes.length ≤ 512) {x : Active} :
    x ∈ activeBefore nodes nodes.length ↔ x ∈ active := by
  simp only [activeBefore, List.take_length, List.mem_filter, Bool.not_eq_true', List.contains_eq_mem, decide_eq_false_iff_not]
  constructor
  · rintro ⟨hx, hc⟩
    obtain ⟨k, n, hk, rfl⟩ := mem_activeFrom hx
    have hkl : k < nodes.length := (List.getElem?_eq_some_iff.mp hk).1
    have hi : (BitVec.ofNat 9 (0 + k)).toNat = k := by rw [Nat.zero_add, BitVec.toNat_ofNat, Nat.mod_eq_of_lt (by omega)]
    rw [hi] at hc
    have hm := (List.mem_append.mp (hF.owned.mem_iff.mpr (List.mem_range.mpr hkl))).resolve_left hc
    obtain ⟨y, hy, hyk⟩ := List.mem_map.mp hm
    obtain ⟨m, h1, h2⟩ := hF.freqs y hy
    rw [hyk, hk] at h1
    cases h1
    have : y = { freq := Node.freq n, idx := BitVec.ofNat 9 (0 + k) } := by
      cases y; simp only at h2 hyk ⊢; subst h2; congr 1; exact BitVec.eq_of_toNat_eq (hyk.trans hi.symm)
    rwa [← this]
  · intro hx
    obtain ⟨n, h1, h2⟩ := hF.freqs x hx
    have hm := activeFrom_mem (n := 0) h1
    rw [h2, Nat.zero_add, BitVec.ofNat_toNat, BitVec.setWidth_eq] at hm
    refine ⟨hm, fun hc => ?_⟩
    exact (List.nodup_append.mp hF.nodup).2.2 _ hc _ (List.mem_map_of_mem hx) rfl

theorem MergedFromLeast.append {nodes xs : List Node} {i : Nat} (h : MergedFromLeast nodes i) : MergedFromLeast (nodes ++ xs) i := by
  obtain ⟨a, b, hn, hr⟩ := h
  have hi := (List.getElem?_eq_some_iff.mp hn).1
  have : activeBefore (nodes ++ xs) i = activeBefore nodes i := by
    unfold activeBefore; rw [List.take_append_of_le_length (by omega)]
  exact ⟨a, b, getElem?_append_some hn, by rw [this]; exact hr⟩

/-- One merge takes the two least. -/
theorem Forest.mergedFromLeast {es : List (Byte × Freq)} {nodes : List Node} {active rest rest' : List Active} {a b : Active}
    (hF : Forest es nodes active) (hlen : nodes.length ≤ 512) (h : extractLeast active = some (a, rest))
    (h' : extractLeast rest = some (b, rest')) :
    MergedFromLeast (nodes ++ [Node.internal (a.freq + b.freq) b.idx a.idx]) nodes.length := by
  obtain ⟨hp, hle⟩ := extractLeast_spec h
  obtain ⟨hp', hle'⟩ := extractLeast_spec h'
  have hnd : ((a :: b :: rest').map (fun x => x.idx.toNat)).Nodup :=
    ((hp.trans (hp'.cons a)).map _).nodup_iff.mp (List.nodup_append.mp hF.nodup).2.1
  simp only [List.map_cons, List.nodup_cons, List.mem_cons, not_or] at hnd
  have hbe : activeBefore (nodes ++ [Node.internal (a.freq + b.freq) b.idx a.idx]) nodes.length =
      activeBefore nodes nodes.length := by
    unfold activeBefore; rw [List.take_append_of_le_length (Nat.le_refl _)]
  have hb : b ∈ rest := hp'.mem_iff.mpr (List.mem_cons_self ..)
  have hlt : ∀ {x y : Active}, Active.lt y x = false → x.idx.toNat ≠ y.idx.toNat → Active.lt x y = true := fun hn hi =>
    (Active.lt_total (fun e => hi (by rw [e]))).resolve_right (by rw [hn]; exact Bool.false_ne_true)
  refine ⟨a, b, by simp, ?_, ?_, fun e => hnd.1.1 (by rw [e]), ?_, ?_⟩ <;> rw [hbe]
  · exact (hF.mem_active hlen).mpr (hp.mem_iff.mpr (List.mem_cons_self ..))
  · exact (hF.mem_active hlen).mpr (hp.mem_iff.mpr (List.mem_cons_of_mem _ hb))
  · intro x hx hxa
    have hx := (List.mem_cons.mp (hp.mem_iff.mp ((hF.mem_active hlen).mp hx))).resolve_left hxa
    refine hlt (hle x hx) (fun e => ?_)
    rcases List.mem_cons.mp (hp'.mem_iff.mp hx) with rfl | hx
    · exact hnd.1.1 e
    · exact hnd.1.2 (e ▸ List.mem_map_of_mem hx)
  · intro x hx hxa hxb
    have hx := (List.mem_cons.mp (hp.mem_iff.mp ((hF.mem_active hlen).mp hx))).resolve_left hxa
    have hx := (List.mem_cons.mp (hp'.mem_iff.mp hx)).resolve_left hxb
    exact hlt (hle' x hx) (fun e => hnd.2.1 (e ▸ List.mem_map_of_mem hx))

/-- So every entry that the loop adds was made of the two least. -/
theorem Forest.mergeLoop_mergedFromLeast {es : List (Byte × Freq)} (hlen : es.length ≤ 256)
    (hsum : (es.map (fun e => e.2.toNat)).sum < 2 ^ 72) :
    ∀ {fuel : Nat} {active : List Active} {nodes : List Node}, active.length = fuel + 1 → Forest es nodes active →
      (∀ i, es.length ≤ i → i < nodes.length → MergedFromLeast nodes i) →
      ∀ i, es.length ≤ i → i < (Sys2Proof.Machine.mergeLoop fuel active nodes).length →
        MergedFromLeast (Sys2Proof.Machine.mergeLoop fuel active nodes) i
  | 0, _, _, _, _, hm => hm
  | fuel + 1, active, nodes, hl, hF, hm => by
    have hc := hF.count
    rw [Sys2Proof.Machine.mergeLoop]
    split
    · exact hm
    · next a rest h =>
      have hp := (extractLeast_spec h).1
      split
      · exact hm
      · next b rest' h' =>
        have hp' := (extractLeast_spec h').1
        refine Forest.mergeLoop_mergedFromLeast hlen hsum ?_ ((hF.perm (hp.trans (hp'.cons a))).merge hlen hsum) ?_
        · have h1 := hp.length_eq
          have h2 := hp'.length_eq
          simp at h1 h2 ⊢; omega
        · intro i hi hi'
          rw [List.length_append, List.length_singleton] at hi'
          by_cases he : i = nodes.length
          · subst he; exact hF.mergedFromLeast (by omega) h h'
          · exact (hm i hi (by omega)).append

/-- Every internal entry that `BUILD` makes was made of the two least (R140 to R143). -/
theorem buildNodes_mergedFromLeast {h : Hist} (hc : 2 ≤ countNonzero h) {i : Nat} (hi : countNonzero h ≤ i)
    (hi' : i ≤ 2 * countNonzero h - 2) : MergedFromLeast (buildNodes h) i := by
  have hlen : (leafEntries h).length ≤ 256 := by rw [leafEntries_length]; exact countNonzero_le h
  have hs : ((leafEntries h).map (fun e => e.2.toNat)).sum < 2 ^ 72 := by rw [leafEntries_sum]; exact histTotal_lt h
  obtain ⟨_, _, hl, _⟩ := buildNodes_forest hc
  have hal : (activeFrom 0 (leafNodes (leafEntries h))).length = (countNonzero h - 1) + 1 := by
    rw [activeFrom_length, leafNodes, List.length_map, leafEntries_length]; omega
  have hm := Forest.mergeLoop_mergedFromLeast hlen hs hal (Forest.start hlen) (fun i h1 h2 => by
    rw [leafNodes, List.length_map] at h2; omega) i (by rw [leafEntries_length]; exact hi)
  rw [← leavesOf_eq, ← buildNodes] at hm
  exact hm (by omega)

end Sys2Proof.Machine
end

