-- ==== Sys2Proof/Laws/Code.lean ====
section
/-! SUPPORT. The codes of a tree: what `DERIVE` writes (R160 to R162) and how the walk of `UNPACK` reads them (R192). -/

namespace Sys2Proof.Machine

/-- The byte value and the path of every leaf, from left to right. -/
def HTree.paths : HTree → List (Byte × BitString)
  | .leaf v _ => [(v, [])]
  | .node l r =>
    (HTree.paths l).map (fun p => (p.1, false :: p.2)) ++ (HTree.paths r).map (fun p => (p.1, true :: p.2))

theorem HTree.paths_fst (t : HTree) : t.paths.map Prod.fst = t.leaves.map Prod.fst := by
  induction t with
  | leaf v f => rfl
  | node l r ihl ihr => simp [HTree.paths, HTree.leaves, ← ihl, ← ihr, Function.comp_def]

theorem HTree.mem_paths_node {l r : HTree} {v : Byte} {p : BitString} :
    (v, p) ∈ (HTree.node l r).paths ↔
      (∃ q, p = false :: q ∧ (v, q) ∈ l.paths) ∨ (∃ q, p = true :: q ∧ (v, q) ∈ r.paths) := by
  simp only [HTree.paths, List.mem_append, List.mem_map, Prod.mk.injEq, Prod.exists]
  constructor
  · rintro (⟨a, q, h, rfl, rfl⟩ | ⟨a, q, h, rfl, rfl⟩)
    · exact .inl ⟨q, rfl, h⟩
    · exact .inr ⟨q, rfl, h⟩
  · rintro (⟨q, rfl, h⟩ | ⟨q, rfl, h⟩)
    · exact .inl ⟨v, q, h, rfl, rfl⟩
    · exact .inr ⟨v, q, h, rfl, rfl⟩

theorem HTree.paths_length_le (t : HTree) {v : Byte} {p : BitString} (h : (v, p) ∈ t.paths) :
    p.length ≤ t.depth := by
  induction t generalizing p with
  | leaf w f => simp [HTree.paths] at h; simp [h.2]
  | node l r ihl ihr =>
    rcases HTree.mem_paths_node.mp h with ⟨q, rfl, hq⟩ | ⟨q, rfl, hq⟩
    · have := ihl hq; simp [HTree.depth]; omega
    · have := ihr hq; simp [HTree.depth]; omega

/-- No path is a prefix of another: only leaves are mapped (R162 c). -/
theorem HTree.paths_prefix_free (t : HTree) {v w : Byte} {p q : BitString} (hp : (v, p) ∈ t.paths)
    (hq : (w, q) ∈ t.paths) (h : p <+: q) : v = w ∧ p = q := by
  induction t generalizing p q with
  | leaf x f => simp [HTree.paths] at hp hq; exact ⟨hp.1.trans hq.1.symm, hp.2.trans hq.2.symm⟩
  | node l r ihl ihr =>
    rcases HTree.mem_paths_node.mp hp with ⟨p', rfl, hp'⟩ | ⟨p', rfl, hp'⟩ <;>
    rcases HTree.mem_paths_node.mp hq with ⟨q', rfl, hq'⟩ | ⟨q', rfl, hq'⟩
    · rw [List.cons_prefix_cons] at h
      have := ihl hp' hq' h.2
      exact ⟨this.1, by rw [this.2]⟩
    · rw [List.cons_prefix_cons] at h; cases h.1
    · rw [List.cons_prefix_cons] at h; cases h.1
    · rw [List.cons_prefix_cons] at h
      have := ihr hp' hq' h.2
      exact ⟨this.1, by rw [this.2]⟩

/-- Every long enough sequence of bits begins with a path (R23, R162 d). -/
theorem HTree.path_of_bits (t : HTree) {bits : BitString} (h : t.depth ≤ bits.length) :
    ∃ v p, (v, p) ∈ t.paths ∧ p <+: bits := by
  induction t generalizing bits with
  | leaf v f => exact ⟨v, [], by simp [HTree.paths], List.nil_prefix⟩
  | node l r ihl ihr =>
    cases bits with
    | nil => simp [HTree.depth] at h
    | cons b bits =>
      simp only [HTree.depth, List.length_cons] at h
      cases b
      · obtain ⟨v, p, h1, h2⟩ := ihl (bits := bits) (by omega)
        exact ⟨v, false :: p, HTree.mem_paths_node.mpr (.inl ⟨p, rfl, h1⟩), by simpa using h2⟩
      · obtain ⟨v, p, h1, h2⟩ := ihr (bits := bits) (by omega)
        exact ⟨v, true :: p, HTree.mem_paths_node.mpr (.inr ⟨p, rfl, h1⟩), by simpa using h2⟩

/-- The codes fill the binary tree (R162 d), in whole numbers. -/
theorem HTree.kraft (t : HTree) {d : Nat} (h : t.depth ≤ d) :
    (t.paths.map (fun p => 2 ^ (d - p.2.length))).sum = 2 ^ d := by
  induction t generalizing d with
  | leaf v f => simp [HTree.paths]
  | node l r ihl ihr =>
    simp only [HTree.depth] at h
    obtain ⟨e, rfl⟩ : ∃ e, d = e + 1 := ⟨d - 1, by omega⟩
    have hl := ihl (d := e) (by omega)
    have hr := ihr (d := e) (by omega)
    simp only [HTree.paths, List.map_append, List.map_map, List.sum_append, Function.comp_def, List.length_cons,
      Nat.add_sub_add_right]
    rw [hl, hr, Nat.pow_succ]; omega

theorem Denotes.reaches_iff {nodes : List Node} {i : NodeIdx} {t : HTree} (h : Denotes nodes i t) {v : Byte}
    {p : BitString} : Reaches nodes i p v ↔ (v, p) ∈ t.paths := by
  induction h generalizing p with
  | leaf hn =>
    constructor
    · intro hr
      cases hr with
      | leaf h' => rw [hn] at h'; cases h'; simp [HTree.paths]
      | left h' _ => rw [hn] at h'; cases h'
      | right h' _ => rw [hn] at h'; cases h'
    · intro hm
      simp [HTree.paths] at hm
      obtain ⟨rfl, rfl⟩ := hm
      exact .leaf hn
  | node hn _ _ ihl ihr =>
    rw [HTree.mem_paths_node]
    constructor
    · intro hr
      cases hr with
      | leaf h' => rw [hn] at h'; cases h'
      | left h' hp => rw [hn] at h'; cases h'; exact .inl ⟨_, rfl, ihl.mp hp⟩
      | right h' hp => rw [hn] at h'; cases h'; exact .inr ⟨_, rfl, ihr.mp hp⟩
    · rintro (⟨q, rfl, hq⟩ | ⟨q, rfl, hq⟩)
      · exact .left hn (ihl.mpr hq)
      · exact .right hn (ihr.mpr hq)

/-! `DERIVE`. -/

/-- Writes one code. -/
def setCode (path : BitString) (code : CodeTable) (p : Byte × BitString) : CodeTable :=
  code.set p.1.toNat (path ++ p.2)

/-- The walk writes every leaf's path, and nothing else. -/
theorem Denotes.visit {nodes : List Node} {i : NodeIdx} {t : HTree} (h : Denotes nodes i t) {fuel : Nat}
    (hf : t.depth < fuel) (path : BitString) (code : CodeTable) :
    visit nodes fuel i path code = some (t.paths.foldl (setCode path) code) := by
  induction h generalizing fuel path code with
  | leaf hn =>
    obtain ⟨k, rfl⟩ : ∃ k, fuel = k + 1 := ⟨fuel - 1, by omega⟩
    rw [Sys2Proof.Machine.visit, hn]
    simp [HTree.paths, setCode]
  | @node i f l r tl tr hn _ _ ihl ihr =>
    simp only [HTree.depth] at hf
    obtain ⟨k, rfl⟩ : ∃ k, fuel = k + 1 := ⟨fuel - 1, by omega⟩
    rw [Sys2Proof.Machine.visit, hn]
    simp only [ihl (fuel := k) (by omega), ihr (fuel := k) (by omega)]
    simp only [HTree.paths, List.foldl_append, List.foldl_map, Option.some.injEq]
    have hset : ∀ (b : Bool) (c : CodeTable) (p : Byte × BitString),
        setCode path c (p.1, b :: p.2) = setCode (path ++ [b]) c p := by
      intro b c p; simp [setCode]
    simp only [hset]

theorem foldl_setCode {ps : List (Byte × BitString)} (hn : (ps.map Prod.fst).Nodup) (code : CodeTable) (v : Byte) :
    (∀ p, (v, p) ∈ ps → (ps.foldl (setCode []) code)[v.toNat] = p) ∧
    ((∀ p, (v, p) ∉ ps) → (ps.foldl (setCode []) code)[v.toNat] = code[v.toNat]) := by
  induction ps generalizing code with
  | nil => simp
  | cons x ps ih =>
    rw [List.map_cons, List.nodup_cons] at hn
    have ih' := ih hn.2 (setCode [] code x)
    refine ⟨fun p hp => ?_, fun hp => ?_⟩
    · rw [List.foldl_cons]
      rcases List.mem_cons.mp hp with rfl | hp
      · have hnot : ∀ q, (v, q) ∉ ps := fun q hq => hn.1 (List.mem_map.mpr ⟨(v, q), hq, rfl⟩)
        rw [ih'.2 hnot]; simp [setCode]
      · exact ih'.1 p hp
    · rw [List.foldl_cons, ih'.2 (fun p hp' => hp p (List.mem_cons_of_mem _ hp'))]
      have : x.1.toNat ≠ v.toNat := fun e => hp x.2 (by
        rw [toNat_inj8] at e; subst e; exact List.mem_cons_self ..)
      simp [setCode, this]

/-- Everything a code table made from a histogram is, through one tree. -/
structure CodeOf (h : Hist) (code : CodeTable) (t : HTree) : Prop where
  denotes : Denotes (buildNodes h) (BitVec.ofNat 9 ((buildNodes h).length - 1)) t
  isNode : ∃ l r, t = .node l r
  leaves : t.leaves.Perm (leafEntries h)
  mem : ∀ v p, (v, p) ∈ t.paths ↔ code[v.toNat] = p ∧ h[v.toNat] ≠ 0
  absent : ∀ v : Byte, h[v.toNat] = 0 → code[v.toNat] = []

theorem codeOfHist_spec {h : Hist} (hc : 2 ≤ countNonzero h) :
    ∃ code t, codeOfHist h = some code ∧ CodeOf h code t := by
  obtain ⟨tl, tr, hd, hp⟩ := buildNodes_denotes hc
  have hkeys : ((HTree.node tl tr).paths.map Prod.fst).Perm (nonzeroBytes h) := by
    rw [HTree.paths_fst]
    refine (hp.map Prod.fst).trans ?_
    rw [leafEntries_eq, List.map_map]
    simp [Function.comp_def]
  have hnd : ((HTree.node tl tr).paths.map Prod.fst).Nodup := (hkeys.nodup_iff).mpr (nonzeroBytes_nodup h)
  have hdep : (HTree.node tl tr).depth < Config.lmax + 1 := by
    have h1 := HTree.depth_lt_leaves (.node tl tr)
    have h2 := hp.length_eq
    rw [leafEntries_length] at h2
    have h3 := countNonzero_le h
    show _ < 256
    omega
  refine ⟨_, .node tl tr, hd.visit hdep [] emptyCode, hd, ⟨tl, tr, rfl⟩, hp, ?_, ?_⟩
  · intro v p
    have hfold := foldl_setCode hnd emptyCode v
    constructor
    · intro hm
      refine ⟨hfold.1 p hm, ?_⟩
      rw [← mem_nonzeroBytes, ← hkeys.mem_iff]
      exact List.mem_map_of_mem (f := Prod.fst) hm
    · rintro ⟨hcode, hne⟩
      rw [← mem_nonzeroBytes, ← hkeys.mem_iff, List.mem_map] at hne
      obtain ⟨⟨w, q⟩, hm, rfl⟩ := hne
      have := hfold.1 q hm
      rw [hcode] at this; subst this; exact hm
  · intro v hz
    have hfold := foldl_setCode hnd emptyCode v
    rw [hfold.2 (fun p hm => ?_)]
    · exact emptyCode_getElem v
    · have : v ∈ nonzeroBytes h := by rw [← hkeys.mem_iff]; exact List.mem_map_of_mem (f := Prod.fst) hm
      exact mem_nonzeroBytes.mp this hz

theorem CodeOf.code_ne_nil {h : Hist} {code : CodeTable} {t : HTree} (hc : CodeOf h code t) {v : Byte} :
    code[v.toNat] ≠ [] ↔ h[v.toNat] ≠ 0 := by
  constructor
  · exact fun hne hz => hne (hc.absent v hz)
  · intro hne hnil
    have hm := (hc.mem v _).mpr ⟨rfl, hne⟩
    obtain ⟨l, r, rfl⟩ := hc.isNode
    rw [hnil] at hm
    rcases HTree.mem_paths_node.mp hm with ⟨q, h1, _⟩ | ⟨q, h1, _⟩ <;> cases h1

theorem CodeOf.depth_lt {h : Hist} {code : CodeTable} {t : HTree} (hc : CodeOf h code t) :
    t.depth < countNonzero h := by
  have := HTree.depth_lt_leaves t
  rw [hc.leaves.length_eq, leafEntries_length] at this
  exact this

/-! The walk of `UNPACK`. -/

/-- From a node of the tree, the bits of one path lead to its leaf: the byte is emitted if it fits. -/
theorem Denotes.walk_path {nodes : List Node} {i : NodeIdx} {t : HTree} (h : Denotes nodes i t) {root : NodeIdx}
    {cap : Nat} {v : Byte} {p : BitString} (hp : (v, p) ∈ t.paths) (hne : p ≠ []) (bits : BitString) (k nout : Nat) :
    walk nodes root cap (p ++ bits) k i nout =
      (match checkStore cap nout with
      | .error e => .error e
      | .ok () =>
        match walk nodes root cap bits (k + p.length) root (nout + 1) with
        | .error e => .error e
        | .ok out => .ok (v :: out)) := by
  induction h generalizing p k with
  | leaf hn => simp [HTree.paths] at hp; exact absurd hp.2 hne
  | @node i f l r tl tr hn hl hr ihl ihr =>
    have step : ∀ (b : Bool) (q : BitString) (c : NodeIdx) (tc : HTree), c = (if b then r else l) → Denotes nodes c tc →
        (v, q) ∈ tc.paths →
        (q ≠ [] → walk nodes root cap (q ++ bits) (k + 1) c nout =
          (match checkStore cap nout with
          | .error e => .error e
          | .ok () =>
            match walk nodes root cap bits (k + 1 + q.length) root (nout + 1) with
            | .error e => .error e
            | .ok out => .ok (v :: out))) →
        walk nodes root cap (b :: q ++ bits) k i nout =
          (match checkStore cap nout with
          | .error e => .error e
          | .ok () =>
            match walk nodes root cap bits (k + (b :: q).length) root (nout + 1) with
            | .error e => .error e
            | .ok out => .ok (v :: out)) := by
      intro b q c tc hcb hc hq ih
      rw [List.cons_append, walk, hn]
      simp only [← hcb]
      cases hc with
      | leaf hleaf =>
        simp [HTree.paths] at hq
        obtain ⟨rfl, rfl⟩ := hq
        simp only [hleaf, List.nil_append, List.length_singleton] <;> rfl
      | node hnode _ _ =>
        simp only [hnode]
        have hqn : q ≠ [] := by
          rintro rfl
          rcases HTree.mem_paths_node.mp hq with ⟨_, h1, _⟩ | ⟨_, h1, _⟩ <;> cases h1
        rw [ih hqn, List.length_cons, Nat.add_right_comm k 1, Nat.add_assoc]
    rcases HTree.mem_paths_node.mp hp with ⟨q, rfl, hq⟩ | ⟨q, rfl, hq⟩
    · exact step false q l tl rfl hl hq (fun hqn => ihl hq hqn (k + 1))
    · exact step true q r tr rfl hr hq (fun hqn => ihr hq hqn (k + 1))

/-- The walk inverts the codes: the bits of a run of bytes decode to that run, when it fits (R192). -/
theorem CodeOf.walk_codeBits {h : Hist} {code : CodeTable} {t : HTree} (hc : CodeOf h code t) {cap : Nat}
    {bytes : List Byte} (hb : ∀ v ∈ bytes, h[v.toNat] ≠ 0) {nout : Nat} (hcap : nout + bytes.length ≤ cap) (k : Nat) :
    walk (buildNodes h) (BitVec.ofNat 9 ((buildNodes h).length - 1)) cap (codeBits code bytes) k
      (BitVec.ofNat 9 ((buildNodes h).length - 1)) nout = .ok bytes := by
  induction bytes generalizing nout k with
  | nil => simp [codeBits, walk]
  | cons v bytes ih =>
    have hv := hb v (by simp)
    have hm := (hc.mem v _).mpr ⟨rfl, hv⟩
    simp only [List.length_cons] at hcap
    have hlt : nout < cap := by omega
    have hcb : codeBits code (v :: bytes) = code[v.toNat] ++ codeBits code bytes := by simp [codeBits]
    rw [hcb, hc.denotes.walk_path hm (hc.code_ne_nil.mpr hv)]
    have := ih (nout := nout + 1) (fun w hw => hb w (by simp [hw])) (by omega) (k + code[v.toNat].length)
    simp only [checkStore, hlt, if_true, this]

/-- On a tree that `BUILD` made, the walk fails only for want of room or at the end of the bits, inside a code
(R193). -/
theorem walk_error {nodes : List Node} {root i : NodeIdx} {tr ti : HTree} (hroot : Denotes nodes root tr)
    (hrn : ∃ a b, tr = .node a b) (hi : Denotes nodes i ti) (hin : ∃ a b, ti = .node a b) {cap : Nat}
    {bits : BitString} {k nout : Nat} {e : Raised} (h : walk nodes root cap bits k i nout = .error e) :
    e = malformedAt (k + bits.length) ∨
      (e.kind = .dstOverflow ∧ ∃ a, cap ≤ a ∧ a < nout + bits.length ∧ e.info = BitVec.ofNat 64 a) := by
  induction bits generalizing k i ti nout e with
  | nil =>
    rw [walk] at h
    split at h
    · cases h
    · cases h; exact .inl rfl
  | cons b bits ih =>
    obtain ⟨ta, tb, rfl⟩ := hin
    cases hi with
    | @node _ f l r _ _ hn hl hr =>
      rw [walk, hn] at h
      obtain ⟨c, tc, hcb, hc⟩ : ∃ c tc, c = (if b then r else l) ∧ Denotes nodes c tc := by
        cases b
        · exact ⟨l, ta, rfl, hl⟩
        · exact ⟨r, tb, rfl, hr⟩
      simp only [← hcb] at h
      cases hc with
      | @leaf _ v f' hleaf =>
        simp only [hleaf] at h
        split at h
        · next e' hs =>
          cases h
          rw [checkStore] at hs
          split at hs
          · cases hs
          · cases hs; exact .inr ⟨rfl, nout, by omega, by rw [List.length_cons]; omega, rfl⟩
        · split at h
          · next e' hw =>
            cases h
            rcases ih hroot hrn hw with h1 | ⟨h1, a, h2, h3, h4⟩
            · exact .inl (by rw [h1, List.length_cons, Nat.add_assoc, Nat.add_comm 1])
            · exact .inr ⟨h1, a, h2, by rw [List.length_cons]; omega, h4⟩
          · cases h
      | @node _ f' l' r' ta' tb' hnode hl' hr' =>
        simp only [hnode] at h
        rcases ih (.node hnode hl' hr') ⟨_, _, rfl⟩ h with h1 | ⟨h1, a, h2, h3, h4⟩
        · exact .inl (by rw [h1, List.length_cons, Nat.add_assoc, Nat.add_comm 1])
        · exact .inr ⟨h1, a, h2, by rw [List.length_cons]; omega, h4⟩

/-- Every emitted byte takes at least one bit and has room (R195). -/
theorem walk_length {nodes : List Node} {root i : NodeIdx} {cap : Nat} {bits : BitString} {k nout : Nat}
    {out : List Byte} (h : walk nodes root cap bits k i nout = .ok out) :
    out.length ≤ bits.length ∧ (out = [] ∨ nout + out.length ≤ cap) := by
  induction bits generalizing k i nout out with
  | nil =>
    rw [walk] at h
    split at h
    · cases h; exact ⟨Nat.le_refl _, .inl rfl⟩
    · cases h
  | cons b bits ih =>
    rw [walk] at h
    split at h
    · cases h
    · cases h
    · split at h
      · cases h
      · have := ih h; rw [List.length_cons]; exact ⟨by omega, this.2⟩
      · split at h
        · cases h
        · next hs =>
          split at h
          · cases h
          · next out' hw =>
            cases h
            have := ih hw
            rw [checkStore] at hs
            split at hs
            · next hlt =>
              refine ⟨by simp only [List.length_cons]; omega, .inr ?_⟩
              rcases this.2 with rfl | h2
              · simp; omega
              · simp only [List.length_cons]; omega
            · cases hs

/-- A walk that ends well from inside a tree reads one path, and goes on from the root; or there are no bits left at the
root (R190). -/
theorem walk_ok_path {nodes : List Node} {root i : NodeIdx} {ti : HTree}
    (hroot : ∀ (j : NodeIdx) f l r, nodes[j.toNat]? = some (.internal f l r) → l ≠ root ∧ r ≠ root)
    (hi : Denotes nodes i ti) (hin : ∃ a b, ti = .node a b) {cap : Nat} {bits : BitString} {k nout : Nat} {out : List Byte}
    (h : walk nodes root cap bits k i nout = .ok out) :
    (bits = [] ∧ i = root ∧ out = []) ∨
    ∃ v p rest out', (v, p) ∈ ti.paths ∧ p ≠ [] ∧ bits = p ++ rest ∧ out = v :: out' ∧
      walk nodes root cap rest (k + p.length) root (nout + 1) = .ok out' := by
  induction bits generalizing k i ti with
  | nil =>
    rw [walk] at h
    split at h
    · next hr => cases h; exact .inl ⟨rfl, hr, rfl⟩
    · cases h
  | cons b bits ih =>
    obtain ⟨ta, tb, rfl⟩ := hin
    cases hi with
    | @node _ f l r _ _ hn hl hr =>
      rw [walk, hn] at h
      obtain ⟨c, tc, hcb, hc, hpath⟩ : ∃ c tc, c = (if b then r else l) ∧ Denotes nodes c tc ∧
          ∀ v p, (v, p) ∈ tc.paths → (v, b :: p) ∈ (HTree.node ta tb).paths := by
        cases b
        · exact ⟨l, ta, rfl, hl, fun v p hp => HTree.mem_paths_node.mpr (.inl ⟨p, rfl, hp⟩)⟩
        · exact ⟨r, tb, rfl, hr, fun v p hp => HTree.mem_paths_node.mpr (.inr ⟨p, rfl, hp⟩)⟩
      simp only [← hcb] at h
      cases hc with
      | @leaf _ v f' hleaf =>
        simp only [hleaf] at h
        split at h
        · cases h
        · split at h
          · cases h
          · next out' hw =>
            cases h
            exact .inr ⟨v, [b], bits, out', hpath v [] (by simp [HTree.paths]), by simp, rfl, rfl, hw⟩
      | @node _ f' l' r' ta' tb' hnode hl' hr' =>
        simp only [hnode] at h
        rcases ih (.node hnode hl' hr') ⟨_, _, rfl⟩ h with ⟨rfl, hcr, rfl⟩ | ⟨v, p, rest, out', h1, _, h3, h4, h5⟩
        · obtain ⟨h1, h2⟩ := hroot i f l r hn
          cases b
          · exact absurd (hcb.symm.trans hcr) h1
          · exact absurd (hcb.symm.trans hcr) h2
        · refine .inr ⟨v, b :: p, rest, out', hpath v p h1, by simp, by rw [h3]; rfl, h4, ?_⟩
          rw [List.length_cons, Nat.add_comm p.length, ← Nat.add_assoc]; exact h5

/-- In the tree of a histogram `ROOT` is nobody's child (R23). -/
theorem buildNodes_root {h : Hist} (hc : 2 ≤ countNonzero h) (j : NodeIdx) (f : Freq) (l r : NodeIdx)
    (hj : (buildNodes h)[j.toNat]? = some (.internal f l r)) :
    l ≠ BitVec.ofNat 9 ((buildNodes h).length - 1) ∧ r ≠ BitVec.ofNat 9 ((buildNodes h).length - 1) := by
  obtain ⟨x, hF, hlen, hx, hxi⟩ := buildNodes_forest hc
  have hlt := (List.getElem?_eq_some_iff.mp hj).1
  have hle : (leafEntries h).length ≤ j.toNat := by
    by_contra hge
    obtain ⟨xs, hxs⟩ := hF.first
    rw [hxs, List.getElem?_append_left (by simp [leafNodes]; omega), leafNodes, List.getElem?_map] at hj
    rcases he : (leafEntries h)[j.toNat]? with _ | e <;> rw [he] at hj <;> simp at hj
  obtain ⟨f', l', r', _, _, h1, h2, h3, _⟩ := hF.later j.toNat hle hlt
  rw [hj] at h1; cases h1
  rw [← hx]
  rw [hlen] at hlt
  constructor
  · intro he; rw [he, hxi] at h2; omega
  · intro he; rw [he, hxi] at h3; omega

/-- A walk of the tree of a histogram that ends well has read the codes of the bytes it emitted, end to end (R192). -/
theorem CodeOf.walk_ok {h : Hist} {code : CodeTable} {t : HTree} (hc : CodeOf h code t) (h2 : 2 ≤ countNonzero h)
    {cap : Nat} {bits : BitString} {k nout : Nat} {out : List Byte}
    (hw : walk (buildNodes h) (BitVec.ofNat 9 ((buildNodes h).length - 1)) cap bits k
      (BitVec.ofNat 9 ((buildNodes h).length - 1)) nout = .ok out) : bits = codeBits code out := by
  induction out generalizing bits k nout with
  | nil =>
    rcases walk_ok_path (buildNodes_root h2) hc.denotes hc.isNode hw with ⟨rfl, _, _⟩ | ⟨_, _, _, _, _, _, _, h4, _⟩
    · rfl
    · cases h4
  | cons v out ih =>
    rcases walk_ok_path (buildNodes_root h2) hc.denotes hc.isNode hw with
      ⟨_, _, h3⟩ | ⟨v', p, rest, out', h1, _, h3, h4, h5⟩
    · cases h3
    · cases h4
      rw [h3, ih h5, ← ((hc.mem v p).mp h1).1]
      simp [codeBits]

/-- No code is longer than one less than the number of codes (R162 b). -/
theorem CodeOf.code_length_lt {h : Hist} {code : CodeTable} {t : HTree} (hc : CodeOf h code t)
    (h2 : 2 ≤ countNonzero h) (v : Byte) : code[v.toNat].length < countNonzero h := by
  by_cases hv : h[v.toNat] = 0
  · rw [hc.absent v hv]; simp; omega
  · exact Nat.lt_of_le_of_lt (HTree.paths_length_le t ((hc.mem v _).mpr ⟨rfl, hv⟩)) hc.depth_lt

/-- The walk over whole codes followed by more bits: the bytes are emitted, and the walk goes on at the root (R192). -/
theorem CodeOf.walk_codeBits_append {h : Hist} {code : CodeTable} {t : HTree} (hc : CodeOf h code t) {cap : Nat}
    {bytes : List Byte} (hb : ∀ v ∈ bytes, h[v.toNat] ≠ 0) {nout : Nat} (hcap : nout + bytes.length ≤ cap) (k : Nat)
    (rest : BitString) :
    walk (buildNodes h) (BitVec.ofNat 9 ((buildNodes h).length - 1)) cap (codeBits code bytes ++ rest) k
      (BitVec.ofNat 9 ((buildNodes h).length - 1)) nout =
      (match walk (buildNodes h) (BitVec.ofNat 9 ((buildNodes h).length - 1)) cap rest (k + (codeBits code bytes).length)
        (BitVec.ofNat 9 ((buildNodes h).length - 1)) (nout + bytes.length) with
      | .error e => .error e
      | .ok out => .ok (bytes ++ out)) := by
  induction bytes generalizing nout k with
  | nil => simp only [codeBits, List.flatMap_nil, List.nil_append, List.length_nil, Nat.add_zero]; split <;> simp_all
  | cons v bytes ih =>
    have hv := hb v (by simp)
    have hm := (hc.mem v _).mpr ⟨rfl, hv⟩
    simp only [List.length_cons] at hcap
    have hlt : nout < cap := by omega
    have hcb : codeBits code (v :: bytes) = code[v.toNat] ++ codeBits code bytes := by simp [codeBits]
    rw [hcb, List.append_assoc, hc.denotes.walk_path hm (hc.code_ne_nil.mpr hv),
      ih (nout := nout + 1) (fun w hw => hb w (by simp [hw])) (by omega)]
    simp only [checkStore, hlt, if_true, List.length_append, List.length_cons, Nat.add_assoc, Nat.add_comm 1]
    generalize walk _ _ _ rest _ _ _ = w
    cases w <;> rfl

/-- A walk that ends inside a code reports the end of the bits (R193 c). -/
theorem walk_part {nodes : List Node} {root i : NodeIdx} {ti : HTree}
    (hroot : ∀ (j : NodeIdx) f l r, nodes[j.toNat]? = some (.internal f l r) → l ≠ root ∧ r ≠ root)
    (hi : Denotes nodes i ti) {v : Byte} {p part : BitString} (hp : (v, p) ∈ ti.paths) (hpre : part <+: p)
    (hne : part ≠ p) (hnil : part ≠ []) (cap k nout : Nat) :
    walk nodes root cap part k i nout = .error (malformedAt (k + part.length)) := by
  induction part generalizing k i ti p with
  | nil => exact absurd rfl hnil
  | cons b part ih =>
    cases hi with
    | leaf hn =>
      simp only [HTree.paths, List.mem_singleton, Prod.mk.injEq] at hp
      rw [hp.2] at hpre; simp at hpre
    | @node _ f l r ta tb hn hl hr =>
      obtain ⟨q, c, tc, rfl, hcb, hcr, hc, hq⟩ : ∃ q c tc, p = b :: q ∧ c = (if b then r else l) ∧ c ≠ root ∧
          Denotes nodes c tc ∧ (v, q) ∈ tc.paths := by
        obtain ⟨hlr, hrr⟩ := hroot i f l r hn
        rcases HTree.mem_paths_node.mp hp with ⟨q, rfl, hq⟩ | ⟨q, rfl, hq⟩
        · have hb : b = false := (List.cons_prefix_cons.mp hpre).1
          subst hb; exact ⟨q, l, ta, rfl, rfl, hlr, hl, hq⟩
        · have hb : b = true := (List.cons_prefix_cons.mp hpre).1
          subst hb; exact ⟨q, r, tb, rfl, rfl, hrr, hr, hq⟩
      have hpre' := (List.cons_prefix_cons.mp hpre).2
      have hne' : part ≠ q := fun e => hne (by rw [e])
      rw [walk, hn]
      simp only [← hcb]
      have hc' := hc
      cases hc with
      | leaf hleaf =>
        simp only [HTree.paths, List.mem_singleton, Prod.mk.injEq] at hq
        rw [hq.2] at hpre' hne'
        exact absurd (List.prefix_nil.mp hpre') hne'
      | node hnode hl' hr' =>
        simp only [hnode]
        by_cases hnil' : part = []
        · subst hnil'; rw [walk, if_neg hcr]; rfl
        · rw [ih hc' hq hpre' hne' hnil', List.length_cons, Nat.add_assoc, Nat.add_comm 1]

end Sys2Proof.Machine
end

