-- ==== Sys2Proof/Laws/Packer.lean ====
section
/-! SUPPORT. The packer: which bytes a string of code bits becomes, and where it stops (R175 to R181). -/

namespace Sys2Proof.Machine

/-- The accumulator that holds a string of at most 8 bits. -/
def accOf (pend : BitString) : Byte := pend.foldl accPush 0

theorem accOf_push (pend : BitString) (b : Bool) : accPush (accOf pend) b = accOf (pend ++ [b]) := by
  simp [accOf, List.foldl_append]

theorem byteBits_accOf {pend : BitString} (h : pend.length = 8) : byteBits (accOf pend) = pend := by
  have key : ∀ a b c d e f g k : Bool, byteBits (accOf [a, b, c, d, e, f, g, k]) = [a, b, c, d, e, f, g, k] := by
    decide +kernel
  match pend, h with
  | [a, b, c, d, e, f, g, k], _ => exact key a b c d e f g k

theorem byteBits_flush {pend : BitString} (h0 : pend.length ≠ 0) (h8 : pend.length < 8) :
    byteBits (accOf pend <<< (8 - pend.length)) = pend ++ List.replicate (8 - pend.length) false := by
  match pend, h0, h8 with
  | [a], _, _ => revert a; decide +kernel
  | [a, b], _, _ => revert a b; decide +kernel
  | [a, b, c], _, _ => revert a b c; decide +kernel
  | [a, b, c, d], _, _ => revert a b c d; decide +kernel
  | [a, b, c, d, e], _, _ => revert a b c d e; decide +kernel
  | [a, b, c, d, e, f], _, _ => revert a b c d e f; decide +kernel
  | [a, b, c, d, e, f, g], _, _ => revert a b c d e f g; decide +kernel

@[simp] theorem byteBits_length (b : Byte) : (byteBits b).length = 8 := rfl

@[simp] theorem payloadBits_nil : payloadBits [] = [] := rfl

theorem payloadBits_cons (b : Byte) (bs : List Byte) : payloadBits (b :: bs) = byteBits b ++ payloadBits bs := by
  simp [payloadBits]

theorem payloadBits_append (xs ys : List Byte) : payloadBits (xs ++ ys) = payloadBits xs ++ payloadBits ys := by
  simp [payloadBits]

/-- Bit `j` of byte `k` of a payload, counted from the top of the byte (R96). -/
theorem payloadBits_getD {bs : List Byte} {k j : Nat} (hk : k < bs.length) (hj : j < 8) :
    (payloadBits bs).getD (8 * k + j) false = bs[k].getLsbD (7 - j) := by
  induction bs generalizing k with
  | nil => simp at hk
  | cons b bs ih =>
    rw [payloadBits_cons, List.getD_eq_getElem?_getD]
    cases k with
    | zero =>
      rw [List.getElem?_append_left (by rw [byteBits_length]; omega)]
      obtain rfl | rfl | rfl | rfl | rfl | rfl | rfl | rfl :
        j = 0 ∨ j = 1 ∨ j = 2 ∨ j = 3 ∨ j = 4 ∨ j = 5 ∨ j = 6 ∨ j = 7 := by omega
      all_goals rfl
    | succ k =>
      rw [List.getElem?_append_right (by rw [byteBits_length]; omega), byteBits_length,
        show 8 * (k + 1) + j - 8 = 8 * k + j by omega, ← List.getD_eq_getElem?_getD, ih (by simpa using hk)]
      rfl

@[simp] theorem payloadBits_length (bs : List Byte) : (payloadBits bs).length = 8 * bs.length := by
  induction bs with
  | nil => rfl
  | cons b bs ih => rw [payloadBits_cons, List.length_append, ih, byteBits_length, List.length_cons]; omega

/-- The fault of a store run that begins at index `a`: the first index that is not below `DST_CAP`. -/
def overflowAt (cap a : Nat) : Raised := { kind := .dstOverflow, info := BitVec.ofNat 64 (max cap a) }

/-- The whole of the inner loop: the pending bits and the new ones, cut into bytes; it stops when one of these bytes has
no room (R175). -/
theorem packBits_spec (cap : Nat) (bits : BitString) {pend : BitString} {p : Packer} (ha : p.acc = accOf pend)
    (hn : p.accn = pend.length) (h8 : pend.length < 8) :
    (((pend.length + bits.length) / 8 = 0 ∨
        Config.payloadOff + p.pout + (pend.length + bits.length) / 8 ≤ cap) →
      ∃ out pend' q, packBits cap bits p = .ok (out, q) ∧ payloadBits out ++ pend' = pend ++ bits ∧
        out.length = (pend.length + bits.length) / 8 ∧ pend'.length < 8 ∧
        q = { acc := accOf pend', accn := pend'.length, pout := p.pout + out.length, nb := p.nb }) ∧
    (¬((pend.length + bits.length) / 8 = 0 ∨
        Config.payloadOff + p.pout + (pend.length + bits.length) / 8 ≤ cap) →
      packBits cap bits p = .error (overflowAt cap (Config.payloadOff + p.pout))) := by
  induction bits generalizing pend p with
  | nil =>
    refine ⟨fun _ => ⟨[], pend, p, rfl, by simp, by simp; omega, h8, ?_⟩, fun h => absurd (.inl ?_) h⟩
    · cases p; simp_all
    · simp; omega
  | cons b bits ih =>
    rw [packBits]
    by_cases hfull : p.accn + 1 = 8
    · rw [if_pos hfull]
      have hlen : (pend.length + (b :: bits).length) / 8 = 1 + bits.length / 8 := by
        rw [List.length_cons]; omega
      rw [hlen]
      have ih' := ih (pend := []) (p := { p with acc := 0, accn := 0, pout := p.pout + 1 }) rfl rfl (by simp)
      simp only [List.length_nil, Nat.zero_add, List.nil_append] at ih'
      by_cases hroom : Config.payloadOff + p.pout < cap
      · have hs : checkStore cap (Config.payloadOff + p.pout) = .ok () := by rw [checkStore, if_pos hroom]
        simp only [hs]
        refine ⟨fun h => ?_, fun h => ?_⟩
        · obtain ⟨out, pend', q, h1, h2, h3, h4, h5⟩ := ih'.1 (by omega)
          refine ⟨accPush p.acc b :: out, pend', q, by rw [h1], ?_, by rw [List.length_cons]; omega, h4, ?_⟩
          · rw [payloadBits_cons, ha, accOf_push, byteBits_accOf (by simp; omega), List.append_assoc, h2]; simp
          · rw [h5]; simp; omega
        · rw [ih'.2 (by omega)]
          simp only [overflowAt]
          congr 3
          omega
      · have hs : checkStore cap (Config.payloadOff + p.pout) =
            .error { kind := .dstOverflow, info := BitVec.ofNat 64 (Config.payloadOff + p.pout) } := by
          rw [checkStore, if_neg hroom]
        simp only [hs]
        refine ⟨fun h => absurd h (by omega), fun _ => ?_⟩
        simp only [overflowAt]
        congr 3
        omega
    · rw [if_neg hfull]
      have hlen : pend.length + (b :: bits).length = (pend ++ [b]).length + bits.length := by simp; omega
      rw [hlen]
      have ih' := ih (pend := pend ++ [b]) (p := { p with acc := accPush p.acc b, accn := p.accn + 1 })
        (by rw [← accOf_push, ← ha]) (by simp [hn]) (by simp; omega)
      simpa using ih'

theorem packBits_nb (cap : Nat) (bits : BitString) (p : Packer) (n : Nat) :
    packBits cap bits { p with nb := n } =
      (match packBits cap bits p with
      | .error r => .error r
      | .ok (out, q) => .ok (out, { q with nb := n })) := by
  induction bits generalizing p with
  | nil => rfl
  | cons b bits ih =>
    rw [packBits, packBits]
    by_cases hfull : p.accn + 1 = 8
    · rw [if_pos hfull, if_pos hfull]
      cases hs : checkStore cap (Config.payloadOff + p.pout) with
      | error e => rfl
      | ok u =>
        have := ih { p with acc := 0, accn := 0, pout := p.pout + 1 }
        simp only at this ⊢
        rw [this]
        cases packBits cap bits { p with acc := 0, accn := 0, pout := p.pout + 1 } <;> rfl
    · rw [if_neg hfull, if_neg hfull]
      exact ih { p with acc := accPush p.acc b, accn := p.accn + 1 }

theorem packBits_append (cap : Nat) (xs ys : BitString) (p : Packer) :
    packBits cap (xs ++ ys) p =
      (match packBits cap xs p with
      | .error r => .error r
      | .ok (out, q) =>
        match packBits cap ys q with
        | .error r => .error r
        | .ok (out', q') => .ok (out ++ out', q')) := by
  induction xs generalizing p with
  | nil =>
    show packBits cap ys p = (match packBits cap ys p with | .error r => .error r | .ok (out', q') => .ok ([] ++ out', q'))
    cases packBits cap ys p <;> rfl
  | cons b xs ih =>
    rw [List.cons_append, packBits, packBits]
    by_cases hfull : p.accn + 1 = 8
    · rw [if_pos hfull, if_pos hfull]
      cases hs : checkStore cap (Config.payloadOff + p.pout) with
      | error e => rfl
      | ok u =>
        simp only [ih]
        cases packBits cap xs { p with acc := 0, accn := 0, pout := p.pout + 1 } with
        | error e => rfl
        | ok r =>
          simp only
          cases packBits cap ys r.2 <;> rfl
    · rw [if_neg hfull, if_neg hfull]
      exact ih _

theorem codeBits_cons (code : CodeTable) (v : Byte) (bytes : List Byte) :
    codeBits code (v :: bytes) = code[v.toNat] ++ codeBits code bytes := by simp [codeBits]

theorem codeBits_append (code : CodeTable) (xs ys : List Byte) :
    codeBits code (xs ++ ys) = codeBits code xs ++ codeBits code ys := by simp [codeBits]

/-- The total is the sum, over all byte values, of occurrences times length (R178). -/
theorem codeBits_length_eq (code : CodeTable) (bytes : List Byte) : (codeBits code bytes).length =
    (allBytes.map (fun v => occurrences v bytes * code[v.toNat].length)).sum := by
  induction bytes with
  | nil => simp [codeBits, occurrences]
  | cons b bytes ih =>
    rw [codeBits_cons, List.length_append, ih, Nat.add_comm]
    symm
    apply sum_map_update allBytes_nodup (mem_allBytes b)
    · intro v hv; rw [occurrences_cons, if_neg (Ne.symm hv), Nat.add_zero]
    · rw [occurrences_cons, if_pos rfl, Nat.add_mul, Nat.one_mul]

/-- The outer loop over bytes that all have codes, with a total that fits, is the inner loop over their bits. -/
theorem packBytes_eq (code : CodeTable) (cap : Nat) (bytes : List Byte) (i : Nat) (p : Packer)
    (hc : ∀ v ∈ bytes, code[v.toNat] ≠ []) (hm : p.nb + (codeBits code bytes).length ≤ Config.fieldMax) :
    packBytes code cap bytes i p =
      (match packBits cap (codeBits code bytes) p with
      | .error r => .error r
      | .ok (out, q) => .ok (out, { q with nb := p.nb + (codeBits code bytes).length })) := by
  induction bytes generalizing i p with
  | nil => simp [packBytes, codeBits, packBits]
  | cons v bytes ih =>
    have hv : code[v.toNat].length ≠ 0 := by
      intro h; exact hc v (by simp) (List.length_eq_zero_iff.mp h)
    rw [codeBits_cons, List.length_append] at hm
    rw [packBytes, if_neg hv, if_neg (by omega), codeBits_cons, packBits_append]
    cases packBits cap code[v.toNat] p with
    | error e => rfl
    | ok r =>
      simp only
      rw [ih (i + 1) _ (fun w hw => hc w (by simp [hw])) (by simp only; omega), packBits_nb]
      cases packBits cap (codeBits code bytes) r.2 with
      | error e => rfl
      | ok r' => simp [Nat.add_assoc]

theorem packBytes_append (code : CodeTable) (cap : Nat) (xs ys : List Byte) (i : Nat) (p : Packer) :
    packBytes code cap (xs ++ ys) i p =
      (match packBytes code cap xs i p with
      | .error r => .error r
      | .ok (out, q) =>
        match packBytes code cap ys (i + xs.length) q with
        | .error r => .error r
        | .ok (out', q') => .ok (out ++ out', q')) := by
  induction xs generalizing i p with
  | nil =>
    show packBytes code cap ys i p =
      (match packBytes code cap ys i p with | .error r => .error r | .ok (out', q') => .ok ([] ++ out', q'))
    cases packBytes code cap ys i p <;> rfl
  | cons v xs ih =>
    rw [List.cons_append, packBytes, packBytes]
    split
    · rfl
    · split
      · rfl
      · cases packBits cap code[v.toNat] p with
        | error e => rfl
        | ok r =>
          have hi : i + 1 + xs.length = i + (v :: xs).length := by simp; omega
          simp only [ih, hi]
          cases packBytes code cap xs (i + 1) { r.2 with nb := p.nb + code[v.toNat].length } with
          | error e => rfl
          | ok r' =>
            simp only
            cases packBytes code cap ys (i + (v :: xs).length) r'.2 with
            | error e => rfl
            | ok r'' => simp

/-- A run of bytes that the outer loop accepts: every byte has a code and the total fits (R179, R180). -/
theorem packBytes_ok {code : CodeTable} {cap : Nat} {bytes : List Byte} {i : Nat} {p q : Packer} {out : List Byte}
    (h : packBytes code cap bytes i p = .ok (out, q)) (hp : p.nb ≤ Config.fieldMax) :
    (∀ v ∈ bytes, code[v.toNat] ≠ []) ∧ p.nb + (codeBits code bytes).length ≤ Config.fieldMax := by
  induction bytes generalizing i p q out with
  | nil => exact ⟨by simp, by simpa [codeBits] using hp⟩
  | cons v bytes ih =>
    rw [packBytes] at h
    split at h
    · cases h
    · next hv =>
      split at h
      · cases h
      · next hm =>
        split at h
        · cases h
        · split at h
          · cases h
          · next out' q' hb =>
            obtain ⟨h1, h2⟩ := ih hb (by simp only; omega)
            refine ⟨fun w hw => ?_, ?_⟩
            · rcases List.mem_cons.mp hw with rfl | hw
              · intro he; rw [he] at hv; exact hv rfl
              · exact h1 w hw
            · rw [codeBits_cons, List.length_append]; simp only at h2; omega

theorem ceil8_eq (n : Nat) : ceil8 n = n / 8 + if n % 8 = 0 then 0 else 1 := by
  unfold ceil8; split <;> omega

/-- `PACK` over bytes that all have codes, with a total that fits (R175 to R178, R181). -/
theorem packAll_spec {code : CodeTable} {cap : Nat} {bytes : List Byte} (hc : ∀ v ∈ bytes, code[v.toNat] ≠ [])
    (hm : (codeBits code bytes).length ≤ Config.fieldMax) :
    ((ceil8 (codeBits code bytes).length = 0 ∨ Config.payloadOff + ceil8 (codeBits code bytes).length ≤ cap) →
      ∃ payload, packAll code cap bytes = .ok (payload, (codeBits code bytes).length) ∧
        payload.length = ceil8 (codeBits code bytes).length ∧
        payloadBits payload = codeBits code bytes ++
          List.replicate (8 * ceil8 (codeBits code bytes).length - (codeBits code bytes).length) false) ∧
    (¬(ceil8 (codeBits code bytes).length = 0 ∨ Config.payloadOff + ceil8 (codeBits code bytes).length ≤ cap) →
      packAll code cap bytes = .error (overflowAt cap Config.payloadOff)) := by
  have hspec := packBits_spec cap (codeBits code bytes) (pend := []) (p := Packer.start) rfl rfl (by simp)
  simp only [List.length_nil, Nat.zero_add, List.nil_append, Packer.start, Nat.add_zero] at hspec
  have heq := packBytes_eq code cap bytes 0 Packer.start hc (by simpa [Packer.start] using hm)
  have hceil := ceil8_eq (codeBits code bytes).length
  generalize hL : (codeBits code bytes).length = L at *
  by_cases hbits : L / 8 = 0 ∨ Config.payloadOff + L / 8 ≤ cap
  · obtain ⟨out, pend', q, h1, h2, h3, h4, h5⟩ := hspec.1 hbits
    simp only [Packer.start, h1] at heq
    have hlen : 8 * out.length + pend'.length = L := by
      have := congrArg List.length h2
      rw [List.length_append, payloadBits_length, hL] at this; exact this
    unfold packAll
    simp only [Packer.start, heq, packFlush, h5, Nat.zero_add]
    by_cases hp : pend'.length = 0
    · simp only [hp, if_true]
      have hmod : L % 8 = 0 := by omega
      rw [if_pos hmod] at hceil
      refine ⟨fun _ => ⟨out ++ [], rfl, by simp; omega, ?_⟩, fun h => absurd (by omega) h⟩
      rw [List.length_eq_zero_iff.mp hp, List.append_nil] at h2
      rw [List.append_nil, h2, show 8 * ceil8 L - L = 0 by omega]; simp
    · have hmod : L % 8 ≠ 0 := by omega
      rw [if_neg hmod] at hceil
      simp only [hp, if_false]
      refine ⟨fun hroom => ?_, fun hroom => ?_⟩
      · have hs : checkStore cap (Config.payloadOff + out.length) = .ok () := by
          rw [checkStore, if_pos (by omega)]
        simp only [hs]
        refine ⟨_, rfl, by simp; omega, ?_⟩
        rw [payloadBits_append, payloadBits_cons, payloadBits_nil, List.append_nil, byteBits_flush hp h4,
          ← List.append_assoc, h2]
        congr 2
        omega
      · have hs : checkStore cap (Config.payloadOff + out.length) =
            .error { kind := .dstOverflow, info := BitVec.ofNat 64 (Config.payloadOff + out.length) } := by
          rw [checkStore, if_neg (by omega)]
        simp only [hs, overflowAt]
        congr 3
        omega
  · have h1 := hspec.2 hbits
    simp only [Packer.start, h1] at heq
    unfold packAll
    simp only [Packer.start, heq]
    exact ⟨fun h => absurd h (by split at hceil <;> omega), fun _ => trivial⟩

/-- What a `PACK` that completes has done (R176, R178). -/
theorem packAll_ok {code : CodeTable} {cap : Nat} {bytes payload : List Byte} {nb : Nat}
    (h : packAll code cap bytes = .ok (payload, nb)) :
    (∀ v ∈ bytes, code[v.toNat] ≠ []) ∧ nb = (codeBits code bytes).length ∧ nb ≤ Config.fieldMax ∧
    payload.length = ceil8 nb ∧ (ceil8 nb = 0 ∨ Config.payloadOff + ceil8 nb ≤ cap) ∧
    payloadBits payload = codeBits code bytes ++ List.replicate (8 * ceil8 nb - nb) false := by
  have hb : ∃ out q, packBytes code cap bytes 0 Packer.start = .ok (out, q) := by
    unfold packAll at h
    split at h
    · cases h
    · next out q hq => exact ⟨out, q, hq⟩
  obtain ⟨out, q, hq⟩ := hb
  obtain ⟨hc, hm⟩ := packBytes_ok hq (by simp [Packer.start])
  have hm' : (codeBits code bytes).length ≤ Config.fieldMax := by simpa [Packer.start] using hm
  have hs := packAll_spec (cap := cap) hc hm'
  by_cases hroom : ceil8 (codeBits code bytes).length = 0 ∨
      Config.payloadOff + ceil8 (codeBits code bytes).length ≤ cap
  · obtain ⟨payload', h1, h2, h3⟩ := hs.1 hroom
    rw [h1] at h
    cases h
    exact ⟨hc, rfl, hm', h2, hroom, h3⟩
  · rw [hs.2 hroom] at h; cases h

/-- Where the codes of a first part of the source complete a byte that has no room, `PACK` stops there, whatever follows
(R62, R251). -/
theorem packAll_overflow {code : CodeTable} {cap : Nat} {pre : List Byte} (post : List Byte)
    (hc : ∀ u ∈ pre, code[u.toNat] ≠ []) (hm : (codeBits code pre).length ≤ Config.fieldMax)
    (h8 : 8 ≤ (codeBits code pre).length) (hroom : cap < Config.payloadOff + (codeBits code pre).length / 8) :
    packAll code cap (pre ++ post) = .error (overflowAt cap Config.payloadOff) := by
  have hspec := (packBits_spec cap (codeBits code pre) (pend := []) (p := Packer.start) rfl rfl (by simp)).2
  simp only [List.length_nil, Nat.zero_add, Packer.start, Nat.add_zero] at hspec
  have heq := packBytes_eq code cap pre 0 Packer.start hc (by simpa [Packer.start] using hm)
  simp only [Packer.start, hspec (by omega)] at heq
  unfold packAll
  rw [packBytes_append]
  simp only [Packer.start, heq]

/-- Where `PACK` stops on a byte: everything before it was packed, and it has no code or does not fit (R179, R180). -/
theorem packAll_stop {code : CodeTable} {cap : Nat} {pre post : List Byte} {v : Byte}
    (hc : ∀ u ∈ pre, code[u.toNat] ≠ []) (hm : (codeBits code pre).length ≤ Config.fieldMax)
    (hroom : (codeBits code pre).length / 8 = 0 ∨ Config.payloadOff + (codeBits code pre).length / 8 ≤ cap) :
    (code[v.toNat] = [] →
      packAll code cap (pre ++ v :: post) = .error { kind := .lookup, info := BitVec.ofNat 64 pre.length }) ∧
    (code[v.toNat] ≠ [] → Config.fieldMax < (codeBits code pre).length + code[v.toNat].length →
      packAll code cap (pre ++ v :: post) = .error { kind := .bitCountRange, info := BitVec.ofNat 64 pre.length }) := by
  have hspec := packBits_spec cap (codeBits code pre) (pend := []) (p := Packer.start) rfl rfl (by simp)
  simp only [List.length_nil, Nat.zero_add, List.nil_append, Packer.start, Nat.add_zero] at hspec
  have heq := packBytes_eq code cap pre 0 Packer.start hc (by simpa [Packer.start] using hm)
  obtain ⟨out, pend', q, h1, _⟩ := hspec.1 hroom
  simp only [Packer.start, h1, Nat.zero_add] at heq
  unfold packAll
  rw [packBytes_append]
  simp only [Packer.start, heq, Nat.zero_add]
  refine ⟨fun hv => ?_, fun hv hbig => ?_⟩
  · rw [packBytes, if_pos (by rw [hv]; rfl)]
  · rw [packBytes, if_neg (fun h => hv (List.length_eq_zero_iff.mp h)), if_pos (by simp only; omega)]

theorem checkStore_error {cap a : Nat} {r : Raised} (h : checkStore cap a = .error r) : r.kind = .dstOverflow := by
  unfold checkStore at h
  split at h
  · cases h
  · cases h; rfl

theorem packBits_error {cap : Nat} {bits : BitString} {p : Packer} {r : Raised} (h : packBits cap bits p = .error r) :
    r.kind = .dstOverflow := by
  induction bits generalizing p with
  | nil => rw [packBits] at h; cases h
  | cons b bits ih =>
    rw [packBits] at h
    split at h
    · split at h
      · next hs => cases h; exact checkStore_error hs
      · split at h
        · next hs => cases h; exact ih hs
        · cases h
    · exact ih h

theorem packBytes_error {code : CodeTable} {cap : Nat} {bytes : List Byte} {i : Nat} {p : Packer} {r : Raised}
    (h : packBytes code cap bytes i p = .error r) :
    (r.kind = .lookup ∧ ∃ v ∈ bytes, code[v.toNat] = []) ∨ r.kind = .bitCountRange ∨ r.kind = .dstOverflow := by
  induction bytes generalizing i p with
  | nil => rw [packBytes] at h; cases h
  | cons v bytes ih =>
    rw [packBytes] at h
    split at h
    · next hz => cases h; exact .inl ⟨rfl, v, by simp, List.length_eq_zero_iff.mp hz⟩
    · split at h
      · cases h; exact .inr (.inl rfl)
      · split at h
        · next hs => cases h; exact .inr (.inr (packBits_error hs))
        · split at h
          · next hs =>
            cases h
            rcases ih hs with ⟨hk, w, hw, hn⟩ | hk
            · exact .inl ⟨hk, w, List.mem_cons_of_mem _ hw, hn⟩
            · exact .inr hk
          · cases h

/-- The faults of `PACK` (R175): `Lookup` only for a byte without a code. -/
theorem packAll_error {code : CodeTable} {cap : Nat} {bytes : List Byte} {r : Raised}
    (h : packAll code cap bytes = .error r) :
    (r.kind = .lookup ∧ ∃ v ∈ bytes, code[v.toNat] = []) ∨ r.kind = .bitCountRange ∨ r.kind = .dstOverflow := by
  unfold packAll at h
  split at h
  · next hs => cases h; exact packBytes_error hs
  · split at h
    · next hs =>
      cases h
      unfold packFlush at hs
      split at hs
      · cases hs
      · split at hs
        · next hc => cases hs; exact .inr (.inr (checkStore_error hc))
        · cases hs
    · cases h

/-- The faults of `UNPACK` (R190). -/
theorem walk_error_kind {nodes : List Node} {root i : NodeIdx} {cap : Nat} {bits : BitString} {k nout : Nat} {e : Raised}
    (h : walk nodes root cap bits k i nout = .error e) : e.kind = .malformedStream ∨ e.kind = .dstOverflow := by
  induction bits generalizing k i nout e with
  | nil =>
    rw [walk] at h
    split at h
    · cases h
    · cases h; exact .inl rfl
  | cons b bits ih =>
    rw [walk] at h
    split at h
    · cases h; exact .inl rfl
    · cases h; exact .inl rfl
    · split at h
      · cases h; exact .inl rfl
      · exact ih h
      · split at h
        · next hs => cases h; exact .inr (checkStore_error hs)
        · split at h
          · next hs => cases h; exact ih hs
          · cases h

end Sys2Proof.Machine
end

