-- ==== Sys2Proof/Laws/Container.lean ====
section
/-! SUPPORT. The header: big-endian fields there and back, and what `WRHDR` and `PARSE` make of them (R95, R205 to
R212). -/

namespace Sys2Proof.Machine

@[simp] theorem be32Bytes_length (v : BitVec 32) : (be32Bytes v).length = 4 := rfl

/-- Reading a field that was written gives its value (R95). -/
theorem be32_be32Bytes (v : BitVec 32) :
    be32 (v.extractLsb' 24 8) (v.extractLsb' 16 8) (v.extractLsb' 8 8) (v.extractLsb' 0 8) = v := by
  apply BitVec.eq_of_getLsbD_eq
  intro i hi
  simp only [be32, BitVec.getLsbD_append, BitVec.getLsbD_extractLsb']
  by_cases h1 : i < 8
  · simp [h1]
  · by_cases h2 : i < 16
    · simp [h1, show i - 8 < 8 by omega, show 8 + (i - 8) = i by omega]
    · by_cases h3 : i < 24
      · simp [h1, show ¬ i - 8 < 8 by omega, show i - 8 - 8 < 8 by omega, show 16 + (i - 8 - 8) = i by omega]
      · simp [h1, show ¬ i - 8 < 8 by omega, show ¬ i - 8 - 8 < 8 by omega, show i - 8 - 8 - 8 < 8 by omega,
          show 24 + (i - 8 - 8 - 8) = i by omega]

/-- The value of a field in the arithmetic of R95. -/
theorem be32_toNat (b0 b1 b2 b3 : Byte) :
    (be32 b0 b1 b2 b3).toNat = b0.toNat * 2 ^ 24 + b1.toNat * 2 ^ 16 + b2.toNat * 2 ^ 8 + b3.toNat := by
  have h0 := b0.isLt
  have h1 := b1.isLt
  have h2 := b2.isLt
  have h3 := b3.isLt
  simp only [be32, BitVec.toNat_append]
  rw [← Nat.shiftLeft_add_eq_or_of_lt h3, ← Nat.shiftLeft_add_eq_or_of_lt h2, ← Nat.shiftLeft_add_eq_or_of_lt h1]
  simp only [Nat.shiftLeft_eq]
  omega

theorem be32Fields_append (v : BitVec 32) (rest : List Byte) :
    be32Fields (be32Bytes v ++ rest) = v :: be32Fields rest := by
  simp [be32Bytes, be32Fields, be32_be32Bytes]

theorem be32Fields_flatMap (vs : List (BitVec 32)) (rest : List Byte) :
    be32Fields (vs.flatMap be32Bytes ++ rest) = vs ++ be32Fields rest := by
  induction vs with
  | nil => rfl
  | cons v vs ih => rw [List.flatMap_cons, List.append_assoc, be32Fields_append, ih]; rfl

/-- A field of a run, from its four bytes. -/
theorem be32Fields_getElem? (l : List Byte) (k : Nat) {b0 b1 b2 b3 : Byte} (h0 : l[4 * k]? = some b0)
    (h1 : l[4 * k + 1]? = some b1) (h2 : l[4 * k + 2]? = some b2) (h3 : l[4 * k + 3]? = some b3) :
    (be32Fields l)[k]? = some (be32 b0 b1 b2 b3) := by
  induction k generalizing l with
  | zero =>
    match l, h3 with
    | c0 :: c1 :: c2 :: c3 :: rest, h3 => simp at h0 h1 h2 h3; subst h0 h1 h2 h3; simp [be32Fields]
    | [], h3 => simp at h3
    | [_], h3 => simp at h3
    | [_, _], h3 => simp at h3
    | [_, _, _], h3 => simp at h3
  | succ k ih =>
    match l, h3 with
    | c0 :: c1 :: c2 :: c3 :: rest, h3 =>
      rw [be32Fields, List.getElem?_cons_succ]
      have hs : ∀ j, 4 * (k + 1) + j = (4 * k + j) + 1 + 1 + 1 + 1 := fun j => by omega
      refine ih rest ?_ ?_ ?_ ?_
      · rw [show 4 * (k + 1) = 4 * k + 1 + 1 + 1 + 1 by omega] at h0; simpa using h0
      · rw [hs] at h1; simpa using h1
      · rw [hs] at h2; simpa using h2
      · rw [hs] at h3; simpa using h3
    | [], h3 => simp at h3
    | [_], h3 => simp at h3
    | [_, _], h3 => simp at h3
    | [_, _, _], h3 => simp at h3

theorem headerBytes_eq (h : Hist) (vbits : BitVec 32) :
    headerBytes h vbits = (h.toList.map (fun c => c.setWidth 32)).flatMap be32Bytes ++ be32Bytes vbits := by
  rw [headerBytes, List.flatMap_map]

theorem flatMap_be32Bytes_length (vs : List (BitVec 32)) : (vs.flatMap be32Bytes).length = 4 * vs.length := by
  induction vs with
  | nil => rfl
  | cons v vs ih => rw [List.flatMap_cons, List.length_append, ih, be32Bytes_length, List.length_cons]; omega

/-- The header has 1028 bytes (R94). -/
@[simp] theorem headerBytes_length (h : Hist) (vbits : BitVec 32) : (headerBytes h vbits).length = 1028 := by
  rw [headerBytes_eq, List.length_append, flatMap_be32Bytes_length, be32Bytes_length]; simp

/-- The fields of a written header. -/
theorem be32Fields_headerBytes (h : Hist) (vbits : BitVec 32) :
    be32Fields (headerBytes h vbits) = h.toList.map (fun c => c.setWidth 32) ++ [vbits] := by
  rw [headerBytes_eq, be32Fields_flatMap]
  have : be32Fields (be32Bytes vbits) = [vbits] := by
    have := be32Fields_append vbits []
    rwa [List.append_nil] at this
  rw [this]

/-- Byte `j` of field `k` in a run of written fields. -/
theorem flatMap_be32Bytes_getElem? {vs : List (BitVec 32)} {k j : Nat} (hk : k < vs.length) (hj : j < 4) :
    (vs.flatMap be32Bytes)[4 * k + j]? = some (vs[k].extractLsb' (24 - 8 * j) 8) := by
  induction vs generalizing k with
  | nil => simp at hk
  | cons v vs ih =>
    rw [List.flatMap_cons]
    cases k with
    | zero =>
      rw [List.getElem?_append_left (by rw [be32Bytes_length]; omega)]
      obtain rfl | rfl | rfl | rfl : j = 0 ∨ j = 1 ∨ j = 2 ∨ j = 3 := by omega
      all_goals rfl
    | succ k =>
      rw [List.getElem?_append_right (by rw [be32Bytes_length]; omega), be32Bytes_length,
        show 4 * (k + 1) + j - 4 = 4 * k + j by omega, ih (by simpa using hk)]
      rfl

/-- Byte `j` of the count of `v` in a written header. -/
theorem headerBytes_count (h : Hist) (vbits : BitVec 32) (v : Byte) {j : Nat} (hj : j < 4) :
    (headerBytes h vbits)[4 * v.toNat + j]? = some (h[v.toNat].extractLsb' (24 - 8 * j) 8) := by
  have hv := v.isLt
  rw [headerBytes_eq, List.getElem?_append_left (by rw [flatMap_be32Bytes_length]; simp; omega),
    flatMap_be32Bytes_getElem? (by simp; omega) hj]
  simp only [List.getElem_map, Vector.getElem_toList, Option.some.injEq]
  apply BitVec.eq_of_getLsbD_eq
  intro i hi
  simp only [BitVec.getLsbD_extractLsb', BitVec.getLsbD_setWidth, decide_eq_true (show 24 - 8 * j + i < 32 by omega),
    Bool.true_and]

/-- Byte `j` of the bit count in a written header. -/
theorem headerBytes_vbits (h : Hist) (vbits : BitVec 32) {j : Nat} (hj : j < 4) :
    (headerBytes h vbits)[1024 + j]? = some (vbits.extractLsb' (24 - 8 * j) 8) := by
  rw [headerBytes_eq, List.getElem?_append_right (by rw [flatMap_be32Bytes_length]; simp), flatMap_be32Bytes_length]
  simp only [List.length_map, Vector.length_toList, show 1024 + j - 4 * 256 = j by omega]
  obtain rfl | rfl | rfl | rfl : j = 0 ∨ j = 1 ∨ j = 2 ∨ j = 3 := by omega
  all_goals rfl

/-- One byte of a run of `SRC`. -/
theorem srcRun_getElem? {s : State} (hw : Memory.wf s.src) {a n i : Nat} (hi : i < n) :
    (srcRun s a n)[i]? = some (srcByte s (a + i)) := by
  rw [srcRun_eq hw, List.getElem?_map, List.getElem?_range' hi, Nat.one_mul]; rfl

/-- The fields of the header in `SRC` (R207). -/
theorem headerFields_getD {s : State} (hw : Memory.wf s.src) {k : Nat} (hk : k < 257) :
    (headerFields s).getD k 0 =
      be32 (srcByte s (4 * k)) (srcByte s (4 * k + 1)) (srcByte s (4 * k + 2)) (srcByte s (4 * k + 3)) := by
  rw [List.getD_eq_getElem?_getD, headerFields]
  have hget : ∀ i, i < 1028 → (srcRun s 0 Config.hdrBytes)[i]? = some (srcByte s i) := by
    intro i hi; rw [srcRun_getElem? hw (by exact hi), Nat.zero_add]
  rw [be32Fields_getElem? _ k (hget (4 * k) (by omega)) (hget _ (by omega)) (hget _ (by omega)) (hget _ (by omega))]
  rfl

theorem headerFields_vbits {s : State} (hw : Memory.wf s.src) : vbitsOfFields (headerFields s) =
    be32 (srcByte s 1024) (srcByte s 1025) (srcByte s 1026) (srcByte s 1027) :=
  headerFields_getD hw (k := 256) (by omega)

theorem histOfFields_getElem (fields : List (BitVec 32)) (v : Byte) :
    (histOfFields fields)[v.toNat] = (fields.getD v.toNat 0).setWidth 64 := by
  unfold histOfFields; rw [Vector.getElem_ofFn]

theorem histOfFields_le (fields : List (BitVec 32)) (v : Byte) :
    (histOfFields fields)[v.toNat].toNat ≤ Config.fieldMax := by
  rw [histOfFields_getElem, BitVec.toNat_setWidth]
  have := (fields.getD v.toNat 0).isLt
  rw [Nat.mod_eq_of_lt (by omega)]
  show _ ≤ 2 ^ 32 - 1
  omega

/-- Parsing the header of a histogram whose counts fit gives the histogram back (R212). -/
theorem histOfFields_header {h : Hist} (hm : ∀ v : Byte, h[v.toNat].toNat ≤ Config.fieldMax) (vbits : BitVec 32) :
    histOfFields (be32Fields (headerBytes h vbits)) = h := by
  apply table_ext
  intro v
  have hv : v.toNat < 256 := v.isLt
  rw [histOfFields_getElem, be32Fields_headerBytes]
  have : (h.toList.map (fun c => c.setWidth 32) ++ [vbits]).getD v.toNat 0 = h[v.toNat].setWidth 32 := by
    rw [List.getD_eq_getElem?_getD, List.getElem?_append_left (by simpa using hv)]
    simp [hv]
  rw [this]
  apply BitVec.eq_of_toNat_eq
  have := hm v
  have hmax : Config.fieldMax = 2 ^ 32 - 1 := rfl
  rw [BitVec.toNat_setWidth, BitVec.toNat_setWidth, Nat.mod_eq_of_lt, Nat.mod_eq_of_lt] <;> omega

theorem vbitsOfFields_header (h : Hist) (vbits : BitVec 32) :
    vbitsOfFields (be32Fields (headerBytes h vbits)) = vbits := by
  rw [vbitsOfFields, be32Fields_headerBytes, List.getD_eq_getElem?_getD, List.getElem?_append_right (by simp)]
  simp

/-- No count is too large exactly when every count fits the field (R206). -/
theorem countTooLarge_none {h : Hist} : countTooLarge h = none ↔ ∀ v : Byte, h[v.toNat].toNat ≤ Config.fieldMax := by
  rw [countTooLarge, Option.map_eq_none_iff, List.find?_eq_none, entries_eq]
  simp [mem_allBytes]

theorem find?_map_lowest {p : Byte → Bool} {l : List Byte} (hs : l.Pairwise (fun v w => v.toNat < w.toNat)) {v : Byte}
    (h : l.find? p = some v) : p v = true ∧ ∀ w ∈ l, w.toNat < v.toNat → p w = false := by
  refine ⟨List.find?_some h, ?_⟩
  induction l with
  | nil => cases h
  | cons x xs ih =>
    rw [List.pairwise_cons] at hs
    rw [List.find?_cons] at h
    split at h
    · cases h
      intro w hw hlt
      rcases List.mem_cons.mp hw with rfl | hw
      · omega
      · have := hs.1 w hw; omega
    · next hx =>
      intro w hw hlt
      rcases List.mem_cons.mp hw with rfl | hw
      · simpa using hx
      · exact ih hs.2 h w hw hlt

/-- The byte value that `CountRange` names is the lowest whose count does not fit (R206). -/
theorem countTooLarge_some {h : Hist} {v : Byte} (hv : countTooLarge h = some v) :
    Config.fieldMax < h[v.toNat].toNat ∧ ∀ w : Byte, w.toNat < v.toNat → h[w.toNat].toNat ≤ Config.fieldMax := by
  have : allBytes.find? (fun v => decide (Config.fieldMax < h[v.toNat].toNat)) = some v := by
    rw [countTooLarge, entries_eq, List.find?_map, Option.map_map] at hv
    simpa [Function.comp_def] using hv
  obtain ⟨h1, h2⟩ := find?_map_lowest allBytes_sorted this
  refine ⟨by simpa using h1, fun w hw => ?_⟩
  have := h2 w (mem_allBytes w) hw
  simpa using this

/-- And the other way round. -/
theorem countTooLarge_eq {h : Hist} {v : Byte} (h1 : Config.fieldMax < h[v.toNat].toNat)
    (h2 : ∀ w : Byte, w.toNat < v.toNat → h[w.toNat].toNat ≤ Config.fieldMax) : countTooLarge h = some v := by
  cases hc : countTooLarge h with
  | none => have := countTooLarge_none.mp hc v; omega
  | some w =>
    obtain ⟨g1, g2⟩ := countTooLarge_some hc
    by_cases hlt : w.toNat < v.toNat
    · have := h2 w hlt; omega
    · by_cases hgt : v.toNat < w.toNat
      · have := g2 v hgt; omega
      · congr 1
        exact toNat_inj8.mp (by omega)

/-! The payload bits that `UNPACK` reads. -/

theorem le_ceil8 (n : Nat) : n ≤ 8 * ceil8 n := by unfold ceil8; omega

@[simp] theorem streamBits_length (s : State) : (streamBits s).length = s.vbits.toNat := by
  rw [streamBits, List.length_take, payloadBits_length, srcRun_length]
  have := le_ceil8 s.vbits.toNat; omega

/-- Bit `i` of the stream is bit `7 - i mod 8` of the `SRC` byte `1028 + i div 8` (R191). -/
theorem streamBits_getD {s : State} (hw : Memory.wf s.src) {i : Nat} (hi : i < s.vbits.toNat) :
    (streamBits s).getD i false = (srcByte s (1028 + i / 8)).getLsbD (7 - i % 8) := by
  have h8 : i / 8 < ceil8 s.vbits.toNat := by unfold ceil8; omega
  have hl : i / 8 < (srcRun s Config.payloadOff (ceil8 s.vbits.toNat)).length := by rw [srcRun_length]; exact h8
  rw [streamBits, List.getD_eq_getElem?_getD, List.getElem?_take, if_pos hi, ← List.getD_eq_getElem?_getD]
  have h := payloadBits_getD (j := i % 8) hl (by omega)
  rw [show 8 * (i / 8) + i % 8 = i by omega] at h
  rw [h, (List.getElem?_eq_some_iff.mp (srcRun_getElem? hw h8)).2]
  rfl

/-- Two bit-strings of one length with the same bits are equal. -/
theorem bits_ext {xs ys : BitString} (hl : xs.length = ys.length)
    (h : ∀ i < xs.length, xs.getD i false = ys.getD i false) : xs = ys := by
  apply List.ext_getElem hl
  intro i h1 h2
  have := h i h1
  rwa [List.getD_eq_getElem _ _ h1, List.getD_eq_getElem _ _ h2] at this

/-- The code table derived from a tree that `BUILD` made is that of its histogram. -/
theorem State.TreeBuilt.codeOf {s : State} (hT : s.TreeBuilt) {code : CodeTable}
    (hd : deriveTable s.nodes s.root = some code) : ∃ t, CodeOf s.hist code t := by
  obtain ⟨code', t, h1, h2⟩ := codeOfHist_spec hT.1
  have : deriveTable s.nodes s.root = some code' := by rw [hT.2.1, hT.2.2.1]; exact h1
  rw [hd] at this; cases this; exact ⟨t, h2⟩

theorem codeBits_length_le {code : CodeTable} {n : Nat} (h : ∀ v : Byte, code[v.toNat].length ≤ n) (bytes : List Byte) :
    (codeBits code bytes).length ≤ bytes.length * n := by
  induction bytes with
  | nil => simp [codeBits]
  | cons b bs ih => rw [codeBits_cons, List.length_append, List.length_cons, Nat.add_mul, Nat.one_mul]; have := h b; omega

end Sys2Proof.Machine
end

