-- ==== Sys2Proof/Laws/Decode.lean ====
section
/-! SUPPORT. The command word: what `decode` and `regAt` answer, as equivalences. -/

namespace Sys2Proof

theorem opcodeTable_mask {r : OpRow} (h : r ∈ opcodeTable) : r.mask = BitVec.allOnes 64 ∧ r.pattern = encode r.instr := by
  revert r; decide

theorem mem_opcodeTable (i : Instr) : { instr := i, mask := BitVec.allOnes 64, pattern := encode i } ∈ opcodeTable := by
  cases i <;> decide

theorem encode_injective {i j : Instr} (h : encode i = encode j) : i = j := by
  revert h; cases i <;> cases j <;> decide

/-- A word selects a command exactly when it is that command's word. -/
theorem decode_eq_ok {w : Word} {i : Instr} : decode w = .ok i ↔ w = encode i := by
  unfold decode
  constructor
  · intro h
    split at h
    · next r hr =>
      cases h
      have hm := opcodeTable_mask (List.mem_of_find?_eq_some hr)
      have hp := List.find?_some hr
      rw [hm.1, hm.2, BitVec.and_allOnes, beq_iff_eq] at hp
      exact hp
    · cases h
  · rintro rfl
    split
    · next r hr =>
      have hm := opcodeTable_mask (List.mem_of_find?_eq_some hr)
      have hp := List.find?_some hr
      rw [hm.1, hm.2, BitVec.and_allOnes, beq_iff_eq] at hp
      rw [encode_injective hp]
    · next hr =>
      rw [List.find?_eq_none] at hr
      exact absurd (by simp only [BitVec.and_allOnes, beq_self_eq_true]) (hr _ (mem_opcodeTable i))

/-- The two fields of a word (R90). -/
theorem word_fields (w : Word) : w = w.extractLsb' 8 56 ++ w.extractLsb' 0 8 := by
  apply BitVec.eq_of_getLsbD_eq
  intro k hk
  rw [BitVec.getLsbD_append]
  simp only [BitVec.getLsbD_extractLsb']
  by_cases h : k < 8
  · simp [h]
  · rw [if_neg h, show 8 + (k - 8) = k by omega]; simp; omega

theorem decode_error {w : Word} (h : ∀ i, w ≠ encode i) : ∃ k, decode w = .error k := by
  cases hd : decode w with
  | ok i => exact absurd (decode_eq_ok.mp hd) (h i)
  | error k => exact ⟨k, rfl⟩

/-- The register at an offset has that offset. -/
theorem regAt_eq_some {o : Offset} {r : Reg} : regAt o = some r ↔ r.offset = o := by
  constructor
  · intro h; simpa using List.find?_some h
  · rintro rfl; cases r <;> rfl

end Sys2Proof
end

