-- ==== Sys2Proof/Laws/Invariant.lean ====
section
/-! SUPPORT. How the invariant passes from one state to the next: through `CLR`, through a fault, and through a command
that completes. -/

namespace Sys2Proof.Machine

/-- `CLR` leads to a state that meets the invariant (R225). -/
theorem State.Inv.clear {s : State} (h : s.Inv) : (clear s).Inv where
  srcWf := h.srcWf
  dstWf := h.dstWf
  errIffFault := by simp
  errInfoZero := fun _ => rfl
  dstLenZero := fun _ _ => rfl
  stage := ⟨rfl, ⟨rfl, rfl, rfl⟩, rfl, rfl, rfl⟩

/-- So does a fault (R247). -/
theorem State.Inv.enterFault {s : State} (h : s.Inv) (r : Raised) (own : Extent) : (enterFault r own s).Inv where
  srcWf := h.srcWf
  dstWf := Memory.forget_wf (Memory.forget_wf h.dstWf _) _
  errIffFault := by simp
  errInfoZero := fun h => by cases h
  dstLenZero := fun _ _ => rfl
  stage := trivial

/-- Outside `FAULT` no fault is recorded (R26). -/
theorem State.Inv.err_none {s : State} (h : s.Inv) (hp : s.phase ≠ .fault) : s.err = none := by
  by_contra hne; exact hp (h.errIffFault.mp hne)

/-- A command that completes keeps the invariant when its tables match the phase it leads to. -/
theorem State.Inv.advance {s t : State} (h : s.Inv) (hp : s.phase ≠ .fault) (hq : t.phase ≠ .fault)
    (hsrc : t.src = s.src) (hdst : Memory.wf t.dst) (herr : t.err = s.err) (hinfo : t.errInfo = s.errInfo)
    (hlen : t.phase ≠ .doneE → t.phase ≠ .doneD → t.dstLen = 0) (hstage : t.StageInv) : t.Inv where
  srcWf := by rw [hsrc]; exact h.srcWf
  dstWf := hdst
  errIffFault := by rw [herr, h.err_none hp]; simp [hq]
  errInfoZero := fun _ => by rw [hinfo]; exact h.errInfoZero (h.err_none hp)
  dstLenZero := hlen
  stage := hstage

/-- The host's moves still to come are no part of the invariant. -/
theorem State.Inv.withPending {s : State} (h : s.Inv) (moves : List HostOp) : { s with pending := moves }.Inv :=
  ⟨h.srcWf, h.dstWf, h.errIffFault, h.errInfoZero, h.dstLenZero, h.stage⟩

end Sys2Proof.Machine
end

