-- ==== Sys2Proof/Laws/PerInstr.lean ====
section
/-! SUPPORT. One lemma per command about its row of the opcode table (30_encoding.md R90, R91). -/

namespace Sys2Proof.Laws.OpcodeRow

/-- The command has a row whose mask covers all 64 bits, its word has `ZERO = 0`, and its word decodes to it. -/
def Statement (i : Instr) : Prop :=
  { instr := i, mask := 0xFFFFFFFFFFFFFFFF, pattern := encode i } ∈ opcodeTable ∧
  (encode i).extractLsb' 8 56 = 0 ∧ (encode i).extractLsb' 0 8 = opcode i ∧
  Instr.wf i = true ∧ decode (encode i) = .ok i

theorem clr : Statement .clr := by unfold Statement; decide
theorem cnt : Statement .cnt := by unfold Statement; decide
theorem norm : Statement .norm := by unfold Statement; decide
theorem build : Statement .build := by unfold Statement; decide
theorem derive : Statement .derive := by unfold Statement; decide
theorem pack : Statement .pack := by unfold Statement; decide
theorem wrhdr : Statement .wrhdr := by unfold Statement; decide
theorem parse : Statement .parse := by unfold Statement; decide
theorem unpack : Statement .unpack := by unfold Statement; decide

end Sys2Proof.Laws.OpcodeRow
end

