-- ==== Sys2Proof/Laws/Window.lean ====
section
/-! SUPPORT. What the host sees: the fields of packed words, the bits of a code in the window, and a recorded fault. -/

namespace Sys2Proof.Machine

/-- The value of two fields side by side. -/
theorem append_toNat {n m : Nat} (a : BitVec n) (b : BitVec m) : (a ++ b).toNat = a.toNat * 2 ^ m + b.toNat := by
  rw [BitVec.toNat_append, Nat.shiftLeft_eq, Nat.mul_comm, Nat.two_pow_add_eq_or_of_lt b.isLt]

theorem natOfBits_from (bits : BitString) (n : Nat) :
    bits.foldl (fun n b => 2 * n + b.toNat) n = n * 2 ^ bits.length + natOfBits bits := by
  unfold natOfBits
  induction bits generalizing n with
  | nil => simp
  | cons b bits ih =>
    rw [List.foldl_cons, ih, List.foldl_cons, ih (2 * 0 + b.toNat), List.length_cons, pow_succ]; ring

theorem natOfBits_cons (b : Bool) (bits : BitString) :
    natOfBits (b :: bits) = b.toNat * 2 ^ bits.length + natOfBits bits := by
  rw [natOfBits, List.foldl_cons, natOfBits_from]; simp

theorem natOfBits_lt (bits : BitString) : natOfBits bits < 2 ^ bits.length := by
  induction bits with
  | nil => simp [natOfBits]
  | cons b bits ih => rw [natOfBits_cons, List.length_cons, pow_succ]; cases b <;> simp <;> omega

theorem natOfBits_testBit {bits : BitString} {k : Nat} (hk : k < bits.length) :
    (natOfBits bits).testBit (bits.length - 1 - k) = bits.getD k false := by
  induction bits generalizing k with
  | nil => simp at hk
  | cons b bits ih =>
    rw [natOfBits_cons, Nat.mul_comm]
    cases k with
    | zero =>
      simp only [List.length_cons, Nat.add_sub_cancel, Nat.sub_zero, List.getD_cons_zero]
      rw [Nat.testBit_two_pow_mul_add _ (natOfBits_lt bits)]
      simp; cases b <;> rfl
    | succ k =>
      rw [List.length_cons] at hk ⊢
      rw [Nat.testBit_two_pow_mul_add _ (natOfBits_lt bits), if_pos (by omega), List.getD_cons_succ,
        ← ih (k := k) (by omega)]
      congr 1; omega

/-- The field `F` of R99: bit `255 - k` is bit `k` of the code, and 0 after its end. -/
theorem codeField_getLsbD (bits : BitString) {k : Nat} (hk : k < 256) :
    (codeField bits).getLsbD (255 - k) = bits.getD k false := by
  have hl : ((bits ++ List.replicate 256 false).take 256).length = 256 := by
    rw [List.length_take, List.length_append, List.length_replicate]; omega
  have hbit := natOfBits_testBit (bits := (bits ++ List.replicate 256 false).take 256) (k := k) (by omega)
  rw [hl] at hbit
  rw [codeField, BitVec.getLsbD_ofNat, show 255 - k = 256 - 1 - k by omega, hbit,
    decide_eq_true (show 256 - 1 - k < 256 by omega), Bool.true_and, List.getD_eq_getElem?_getD,
    List.getD_eq_getElem?_getD, List.getElem?_take, if_pos hk]
  by_cases hb : k < bits.length
  · rw [List.getElem?_append_left hb]
  · rw [List.getElem?_append_right (by omega), List.getElem?_replicate, List.getElem?_eq_none (by omega)]
    split <;> rfl

/-- Entering a fault records it (R247). -/
theorem enterFault_recorded (r : Raised) (own : Extent) (s : State) :
    FaultRecorded r.kind r.info s (enterFault r own s) := by
  constructor <;> rfl

end Sys2Proof.Machine
end

