-- ==== Sys2Proof/Tests/Slice0.lean ====
section
/-! SUPPORT. Tests with results taken from the spec (95_test_vectors.md and the examples of the rules), and, for every
statement that has hypotheses, a witness that meets them. -/

namespace Sys2Proof.Tests

open Sys2Proof Sys2Proof.Machine

/- One theorem at a time: each theorem in flight that is evaluated by the kernel holds a thread, and a machine with a memory
limit has few. -/
set_option Elab.async false

/-! Small states. -/

/-- The reset block with a source buffer and its length. -/
def withSource (bytes : List Byte) : State :=
  { State.reset with src := cellsFrom 0 bytes, srcLen := BitVec.ofNat 64 bytes.length }

/-- The state an outcome holds; the reset state for a stop. -/
def after (o : Host.Outcome State Fault Refusal) : State :=
  match o with
  | .next s => s
  | .fault _ | .refused _ => State.reset

/-- A histogram from its nonzero counts. -/
def histOf (counts : List (Byte × Word)) : Hist := counts.foldl (fun h e => h.set e.1.toNat e.2) emptyHist

/-- A code table from its codes. -/
def codeOf (codes : List (Byte × BitString)) : CodeTable := codes.foldl (fun c e => c.set e.1.toNat e.2) emptyCode

/-- The reset block in a phase, with a histogram. -/
def holding (p : Phase) (counts : List (Byte × Word)) : State := { State.reset with phase := p, hist := histOf counts }

/-- Of S1: the source buffer of `AAAB`. -/
def aaab : State := withSource [0x41, 0x41, 0x41, 0x42]

/-- The counts of `AAAB` (S1). -/
def aaabCounts : List (Byte × Word) := [(0x41, 3), (0x42, 1)]

/-- V8 and V43: the tree of `AAAB`, in either phase that has one. -/
def aaabTree (p : Phase) : State := withTree (holding .normed aaabCounts) p

/-- S1: the code table of `AAAB`. -/
def aaabCode : CodeTable := codeOf [(0x41, [false]), (0x42, [true])]

/-- A container header in a source buffer: the bytes of the fields in `fields`, zeros elsewhere, and the payload. -/
def headerSource (counts : List (Byte × Word)) (vbits : BitVec 32) (payload : List Byte) : State :=
  withSource (headerBytes (histOf counts) vbits ++ payload)

/-- A decode of `AAAB` before `UNPACK`: the tree, a bit count and a payload (V43 to V46). -/
def aaabStream (vbits : BitVec 32) (payload : List Byte) : State :=
  { aaabTree .builtD with
    src := cellsFrom 1028 payload, srcLen := BitVec.ofNat 64 (1028 + payload.length), vbits := vbits }

/-- `STATUS[7:0]`: in `FAULT` the rest of `STATUS` is a free value. -/
def faultByte (s : State) : BitVec 8 := errCode s.err ++ Phase.code s.phase

/-! Decoding: every command's word, bit by bit from R90 and R91. -/

theorem test_decode_clr : decode 0b0000000000000000000000000000000000000000000000000000000000000001 = .ok .clr := by decide
theorem test_decode_cnt : decode 0b0000000000000000000000000000000000000000000000000000000000010000 = .ok .cnt := by decide
theorem test_decode_norm : decode 0b0000000000000000000000000000000000000000000000000000000000010001 = .ok .norm := by decide
theorem test_decode_build : decode 0b0000000000000000000000000000000000000000000000000000000000010010 = .ok .build := by decide
theorem test_decode_derive : decode 0b0000000000000000000000000000000000000000000000000000000000010011 = .ok .derive := by decide
theorem test_decode_pack : decode 0b0000000000000000000000000000000000000000000000000000000000010100 = .ok .pack := by decide
theorem test_decode_wrhdr : decode 0b0000000000000000000000000000000000000000000000000000000000010101 = .ok .wrhdr := by decide
theorem test_decode_parse : decode 0b0000000000000000000000000000000000000000000000000000000000100000 = .ok .parse := by decide
theorem test_decode_unpack : decode 0b0000000000000000000000000000000000000000000000000000000000100001 = .ok .unpack := by decide

/-- R92: the ends of every unassigned range, and a word with `ZERO` set (V54, V55). -/
theorem test_decode_illegal :
    ([0x00, 0x02, 0x0F, 0x16, 0x1F, 0x22, 0xFF] : List Word).all (fun w => decode w == .error .unassignedOpcode) ∧
    decode 0x0000000100000010 = .error .zeroFieldSet ∧ decode 0x0000000000000110 = .error .zeroFieldSet ∧
    decode 0x8000000000000001 = .error .zeroFieldSet := by decide

/-- The two functions the host asks about: a row's word decodes, and runs as the first instruction after reset. -/
theorem test_fetch_word : decodeTableWord 64 0x10 = some .cnt ∧ decodeTableWord 64 0 = none ∧
    (after (step (State.reset.withFetchWord 64 0x10))).phase = .counted := by decide +kernel

/-! Well-formedness: each check refuses an ill-formed move (R66, R60), and the machine refuses it by name. -/

theorem test_wf_commands : [Instr.clr, .cnt, .norm, .build, .derive, .pack, .wrhdr, .parse, .unpack].all Instr.wf = true := by
  decide

theorem test_wf_unaligned_write : HostOp.wf (.write 0x004 0x10) = false ∧
    hostMove (.write 0x004 0x10) State.reset = .refused .unalignedRegisterAccess := ⟨by decide, rfl⟩

theorem test_wf_unaligned_read : HostOp.wf (.read 0x00C) = false ∧
    hostMove (.read 0x00C) State.reset = .refused .unalignedRegisterAccess := ⟨by decide, rfl⟩

theorem test_wf_fill : HostOp.wf (.fillSrc (2 ^ 64 - 1) [0x00]) = true ∧ HostOp.wf (.fillSrc (2 ^ 64 - 1) [0x00, 0x00]) = false ∧
    hostMove (.fillSrc (2 ^ 64 - 1) [0x00, 0x00]) State.reset = .refused .noSuchBufferIndex :=
  ⟨by decide, by decide, rfl⟩

theorem test_wf_look : HostOp.wf (.readDst (2 ^ 64 - 1)) = true ∧ HostOp.wf (.readDst (2 ^ 64)) = false ∧
    hostMove (.readDst (2 ^ 64)) State.reset = .refused .noSuchBufferIndex := ⟨by decide, by decide, rfl⟩

/-! One step of each command. -/

/-- R225's example: after a `TruncatedInput` fault `CLR` makes `STATUS = 0`; V37: `ERR_INFO = 1028`, `STATUS[7:0] = 0x1F`. -/
theorem test_clr : (after (exec .parse State.reset)).errInfo = 1028 ∧
    faultByte (after (exec .parse State.reset)) = 0x1F ∧
    statusWord (after (exec .clr (after (exec .parse State.reset)))) = 0 := by decide +kernel

/-- S1. -/
theorem test_cnt : nonzeroEntries (after (exec .cnt aaab)).hist = aaabCounts ∧ statusWord (after (exec .cnt aaab)) = 0x001 := by
  decide +kernel

/-- V4: `255 + 1` wraps to 0. -/
theorem test_norm_wraps : nonzeroEntries (after (exec .norm (holding .counted [(0xFF, 3)]))).hist = [(0x00, 1), (0xFF, 3)] ∧
    statusWord (after (exec .norm (holding .counted [(0xFF, 3)]))) = 0x102 := by decide +kernel

/-- V3: the empty input. -/
theorem test_norm_empty : nonzeroEntries (after (exec .norm (holding .counted []))).hist = [(0, 1), (1, 1)] ∧
    statusWord (after (exec .norm (holding .counted []))) = 0x202 := by decide +kernel

/-- V11: both kinds of tie. -/
theorem test_build_ties : (after (exec .build (holding .normed [(1, 2), (2, 2), (3, 4)]))).nodes =
      [.leaf 1 2, .leaf 2 2, .leaf 3 4, .internal 4 1 0, .internal 8 3 2] ∧
    treeWord (after (exec .build (holding .normed [(1, 2), (2, 2), (3, 4)]))) = 0x0000000300050004 := by decide +kernel

/-- V19: one nonzero count. -/
theorem test_build_degenerate : (after (exec .build (holding .parsed [(0x41, 3)]))).err = some .degenerateHistogram ∧
    (after (exec .build (holding .parsed [(0x41, 3)]))).errInfo = 1 := by decide +kernel

/-- V11's codes. -/
theorem test_derive :
    ([1, 2, 3, 4] : List Byte).map
      (fun v => (after (exec .derive (withTree (holding .normed [(1, 2), (2, 2), (3, 4)]) .builtE))).code[v.toNat]) =
      [[false, true], [false, false], [true], []] := by decide +kernel

/-- V20: four bits and their padding. -/
theorem test_pack : (after (exec .pack { aaab with phase := .coded, code := aaabCode })).dst = [(1028, 0x10)] ∧
    (after (exec .pack { aaab with phase := .coded, code := aaabCode })).vbits = 4 := by decide +kernel

/-- V31: no room for the payload. -/
theorem test_pack_overflow :
    (after (exec .pack { aaab with phase := .coded, code := aaabCode, dstCap := 1028 })).err = some .dstOverflow ∧
    (after (exec .pack { aaab with phase := .coded, code := aaabCode, dstCap := 1028 })).errInfo = 1028 := by
  decide +kernel

/-- V32: the header's nonzero bytes and `DST_LEN`. -/
theorem test_wrhdr :
    (after (exec .wrhdr { holding .packed aaabCounts with vbits := 4 })).dst.filter (fun c => c.2 != 0) =
      [(0x107, 0x03), (0x10B, 0x01), (0x403, 0x04)] ∧
    (after (exec .wrhdr { holding .packed aaabCounts with vbits := 4 })).dstLen = 1029 := by decide +kernel

/-- V34: a count of `2^32`. -/
theorem test_wrhdr_countRange :
    (after (exec .wrhdr (holding .packed [(7, 0x0000000100000000)]))).err = some .countRange ∧
    (after (exec .wrhdr (holding .packed [(7, 0x0000000100000000)]))).errInfo = 7 := by decide +kernel

/-- V36: the header of V32. -/
theorem test_parse : nonzeroEntries (after (exec .parse (headerSource aaabCounts 4 [0x10]))).hist = aaabCounts ∧
    statusWord (after (exec .parse (headerSource aaabCounts 4 [0x10]))) = 0x008 := by decide +kernel

/-- V43. -/
theorem test_unpack : (after (exec .unpack (aaabStream 4 [0x10]))).dst = [(0, 0x41), (1, 0x41), (2, 0x41), (3, 0x42)] ∧
    statusWord (after (exec .unpack (aaabStream 4 [0x10]))) = 0x00A := by decide +kernel

/-- V51: a stream that ends inside a code. -/
theorem test_unpack_malformed :
    (after (exec .unpack { withTree (holding .parsed [(0, 2), (1, 1), (2, 1)]) .builtD with
      src := [(1028, 0x40)], srcLen := 1029, vbits := 3 })).err = some .malformedStream ∧
    (after (exec .unpack { withTree (holding .parsed [(0, 2), (1, 1), (2, 1)]) .builtD with
      src := [(1028, 0x40)], srcLen := 1029, vbits := 3 })).errInfo = 3 := by decide +kernel

/-! Dispatch, registers and the window. -/

/-- V56: `BUILD` in phase `COUNTED`. -/
theorem test_sequence : (after (exec .build (holding .counted []))).errInfo = 0x112 ∧
    faultByte (after (exec .build (holding .counted []))) = 0x8F := by decide +kernel

/-- V54: a stray write of zero. -/
theorem test_illegal : faultByte (after (submit 0 State.reset)) = 0x9F := by decide +kernel

/-- V61: `SRC_LEN` is frozen outside `IDLE`. -/
theorem test_frozen_length :
    (after (hostMove (.write 0x10 9) { State.reset with phase := .counted, srcLen := 4 })).srcLen = 4 := by decide +kernel

/-- V53 and R37: what reset reads as. -/
theorem test_reset_reads : regValue .status State.reset = 0 ∧ regValue .dstCap State.reset = 0xFFFFFFFFFFFFFFFF ∧
    regValue .tree State.reset = 0 ∧ regValue .tblData State.reset = 0 := by decide +kernel

/-- R99's example. -/
theorem test_window_code : codeWord [false, true, true] 0 = 3 ∧ codeWord [false, true, true] 1 = 0x6000000000000000 ∧
    codeWord [false, true, true] 4 = 0 := by decide +kernel

/-- R98: the words of `Internal(4, left 1, right 0)` and `Leaf(0x42, 1)`, bit by bit from the table. -/
theorem test_window_node : nodeWord (.internal 4 1 0) 0 = 4 ∧ nodeWord (.internal 4 1 0) 1 = 0xC00010000 ∧
    nodeWord (.leaf 0x42 1) 1 = 0x800004200 := by decide +kernel

/-! Witnesses: for every statement with hypotheses, a state and operands that meet all of them. -/

theorem inv_reset : State.reset.Inv where
  srcWf := List.Pairwise.nil
  dstWf := List.Pairwise.nil
  errIffFault := by decide
  errInfoZero := fun _ => rfl
  dstLenZero := fun _ _ => rfl
  stage := ⟨rfl, ⟨rfl, rfl, rfl⟩, rfl, rfl, rfl⟩

theorem inv_aaab : aaab.Inv where
  srcWf := by decide
  dstWf := List.Pairwise.nil
  errIffFault := by decide
  errInfoZero := fun _ => rfl
  dstLenZero := fun _ _ => rfl
  stage := ⟨rfl, ⟨rfl, rfl, rfl⟩, rfl, rfl, rfl⟩

/-- The counts of `AAAB` after `NORM`, with `SRC_LEN = 4`. -/
def aaabNormed : State := { aaab with phase := .normed, hist := histOf aaabCounts }

theorem inv_aaabNormed : aaabNormed.Inv where
  srcWf := by decide
  dstWf := List.Pairwise.nil
  errIffFault := by decide
  errInfoZero := fun _ => rfl
  dstLenZero := fun _ _ => rfl
  stage := ⟨by decide +kernel, ⟨rfl, rfl, rfl⟩, rfl, rfl, by unfold State.EncodeCounts; decide +kernel⟩

theorem treeBuilt_aaab (p : Phase) : (aaabTree p).TreeBuilt :=
  ⟨show 2 ≤ countNonzero (histOf aaabCounts) by decide +kernel, rfl, rfl, rfl⟩

/-- The code table of the tree of `AAAB`, as `DERIVE` makes it. -/
def derivedCode : CodeTable := (deriveTable (aaabTree .builtE).nodes (aaabTree .builtE).root).getD emptyCode

theorem derive_aaabTree (p : Phase) : deriveTable (aaabTree p).nodes (aaabTree p).root = some derivedCode := by
  have h : (deriveTable (aaabTree .builtE).nodes (aaabTree .builtE).root).isSome = true := by decide +kernel
  obtain ⟨code, hc⟩ := Option.isSome_iff_exists.mp h
  show deriveTable (aaabTree .builtE).nodes (aaabTree .builtE).root = some derivedCode
  rw [derivedCode, hc]; rfl

theorem derivedCode_codes : derivedCode[(0x41 : Byte).toNat] = [false] ∧ derivedCode[(0x42 : Byte).toNat] = [true] := by
  decide +kernel

theorem inv_aaabBuilt : (withTree aaabNormed .builtE).Inv where
  srcWf := by decide
  dstWf := List.Pairwise.nil
  errIffFault := by decide
  errInfoZero := fun _ => rfl
  dstLenZero := fun _ _ => rfl
  stage := ⟨⟨by decide +kernel, rfl, rfl, rfl⟩, rfl, rfl, by unfold State.EncodeCounts; decide +kernel⟩

theorem inv_aaabStream : (aaabStream 4 [0x10]).Inv where
  srcWf := by decide
  dstWf := List.Pairwise.nil
  errIffFault := by decide
  errInfoZero := fun _ => rfl
  dstLenZero := fun _ _ => rfl
  stage := ⟨⟨countTooLarge_none.mp (by decide +kernel), by decide +kernel, rfl⟩,
    ⟨by decide +kernel, rfl, rfl, rfl⟩, rfl⟩

theorem srcBytes_cells {s : State} {bytes : List Byte} (hs : s.src = cellsFrom 0 bytes)
    (hl : s.srcLen.toNat = bytes.length) : srcBytes s = bytes := by
  have hw : Memory.wf s.src := by rw [hs]; exact cellsFrom_wf bytes 0
  apply List.ext_getElem
  · rw [srcBytes_length, hl]
  · intro i h1 h2
    have h3 := srcRun_getElem? hw (a := 0) (by rw [srcBytes_length] at h1; exact h1)
    rw [Nat.zero_add] at h3
    have h4 := cellsFrom_read? bytes 0 i
    rw [if_pos (by omega), Nat.sub_zero, List.getElem?_eq_getElem h2] at h4
    have h5 : (srcBytes s)[i] = srcByte s i := (List.getElem?_eq_some_iff.mp h3).2
    rw [h5, srcByte, hs, h4]; rfl

/-! The states of an encode of `AAAB` (P1). -/

def aaab1 : State := withCounts (clear aaab)
def aaab2 : State := withNormal aaab1
def aaab3 : State := withTree aaab2 .builtE
def aaab4Code : CodeTable := (deriveTable aaab3.nodes aaab3.root).getD emptyCode
def aaab4 : State := withCode aaab4Code aaab3
def aaab5 : State := withPayload [0x10] 4 aaab4
def aaab6 : State := withHeader aaab5

theorem run_cnt : exec .cnt (clear aaab) = .next aaab1 := exec_cnt rfl
theorem run_norm : exec .norm aaab1 = .next aaab2 := exec_norm rfl
theorem run_build : exec .build aaab2 = .next aaab3 := exec_build (.inl rfl) (by decide +kernel)

theorem aaab3_derive : deriveTable aaab3.nodes aaab3.root = some aaab4Code := by
  have h : (deriveTable aaab3.nodes aaab3.root).isSome = true := by decide +kernel
  obtain ⟨code, hc⟩ := Option.isSome_iff_exists.mp h
  rw [aaab4Code, hc]; rfl

theorem run_derive : exec .derive aaab3 = .next aaab4 := exec_derive rfl aaab3_derive

theorem aaab4_pack : packAll aaab4.code aaab4.dstCap.toNat (srcBytes aaab4) = .ok ([0x10], 4) := by decide +kernel

theorem run_pack : exec .pack aaab4 = .next aaab5 := exec_pack_ok rfl aaab4_pack
theorem run_wrhdr : exec .wrhdr aaab5 = .next aaab6 := exec_wrhdr rfl (by decide +kernel) (by decide +kernel)

theorem run_encode : execEncode aaab = .next aaab6 := by
  have h : exec .clr aaab = .next (clear aaab) := rfl
  simp only [execEncode, encodeStages, execAll, h, run_cnt, run_norm, run_build, run_derive, run_pack, run_wrhdr]

theorem aaab6_read {a : Nat} (h : a < 1029) : ∃ b, Memory.read? aaab6.dst a = some b := by
  have hd : aaab6.dst = Memory.writeRun aaab5.dst 0 (headerBytes aaab5.hist aaab5.vbits) := rfl
  by_cases hlt : a < 1028
  · have hl : a < (headerBytes aaab5.hist aaab5.vbits).length := by rw [headerBytes_length]; exact hlt
    have := Memory.read?_writeRun_inside (m := aaab5.dst) (b := 0) hl
    rw [Nat.zero_add] at this
    exact ⟨_, by rw [hd]; exact this⟩
  · have ha : a = 1028 := by omega
    refine ⟨0x10, ?_⟩
    rw [hd, Memory.read?_writeRun_outside (by rw [headerBytes_length]; right; omega), ha]
    decide +kernel

theorem aaab6_wf : Memory.wf aaab6.dst := Memory.writeRun_wf (by decide) _ _

/-- P2: the block with the container of `AAAB` in its source buffer. -/
def decodeSource : State := { State.reset with src := aaab6.dst, srcLen := aaab6.dstLen }

theorem decodeSource_bytes {a : Nat} (h : a < 1029) : Memory.read? aaab6.dst a = some (srcByte decodeSource a) := by
  obtain ⟨b, hb⟩ := aaab6_read h
  have hs : decodeSource.src = aaab6.dst := rfl
  rw [srcByte, hs, hb]; rfl

/-- V51: three byte values, three bits, and a stream that ends inside a code. -/
def cutTree : State := withTree (holding .parsed [(0, 2), (1, 1), (2, 1)]) .builtD
def cut : State := { cutTree with src := [(1028, 0x40)], srcLen := 1029, vbits := 3 }
def cutCode : CodeTable := (deriveTable cut.nodes cut.root).getD emptyCode

theorem cut_derive : deriveTable cut.nodes cut.root = some cutCode := by
  have h : (deriveTable cut.nodes cut.root).isSome = true := by decide +kernel
  obtain ⟨code, hc⟩ := Option.isSome_iff_exists.mp h
  rw [cutCode, hc]; rfl

theorem cut_built : cut.TreeBuilt := ⟨by decide +kernel, rfl, rfl, rfl⟩

theorem run_cut : exec .unpack cut = .next (enterFault (malformedAt 3) (unpackExtent cut) cut) :=
  exec_unpack_error rfl (by decide +kernel)

theorem run_stream : exec .unpack (aaabStream 4 [0x10]) =
    .next (withOutput [0x41, 0x41, 0x41, 0x42] (aaabStream 4 [0x10])) := exec_unpack_ok rfl (by decide +kernel)

/-! Encoding and dispatch. -/

theorem witness_DecodeEncodeAgree : Instr.wf .clr = true ∧ Instr.wf .unpack = true := by decide

theorem witness_IllegalWordsRaise : ∃ (w w' : Word) (s : State), w.extractLsb' 8 56 ≠ 0 ∧
    w'.extractLsb' 0 8 ∉ ([0x01, 0x10, 0x11, 0x12, 0x13, 0x14, 0x15, 0x20, 0x21] : List (BitVec 8)) ∧
    s.phase ≠ .fault := ⟨0x100, 0x22, State.reset, by decide, by decide, by decide⟩

theorem witness_StepRunsTheDecodedCommand : ∃ s : State, s.pending = .write 0x00 0x10 :: [] ∧
    decode 0x10 = .ok .cnt ∧ Instr.wf .cnt = true ∧ State.reset.pending = [] :=
  ⟨{ State.reset with pending := [.write 0x00 0x10] }, by decide, by decide, by decide, rfl⟩

/-- The block after a fault: an illegal word (V54). -/
def faulted : State := enterFault { kind := .illegalCommand, info := 0 } Extent.none State.reset

theorem witness_FaultPhaseIgnoresCommands : faulted.phase = .fault ∧ (0x10 : Word) ≠ 0x0000000000000001 ∧
    (0xFF8 : Offset).toNat % 8 = 0 := ⟨rfl, by decide, by decide⟩

theorem witness_PhaseTableIsTheWholeOfControl :
    (phaseTable (clear aaab).phase .cnt = some .counted ∧ exec .cnt (clear aaab) = .next aaab1) ∧
    (phaseTable aaab1.phase .build = none ∧ aaab1.phase ≠ .fault) ∧
    (phaseTable faulted.phase .cnt = none ∧ faulted.phase = .fault) :=
  ⟨⟨rfl, run_cnt⟩, ⟨rfl, by decide⟩, rfl, rfl⟩

theorem witness_ClrMakesTheBlockFresh : State.reset.Inv ∧ State.reset.phase = .idle ∧ faulted.phase = .fault ∧
    Instr.parse ≠ .clr := ⟨inv_reset, rfl, rfl, by decide⟩

/-! Registers and the window. -/

theorem witness_RegisterWritesFollowTheMap : ([0x08, 0x20, 0x28, 0x30, 0x40, 0x48, 0x50, 0xFF8] : List Offset).all
    (fun o => o.toNat % 8 == 0 && !([0x00, 0x10, 0x18, 0x38] : List Offset).contains o) = true := by decide

theorem witness_RegisterReadsShowTheMap :
    ([0x00, 0x08, 0x10, 0x18, 0x20, 0x28, 0x30, 0x38, 0x40, 0x48, 0x50, 0xFF8] : List Offset).all
      (fun o => o.toNat % 8 == 0) = true ∧ State.reset.phase ≠ .fault ∧ 0x50 ≤ (0x50 : Offset).toNat ∧
    0x50 ≤ (0xFF8 : Offset).toNat := by decide

/-- The reset block with a window address. -/
def looking (sel : BitVec 2) (idx : BitVec 9) (word : BitVec 3) (s : State) : State :=
  { s with tblAddr := { sel := sel, idx := idx, word := word } }

theorem witness_WindowShowsHist : ∃ (s : State) (v : Byte), s.tblAddr.sel = 0 ∧ s.tblAddr.idx.toNat = v.toNat ∧
    s.tblAddr.word = 0 := ⟨looking 0 255 0 State.reset, 255, by decide⟩

theorem witness_WindowShowsNode : ∃ (s s' : State) (n n' : Node),
    s.tblAddr.sel = 1 ∧ s.nodes[s.tblAddr.idx.toNat]? = some n ∧ s.tblAddr.word = 0 ∧
    s'.tblAddr.sel = 1 ∧ s'.nodes[s'.tblAddr.idx.toNat]? = some n' ∧ s'.tblAddr.word = 1 :=
  ⟨looking 1 0 0 (aaabTree .builtE), looking 1 2 1 (aaabTree .builtE), .leaf 0x41 3, .internal 4 0 1,
    rfl, by decide +kernel, rfl, rfl, by decide +kernel, rfl⟩

theorem witness_WindowShowsCode : ∃ (s s' : State) (v : Byte),
    s.tblAddr.sel = 2 ∧ s.tblAddr.idx.toNat = v.toNat ∧ s.code[v.toNat].length ≤ 255 ∧ s.tblAddr.word = 0 ∧
    s'.tblAddr.sel = 2 ∧ s'.tblAddr.idx.toNat = v.toNat ∧ s'.code[v.toNat].length ≤ 255 ∧ 255 < 256 ∧
    s'.tblAddr.word.toNat = 1 + 255 / 64 :=
  ⟨looking 2 255 0 { State.reset with code := emptyCode.set 255 (List.replicate 255 true) },
    looking 2 255 4 { State.reset with code := emptyCode.set 255 (List.replicate 255 true) }, 255,
    rfl, rfl, by decide +kernel, rfl, rfl, rfl, by decide +kernel, by decide, rfl⟩

theorem witness_WindowReadsZeroOutside :
    (looking 3 0 0 State.reset).tblAddr.sel = 3 ∧
    (256 ≤ (looking 0 256 0 State.reset).tblAddr.idx.toNat ∧ (looking 0 0 1 State.reset).tblAddr.word ≠ 0) ∧
    ((looking 1 0 0 State.reset).nodes.length ≤ (looking 1 0 0 State.reset).tblAddr.idx.toNat ∧
      2 ≤ (looking 1 0 2 State.reset).tblAddr.word.toNat) ∧
    (256 ≤ (looking 2 256 0 State.reset).tblAddr.idx.toNat ∧ 5 ≤ (looking 2 0 5 State.reset).tblAddr.word.toNat) := by
  decide

theorem witness_UnalignedAccessesAreRefused : (0x001 : Offset).toNat % 8 ≠ 0 ∧ (0xFFF : Offset).toNat % 8 ≠ 0 := by decide

theorem witness_SrcHoldsWhatTheHostPlaced : ∃ (i : Nat) (bytes : List Byte), i + bytes.length ≤ 2 ^ 64 ∧
    0 < bytes.length ∧ (i - 1 < i ∧ i + bytes.length ≤ 2 ^ 64) := ⟨2 ^ 64 - 1, [0x41], by decide⟩

theorem witness_DstShowsWhatWasStored : ∃ (s s' : State) (i : Nat) (b : Byte) (bytes : List Byte), i < 2 ^ 64 ∧
    (s.phase = .doneE ∨ s.phase = .doneD) ∧ Memory.read? s.dst i = some b ∧ s'.phase ≠ .doneE ∧ s'.phase ≠ .doneD ∧
    2 ^ 64 < i + bytes.length ∧ 2 ^ 64 ≤ 2 ^ 64 :=
  ⟨{ State.reset with phase := .doneD, dst := [(2 ^ 64 - 1, 0x41)] }, State.reset, 2 ^ 64 - 1, 0x41, [0x00, 0x00],
    by decide, .inr rfl, rfl, by decide, by decide, by decide, by decide⟩

/-- R74: the host does not look at `DST` before an operation has completed. -/
theorem test_look_phase : hostMove (.readDst 0) State.reset = .refused .dstNotReadable ∧
    (after (hostMove (.readDst 0) { State.reset with phase := .doneE, dst := [(0, 0x41)] })).busData = 0x41 := ⟨rfl, rfl⟩

/-- R68: a byte that no command stores to stays what it is, before and after a fault that does not reach it. -/
theorem test_dst_stays : dstByte (after (exec .pack State.reset)) 7 = dstByte State.reset 7 := rfl

/-! The histogram. -/

theorem witness_CntCountsTheSource : aaab.Inv ∧ aaab.phase = .idle ∧ State.reset.Inv ∧ State.reset.phase = .idle :=
  ⟨inv_aaab, rfl, inv_reset, rfl⟩

theorem witness_NormHasThreeOutcomes :
    (aaab.Inv ∧ aaab.phase = .idle ∧ exec .cnt aaab = .next aaab1) ∧
    ((holding .counted []).phase = .counted ∧ ∀ v : Byte, (holding .counted []).hist[v.toNat] = 0) ∧
    ((holding .counted [(0xFF, 3)]).phase = .counted ∧ (holding .counted [(0xFF, 3)]).hist[(0xFF : Byte).toNat] ≠ 0 ∧
      ∀ v : Byte, v ≠ 0xFF → (holding .counted [(0xFF, 3)]).hist[v.toNat] = 0) ∧
    (aaab1.phase = .counted ∧ (0x41 : Byte) ≠ 0x42 ∧ aaab1.hist[(0x41 : Byte).toNat] ≠ 0 ∧
      aaab1.hist[(0x42 : Byte).toNat] ≠ 0) := by
  refine ⟨⟨inv_aaab, rfl, run_cnt⟩, ⟨rfl, fun v => emptyHist_getElem v⟩, ⟨rfl, by decide +kernel, fun v hv => ?_⟩,
    rfl, by decide, by decide +kernel, by decide +kernel⟩
  show (emptyHist.set 255 3)[v.toNat] = 0
  rw [Vector.getElem_set, if_neg (fun h => hv (BitVec.eq_of_toNat_eq h.symm))]
  exact emptyHist_getElem v

/-! The tree. -/

/-- V17: every count is 1. -/
def allOnes : State := { State.reset with phase := .parsed, hist := Vector.replicate 256 1 }

theorem witness_BuildMakesAFullTree :
    (aaab2.phase = .normed ∧ countNonzero aaab2.hist = 2 ∧ 2 ≤ 2 ∧ 2 ≤ 2 * 2 - 2) ∧
    (allOnes.phase = .parsed ∧ countNonzero allOnes.hist = 256 ∧ 2 ≤ 256) ∧
    (∃ path v, Reaches aaab3.nodes aaab3.root path v) ∧ 2 - 1 ≤ ([true] : BitString).length :=
  ⟨⟨rfl, by decide +kernel, by decide, by decide⟩, ⟨rfl, by decide +kernel, by decide⟩,
    ⟨[true], 0x42, .right (f := 4) (l := 0) (r := 1) (by decide +kernel) (.leaf (f := 1) (by decide +kernel))⟩, by decide⟩

theorem witness_BuildMergesTheTwoLeast : ∃ a b c : Active, Active.lt a b = true ∧ Active.lt b c = true ∧ a.idx ≠ b.idx ∧
    [a, b, c] ≠ [] ∧ ([a, b, c].map Active.idx).Nodup ∧ extractLeast [c, b, a] = some (a, [c, b]) ∧
    extractLeast [c, b] = some (b, [c]) :=
  ⟨{ freq := 2, idx := 0 }, { freq := 2, idx := 1 }, { freq := 4, idx := 2 }, by decide⟩

/-- R149: leaf 2 and internal node 3 tie at the second merge. -/
theorem witness_BuildMergesTheTwoLeast_build : ∃ s t : State, s.phase = .normed ∧ countNonzero s.hist = 3 ∧ 2 ≤ 3 ∧
    exec .build s = .next t ∧ 3 ≤ 4 ∧ 4 ≤ 2 * 3 - 2 :=
  ⟨holding .normed [(1, 2), (2, 2), (3, 4)], _, rfl, by decide +kernel, by decide,
    exec_build (.inl rfl) (by decide +kernel), by decide, by decide⟩

theorem witness_BuildRefusesDegenerateHistograms :
    (aaabNormed.Inv ∧ aaabNormed.phase = .normed) ∧
    ((holding .normed []).phase = .normed ∧ countNonzero (holding .normed []).hist < 2) ∧
    ((holding .parsed [(0x41, 3)]).phase = .parsed ∧ countNonzero (holding .parsed [(0x41, 3)]).hist < 2) :=
  ⟨⟨inv_aaabNormed, rfl⟩, ⟨rfl, by decide +kernel⟩, rfl, by decide +kernel⟩

theorem witness_BuildDependsOnHistAlone : ∃ s s' t t' : State, s.hist = s'.hist ∧ exec .build s = .next t ∧
    exec .build s' = .next t' ∧ t.phase = .builtE ∧ t'.phase = .builtD :=
  ⟨holding .normed aaabCounts, holding .parsed aaabCounts, _, _, rfl, exec_build (.inl rfl) (by decide +kernel),
    exec_build (.inr rfl) (by decide +kernel), rfl, rfl⟩

theorem witness_FrequenciesDoNotOverflow :
    ((withTree aaabNormed .builtE).Inv ∧ (withTree aaabNormed .builtE).TreeBuilt ∧
      (withTree aaabNormed .builtE).phase ∈ [Phase.builtE, .coded, .packed, .doneE]) ∧
    ((aaabStream 4 [0x10]).Inv ∧ (aaabStream 4 [0x10]).TreeBuilt ∧
      (aaabStream 4 [0x10]).phase ∈ [Phase.builtD, .doneD]) :=
  ⟨⟨inv_aaabBuilt, inv_aaabBuilt.stage.1, by decide⟩, inv_aaabStream, inv_aaabStream.stage.2.1, by decide⟩

/-! The code table. -/

theorem witness_DeriveWritesTheEdgeLabels : (aaabTree .builtE).phase = .builtE ∧ (aaabTree .builtE).TreeBuilt ∧
    Reaches (aaabTree .builtE).nodes (aaabTree .builtE).root [false] 0x41 ∧
    derivedCode[(0x41 : Byte).toNat] ≠ [] ∧ (aaabTree .builtE).hist[(0x43 : Byte).toNat] = 0 :=
  ⟨rfl, treeBuilt_aaab _,
    .left (f := 4) (l := 0) (r := 1) (by decide +kernel) (.leaf (f := 3) (by decide +kernel)),
    by rw [derivedCode_codes.1]; decide, by decide +kernel⟩

theorem witness_CodesAreACompletePrefixCode : ∃ s t : State, s.phase = .builtE ∧ s.TreeBuilt ∧
    exec .derive s = .next t ∧ t.code[(0x41 : Byte).toNat] ≠ [] ∧ t.code[(0x41 : Byte).toNat] <+: [false] ∧
    countNonzero t.hist - 1 ≤ ([false] : BitString).length :=
  ⟨aaabTree .builtE, withCode derivedCode (aaabTree .builtE), rfl, treeBuilt_aaab _, exec_derive rfl (derive_aaabTree _),
    by show derivedCode[(0x41 : Byte).toNat] ≠ []; rw [derivedCode_codes.1]; decide,
    by show derivedCode[(0x41 : Byte).toNat] <+: _; rw [derivedCode_codes.1],
    by show countNonzero (histOf aaabCounts) - 1 ≤ 1; decide +kernel⟩

/-! The packer. -/

/-- `AAAB` before `PACK`, with the exact room it needs. -/
def packing : State := { aaab with phase := .coded, code := aaabCode, dstCap := 1029 }

theorem witness_PackStoresTheCodes :
    (aaab4.phase = .coded ∧ exec .pack aaab4 = .next aaab5 ∧ aaab5.phase = .packed) ∧
    (packing.phase = .coded ∧ (∀ v ∈ srcBytes packing, packing.code[v.toNat] ≠ []) ∧
      ((srcBytes packing).flatMap (fun v => packing.code[v.toNat])).length ≤ 2 ^ 32 - 1 ∧
      1028 + ceil8 ((srcBytes packing).flatMap (fun v => packing.code[v.toNat])).length ≤ packing.dstCap.toNat) :=
  ⟨⟨rfl, run_pack, rfl⟩, rfl, by decide +kernel, by decide +kernel, by decide +kernel⟩

/-- V29: the third byte was changed to one without a code. -/
def changed : State := { withSource [0x41, 0x41, 0x43, 0x42] with phase := .coded, code := aaabCode }

theorem witness_PackRaisesLookup : changed.phase = .coded ∧
    srcBytes changed = [0x41, 0x41] ++ 0x43 :: [0x42] ∧ (∀ u ∈ ([0x41, 0x41] : List Byte), changed.code[u.toNat] ≠ []) ∧
    (codeBits changed.code [0x41, 0x41]).length ≤ 2 ^ 32 - 1 ∧ (codeBits changed.code [0x41, 0x41]).length < 8 ∧
    changed.code[(0x43 : Byte).toNat] = [] :=
  ⟨rfl, by decide +kernel, by decide +kernel, by decide +kernel, by decide +kernel, by decide +kernel⟩

/-- A source of `n + 1` equal bytes whose code has 255 bits. -/
def longRun (n : Nat) : State :=
  { withSource (List.replicate (n + 1) 0) with
    phase := .coded, code := emptyCode.set 0 (List.replicate 255 true), srcLen := BitVec.ofNat 64 (n + 1) }

theorem longRun_code (n : Nat) : (longRun n).code[(0 : Byte).toNat] = List.replicate 255 true := by
  show (emptyCode.set 0 (List.replicate 255 true))[0] = _
  rw [Vector.getElem_set_self]

theorem longRun_bits (n m : Nat) : (codeBits (longRun n).code (List.replicate m 0)).length = m * 255 := by
  induction m with
  | zero => rfl
  | succ m ih =>
    rw [List.replicate_succ, codeBits_cons, List.length_append, ih, longRun_code, List.length_replicate]; omega

theorem longRun_bytes {n : Nat} (h : n + 1 < 2 ^ 64) : srcBytes (longRun n) = List.replicate n 0 ++ 0 :: [] := by
  rw [srcBytes_cells (bytes := List.replicate (n + 1) 0) rfl, ← List.replicate_succ']
  rw [List.length_replicate]
  show (BitVec.ofNat 64 (n + 1)).toNat = n + 1
  rw [BitVec.toNat_ofNat, Nat.mod_eq_of_lt h]

/-- 16,843,009 codes of 255 bits take exactly `2^32 - 1` bits; one more is too many. -/
theorem witness_PackRaisesBitCountRange : ∃ (s : State) (pre post : List Byte) (v : Byte), s.phase = .coded ∧
    srcBytes s = pre ++ v :: post ∧ (∀ u ∈ pre, s.code[u.toNat] ≠ []) ∧ (codeBits s.code pre).length = 2 ^ 32 - 1 ∧
    1028 + (codeBits s.code pre).length / 8 ≤ s.dstCap.toNat ∧ s.code[v.toNat] ≠ [] ∧
    2 ^ 32 - 1 < (codeBits s.code pre).length + s.code[v.toNat].length := by
  have h : ∀ n, n + 1 < 2 ^ 64 → n * 255 = 2 ^ 32 - 1 →
      ∃ (s : State) (pre post : List Byte) (v : Byte), s.phase = .coded ∧
      srcBytes s = pre ++ v :: post ∧ (∀ u ∈ pre, s.code[u.toNat] ≠ []) ∧ (codeBits s.code pre).length = 2 ^ 32 - 1 ∧
      1028 + (codeBits s.code pre).length / 8 ≤ s.dstCap.toNat ∧ s.code[v.toNat] ≠ [] ∧
      2 ^ 32 - 1 < (codeBits s.code pre).length + s.code[v.toNat].length := by
    intro n hn h255
    have hne : (longRun n).code[(0 : Byte).toNat] ≠ [] := by rw [longRun_code]; exact List.cons_ne_nil _ _
    refine ⟨longRun n, List.replicate n 0, [], 0, rfl, longRun_bytes hn, ?_, ?_, ?_, hne, ?_⟩
    · intro u hu; rw [List.eq_of_mem_replicate hu]; exact hne
    · rw [longRun_bits, h255]
    · rw [longRun_bits, h255]; show _ ≤ (BitVec.allOnes 64).toNat; decide
    · rw [longRun_bits, longRun_code, List.length_replicate, h255]; decide
  exact h 16843009 (by decide) (by decide)

theorem witness_PackRaisesDstOverflow : ∃ s : State, s.phase = .coded ∧ (∀ v ∈ srcBytes s, s.code[v.toNat] ≠ []) ∧
    (codeBits s.code (srcBytes s)).length ≤ 2 ^ 32 - 1 ∧ codeBits s.code (srcBytes s) ≠ [] ∧
    s.dstCap.toNat < 1028 + ceil8 (codeBits s.code (srcBytes s)).length :=
  ⟨{ packing with dstCap := 1028 }, rfl, by decide +kernel, by decide +kernel, by decide +kernel, by decide +kernel⟩

/-- Eight codes of one bit fill the one byte that has no room; the byte after them has no code. -/
theorem witness_PackRaisesDstOverflow_first : ∃ (s : State) (pre post : List Byte), s.phase = .coded ∧
    srcBytes s = pre ++ post ∧ (∀ v ∈ pre, s.code[v.toNat] ≠ []) ∧ (codeBits s.code pre).length ≤ 2 ^ 32 - 1 ∧
    8 ≤ (codeBits s.code pre).length ∧ s.dstCap.toNat < 1028 + (codeBits s.code pre).length / 8 ∧
    ∃ v ∈ post, s.code[v.toNat] = [] :=
  ⟨{ withSource (List.replicate 8 0x41 ++ [0x43]) with phase := .coded, code := aaabCode, dstCap := 1028 },
    List.replicate 8 0x41, [0x43], rfl, by decide +kernel, by decide +kernel, by decide +kernel, by decide +kernel,
    by decide +kernel, 0x43, by decide, by decide +kernel⟩

/-! The header. -/

/-- V35 at the end of its range, with the exact room a header needs. -/
def fullCount : State := { holding .packed [(7, 0x00000000FFFFFFFF)] with dstCap := 1028 }

theorem witness_WrhdrWritesTheHeader : fullCount.phase = .packed ∧
    (∀ v : Byte, fullCount.hist[v.toNat].toNat ≤ 2 ^ 32 - 1) ∧ 1028 ≤ fullCount.dstCap.toNat :=
  ⟨rfl, countTooLarge_none.mp (by decide +kernel), by decide +kernel⟩

theorem witness_WrhdrRaisesCountRange : ∃ (s : State) (v : Byte), s.phase = .packed ∧ 2 ^ 32 - 1 < s.hist[v.toNat].toNat ∧
    ∀ w : Byte, w.toNat < v.toNat → s.hist[w.toNat].toNat ≤ 2 ^ 32 - 1 := by
  have h := countTooLarge_some (h := (holding .packed [(7, 0x0000000100000000)]).hist) (v := 7) (by decide +kernel)
  exact ⟨holding .packed [(7, 0x0000000100000000)], 7, rfl, h.1, h.2⟩

theorem witness_WrhdrRaisesDstOverflow : ∃ s : State, s.phase = .packed ∧
    (∀ v : Byte, s.hist[v.toNat].toNat ≤ 2 ^ 32 - 1) ∧ s.dstCap.toNat < 1028 :=
  ⟨{ fullCount with dstCap := 1027 }, rfl, countTooLarge_none.mp (by decide +kernel), by decide +kernel⟩

/-- A source buffer that ends with its bit count (V40), or after `extra` more bytes. -/
def counting (bits : Byte) (length : Word) : State :=
  { State.reset with src := [(1024, 0), (1025, 0), (1026, 0), (1027, bits)], srcLen := length }

theorem witness_ParseReadsTheHeader : ∃ (s : State) (vb : BitVec 32), Memory.wf s.src ∧ s.phase = .idle ∧
    1028 ≤ s.srcLen.toNat ∧ vb = be32 (srcByte s 1024) (srcByte s 1025) (srcByte s 1026) (srcByte s 1027) ∧
    ceil8 vb.toNat ≤ s.srcLen.toNat - 1028 :=
  ⟨counting 0 1028, 0, by decide, rfl, by decide +kernel, by decide +kernel, by decide +kernel⟩

theorem witness_ParseRaisesTruncatedInput :
    ((counting 0 1027).phase = .idle ∧ (counting 0 1027).srcLen.toNat < 1028) ∧
    ((counting 9 1029).phase = .idle ∧ Memory.wf (counting 9 1029).src ∧ 1028 ≤ (counting 9 1029).srcLen.toNat ∧
      9 = be32 (srcByte (counting 9 1029) 1024) (srcByte (counting 9 1029) 1025) (srcByte (counting 9 1029) 1026)
        (srcByte (counting 9 1029) 1027) ∧
      (counting 9 1029).srcLen.toNat - 1028 < ceil8 (9 : BitVec 32).toNat) :=
  ⟨⟨rfl, by decide +kernel⟩, rfl, by decide, by decide +kernel, by decide +kernel, by decide +kernel⟩

theorem decodeSource_parse : exec .parse decodeSource = .next (withParsed decodeSource) := by
  apply exec_parse rfl (by decide +kernel)
  rw [headerFields_vbits (s := decodeSource) aaab6_wf]
  decide +kernel

theorem witness_ParsedHistogramIsTheWrittenOne : ∃ s t d u : State, s.phase = .packed ∧ exec .wrhdr s = .next t ∧
    t.phase = .doneE ∧ d.phase = .idle ∧ Memory.wf d.src ∧
    (∀ a < 1028, Memory.read? t.dst a = some (srcByte d a)) ∧ exec .parse d = .next u ∧ u.phase = .parsed :=
  ⟨aaab5, aaab6, decodeSource, withParsed decodeSource, rfl, run_wrhdr, rfl, rfl, aaab6_wf,
    fun _ h => decodeSource_bytes (Nat.lt_succ_of_lt h), decodeSource_parse, by simp⟩

/-! The unpacker. -/

theorem witness_UnpackInvertsTheCodes : ∃ (s : State) (code : CodeTable) (bytes : List Byte), Memory.wf s.src ∧
    s.phase = .builtD ∧ s.TreeBuilt ∧ deriveTable s.nodes s.root = some code ∧ (∀ v ∈ bytes, code[v.toNat] ≠ []) ∧
    bytes.length ≤ s.dstCap.toNat ∧ (codeBits code bytes).length = s.vbits.toNat ∧
    (∀ i < s.vbits.toNat,
      (srcByte s (1028 + i / 8)).getLsbD (7 - i % 8) = (codeBits code bytes).getD i false) :=
  ⟨{ aaabStream 4 [0x10] with dstCap := 4 }, derivedCode, [0x41, 0x41, 0x41, 0x42], by decide, rfl,
    inv_aaabStream.stage.2.1, derive_aaabTree .builtD, by decide +kernel, by decide +kernel, by decide +kernel,
    by decide +kernel⟩

theorem witness_UnpackReportsACodeCutShort :
    ((([Node.leaf 0x41 1] : List Node)[(0 : NodeIdx).toNat]? = some (.leaf 0x41 1)) ∧
      (([Node.internal 1 0 1] : List Node)[(0 : NodeIdx).toNat]? = some (.internal 1 0 1)) ∧
      ([Node.internal 1 0 1] : List Node).length ≤ (if true then (1 : NodeIdx) else 0).toNat ∧ (1 : NodeIdx) ≠ 0) ∧
    (∃ t, cut.phase = .builtD ∧ cut.TreeBuilt ∧ exec .unpack cut = .next t ∧ t.err = some .malformedStream ∧
      cut.err = none) ∧
    (∃ (bytes : List Byte) (v : Byte) (part : BitString), Memory.wf cut.src ∧
      deriveTable cut.nodes cut.root = some cutCode ∧ (∀ u ∈ bytes, cutCode[u.toNat] ≠ []) ∧
      bytes.length ≤ cut.dstCap.toNat ∧ part ≠ [] ∧ part <+: cutCode[v.toNat] ∧ part ≠ cutCode[v.toNat] ∧
      (codeBits cutCode bytes ++ part).length = cut.vbits.toNat ∧
      (∀ i < cut.vbits.toNat,
        (srcByte cut (1028 + i / 8)).getLsbD (7 - i % 8) = (codeBits cutCode bytes ++ part).getD i false)) :=
  ⟨by decide, ⟨_, rfl, cut_built, run_cut, rfl, rfl⟩, [1], 2, [false], by decide, cut_derive, by decide +kernel,
    by decide +kernel, by decide, by decide +kernel, by decide +kernel, by decide +kernel, by decide +kernel⟩

theorem witness_UnpackIgnoresPaddingAndSurplus : ∃ (s t : State) (m : Memory), Memory.wf s.src ∧ Memory.wf m ∧
    (∀ i < s.vbits.toNat, (srcByte { s with src := m } (1028 + i / 8)).getLsbD (7 - i % 8) =
      (srcByte s (1028 + i / 8)).getLsbD (7 - i % 8)) ∧ exec .unpack s = .next t :=
  ⟨aaabStream 4 [0x10], _, [(1028, 0x1F), (1029, 0xAA)], by decide, by decide, by decide +kernel, run_stream⟩

/-- V52 and the walk: four codes, room for three bytes. -/
theorem witness_UnpackRaisesDstOverflow : ∃ (s : State) (code : CodeTable) (bytes : List Byte), Memory.wf s.src ∧
    s.phase = .builtD ∧ s.TreeBuilt ∧ deriveTable s.nodes s.root = some code ∧ (∀ v ∈ bytes, code[v.toNat] ≠ []) ∧
    s.dstCap.toNat < bytes.length ∧ (codeBits code bytes).length ≤ s.vbits.toNat ∧
    (∀ i < (codeBits code bytes).length,
      (srcByte s (1028 + i / 8)).getLsbD (7 - i % 8) = (codeBits code bytes).getD i false) :=
  ⟨{ aaabStream 4 [0x10] with dstCap := 3 }, derivedCode, [0x41, 0x41, 0x41, 0x42], by decide, rfl,
    inv_aaabStream.stage.2.1, derive_aaabTree .builtD, by decide +kernel, by decide +kernel, by decide +kernel,
    by decide +kernel⟩

theorem witness_UnpackOutputIsBounded : ∃ s t : State, s.phase = .builtD ∧ s.TreeBuilt ∧ s.err = none ∧
    exec .unpack s = .next t ∧ t.phase = .doneD ∧ s.vbits.toNat ≤ s.dstCap.toNat :=
  ⟨aaabStream 4 [0x10], _, rfl, inv_aaabStream.stage.2.1, rfl, run_stream, rfl, by decide +kernel⟩

/-! Faults. -/

theorem witness_FaultEntryRecordsTheFault : State.reset.phase ≠ .fault ∧ submit 0 State.reset = .next faulted ∧
    faulted.phase = .fault := ⟨by decide, rfl, rfl⟩

theorem witness_FirstFaultSticks : ∃ s t : State, s.phase = .fault ∧ step s = .next t ∧
    (∀ rest, s.pending ≠ .write 0x00 1 :: rest) :=
  ⟨{ faulted with pending := [.write 0x00 0x10] }, faulted, rfl, rfl, fun rest h => by cases h⟩

/-! The whole machine. -/

theorem witness_StepKeepsTheInvariant : ∃ s t : State, s.Inv ∧ step s = .next t :=
  ⟨aaab.withFetchWord 64 0x10, aaab1, inv_aaab.withPending _, run_cnt⟩

theorem witness_NoMoveGetsStuck : State.reset.Inv ∧ HostOp.wf (.write 0x00 0x13) = true ∧
    ∀ i, HostOp.write 0x00 0x13 = .readDst i → State.reset.phase = .doneE ∨ State.reset.phase = .doneD :=
  ⟨inv_reset, by decide, fun i h => by cases h⟩

theorem witness_HistIsImmutableOnceBuilt : ∃ s t : State, s.phase ≠ .idle ∧ s.phase ≠ .counted ∧ step s = .next t :=
  ⟨aaab2.withFetchWord 64 0x12, aaab3, by decide, by decide, run_build⟩

theorem witness_CommandsLeaveTheHostsRegisters : exec .pack aaab4 = .next aaab5 ∧ exec .clr aaab = .next (clear aaab) :=
  ⟨run_pack, rfl⟩

theorem witness_StoresStayInTheirRow :
    (exec .pack aaab4 = .next aaab5 ∧ aaab5.phase ≠ .fault ∧
      ¬((rowOf .pack aaab5).lo ≤ 1029 ∧ 1029 < (rowOf .pack aaab5).hi)) ∧
    (exec .wrhdr aaab5 = .next aaab6 ∧ aaab6.phase ≠ .fault ∧
      ¬((rowOf .wrhdr aaab6).lo ≤ 1028 ∧ 1028 < (rowOf .wrhdr aaab6).hi)) :=
  ⟨⟨run_pack, by decide, by decide +kernel⟩, run_wrhdr, by decide, by decide +kernel⟩

theorem witness_NoStoreAtOrAboveDstCap : ∃ (s t : State) (a : Nat), s.Inv ∧ exec .unpack s = .next t ∧ s.dstCap.toNat ≤ a :=
  ⟨aaabStream 4 [0x10], _, 2 ^ 64 - 1, inv_aaabStream, run_stream, by decide +kernel⟩

/-! Encode and decode. -/

theorem run_decode : ∃ t, execDecode decodeSource = .next t ∧ t.phase = .doneD := by
  have hb : exec .build (withParsed decodeSource) = .next (withTree (withParsed decodeSource) .builtD) := by
    rw [exec_build (.inr (by simp)) (by decide +kernel), if_neg (by simp)]
  have hu : unpackAll (withTree (withParsed decodeSource) .builtD) = .ok [0x41, 0x41, 0x41, 0x42] := by decide +kernel
  refine ⟨withOutput [0x41, 0x41, 0x41, 0x42] (withTree (withParsed decodeSource) .builtD), ?_, rfl⟩
  have h : exec .clr decodeSource = .next decodeSource := rfl
  simp only [execDecode, decodeStages, execAll, h, decodeSource_parse, hb, exec_unpack_ok rfl hu]

theorem witness_OperationsKeepTheRestOfDst : (execEncode aaab = .next aaab6 ∧ aaab6.phase = .doneE ∧
      aaab6.dstLen.toNat ≤ 1029) ∧
    (∃ t, execDecode decodeSource = .next t ∧ t.phase = .doneD ∧ t.dstLen.toNat ≤ 2 ^ 64) := by
  obtain ⟨t, ht, hp⟩ := run_decode
  exact ⟨⟨run_encode, rfl, by decide +kernel⟩, t, ht, hp, Nat.le_of_lt t.dstLen.isLt⟩

theorem witness_DecodeHasOneOfFiveOutcomes : Memory.wf decodeSource.src := aaab6_wf

theorem witness_DecodeOfEncodeIsTheInput : Memory.wf aaab.src ∧ ∃ code, codeOfInput (srcBytes aaab) = some code ∧
    (∀ v : Byte, occurrences v (srcBytes aaab) < 2 ^ 32) ∧
    (allBytes.map (fun v => occurrences v (srcBytes aaab) * code[v.toNat].length)).sum ≤ 2 ^ 32 - 1 ∧
    1028 + ceil8 (codeBits code (srcBytes aaab)).length ≤ aaab.dstCap.toNat ∧
    ∃ e, execEncode aaab = .next e ∧ e.phase = .doneE ∧
      ∃ d : State, Memory.wf d.src ∧ d.srcLen = e.dstLen ∧
        (∀ a < e.dstLen.toNat, Memory.read? e.dst a = some (srcByte d a)) ∧ aaab.srcLen.toNat ≤ d.dstCap.toNat := by
  have hlen : aaab6.dstLen.toNat = 1029 := by decide +kernel
  refine ⟨inv_aaab.srcWf, aaab4Code, aaab3_derive, fun v => ?_, ?_, ?_, aaab6, run_encode, rfl, decodeSource, aaab6_wf, rfl, ?_, ?_⟩
  · exact Nat.lt_of_le_of_lt (occurrences_le v _) (by rw [srcBytes_length]; decide +kernel)
  · rw [← codeBits_length_eq]; decide +kernel
  · decide +kernel
  · intro a ha
    rw [hlen] at ha
    exact decodeSource_bytes ha
  · decide +kernel

end Sys2Proof.Tests
end

section
/-! PROOFS. The histogram is immutable once built (R42), and `BUILD` makes a full binary tree (R23, R146). -/

namespace Sys2Proof.Machine

/-! `HIST` after `NORM` or `PARSE`. -/

/-- The commands that write `HIST` are legal in `IDLE` and `COUNTED` only; elsewhere a command keeps it, clears it, or
draws it at fault entry. -/
theorem Effect.hist_kept_or_fault {s t : State} {i : Instr} (h : Effect s i t) (hidle : s.phase ≠ .idle)
    (hcounted : s.phase ≠ .counted) (hclr : i ≠ .clr) :
    t.hist = s.hist ∨ (s.phase ≠ .fault ∧ t.phase = .fault) := by
  cases h with
  | cleared => exact absurd rfl hclr
  | counted hp | shortHeader hp | shortPayload hp | parsed hp => exact absurd hp hidle
  | normed hp => exact absurd hp hcounted
  | ignored | builtE | builtD | derived | packed | headerWritten | unpacked => exact .inl (by simp)
  | outOfSequence hp => exact .inr ⟨hp, rfl⟩
  | degenerate hp => exact .inr ⟨by rcases hp with hp | hp <;> simp [hp], rfl⟩
  | packFault hp | countRange hp | headerOverflow hp | unpackFault hp => exact .inr ⟨by simp [hp], rfl⟩

/-- The same for a write of `CMD` with any other word than that of `CLR`: a word that is no command touches `HIST` by its
fault alone. -/
theorem submit_hist_kept_or_fault {w : Word} {s t : State} (h : submit w s = .next t) (hidle : s.phase ≠ .idle)
    (hcounted : s.phase ≠ .counted) (hclr : w ≠ encode .clr) :
    t.hist = s.hist ∨ (s.phase ≠ .fault ∧ t.phase = .fault) := by
  rcases submit_cases h with ⟨i, hd, he⟩ | ⟨_, _, ⟨_, rfl⟩ | ⟨hp, rfl⟩⟩
  · exact he.hist_kept_or_fault hidle hcounted (fun hi => hclr (by rw [decode_eq_ok.mp hd, hi]))
  · exact .inl rfl
  · exact .inr ⟨hp, rfl⟩

/-- Settles O51: of the host's moves only a write of `CMD` reaches `HIST`. -/
theorem histIsImmutableOnceBuilt : Obligations.HistIsImmutableOnceBuilt := by
  intro s t hidle hcounted h
  rcases step_cases h with ⟨_, rfl⟩ | ⟨op, rest, hpend, hm⟩
  · exact .inl rfl
  rcases hostMove_cases hm with ⟨o, w, rfl, _, ho, hs⟩ | ⟨o, v, _, _, _, rfl⟩ | ⟨o, _, _, rfl⟩ | ⟨i, bytes, _, _, rfl⟩ |
    ⟨i, _, _, _, rfl⟩
  · by_cases hw : w = encode .clr
    · exact .inr (.inr ⟨rest, by rw [hpend, ← regAt_eq_some.mp ho, hw]; rfl⟩)
    · rcases submit_hist_kept_or_fault hs hidle hcounted hw with hk | hf
      · exact .inl hk
      · exact .inr (.inl hf)
  all_goals exact .inl (by simp)

/-! The arena of `BUILD`, for a histogram with `L ≥ 2` nonzero counts. Each fact is one clause of the invariant of the
merge loop, read where a single active node is left. -/

/-- The tree has `L` leaves, so no path has more than `L - 1` edges. -/
theorem HTree.depth_le_of_leaves_perm {t : HTree} {h : Hist} (hp : t.leaves.Perm (leafEntries h)) :
    t.depth ≤ countNonzero h - 1 := by
  have hd := t.depth_lt_leaves
  rw [hp.length_eq, leafEntries_length] at hd
  omega

section
variable {h : Hist} (hc : 2 ≤ countNonzero h)
include hc

theorem buildNodes_length : (buildNodes h).length = 2 * countNonzero h - 1 := by
  obtain ⟨_, _, hl, _⟩ := buildNodes_forest hc
  exact hl

theorem buildNodes_last_toNat : (BitVec.ofNat 9 ((buildNodes h).length - 1)).toNat = 2 * countNonzero h - 2 := by
  obtain ⟨_, _, _, hx, hi⟩ := buildNodes_forest hc
  rw [← hx, hi]

theorem buildNodes_take_leaves : (buildNodes h).take (countNonzero h) = leavesOf h := by
  obtain ⟨_, hF, _⟩ := buildNodes_forest hc
  obtain ⟨xs, hxs⟩ := hF.first
  rw [hxs, leavesOf_eq]
  exact List.take_left' (by rw [leafNodes, List.length_map, leafEntries_length])

theorem buildNodes_internal {i : Nat} (hi : countNonzero h ≤ i) (hi' : i ≤ 2 * countNonzero h - 2) :
    ∃ f l r nl nr, (buildNodes h)[i]? = some (.internal f l r) ∧ l.toNat < i ∧ r.toNat < i ∧
      (buildNodes h)[l.toNat]? = some nl ∧ (buildNodes h)[r.toNat]? = some nr ∧
      f.toNat = (Node.freq nl).toNat + (Node.freq nr).toNat := by
  obtain ⟨_, hF, hl, _⟩ := buildNodes_forest hc
  exact hF.later i (by rw [leafEntries_length]; exact hi) (by omega)

theorem buildNodes_childIndices_perm : (childIndices (buildNodes h)).Perm (List.range (2 * countNonzero h - 2)) := by
  obtain ⟨x, hF, hl, _, hi⟩ := buildNodes_forest hc
  have howned := hF.owned
  rw [hl, show 2 * countNonzero h - 1 = (2 * countNonzero h - 2) + 1 by omega, List.range_succ, List.map_singleton,
    hi] at howned
  exact (List.perm_append_right_iff _).mp howned

/-- The one active node left stands for a tree that holds all the leaves, so its frequency is the total of the counts. -/
theorem buildNodes_last_freq : ∃ f l r, (buildNodes h)[2 * countNonzero h - 2]? = some (.internal f l r) ∧
    f.toNat = histTotal h := by
  obtain ⟨x, hF, _, _, hi⟩ := buildNodes_forest hc
  obtain ⟨f, l, r, _, _, hn, _⟩ := buildNodes_internal hc (i := 2 * countNonzero h - 2) (by omega) le_rfl
  obtain ⟨n, hn', hf⟩ := hF.freqs x (List.mem_singleton_self x)
  obtain ⟨T, hT, hp⟩ := hF.trees
  have hleaves : (T x.idx).leaves.Perm (leafEntries h) := by simpa using hp
  have hfx : f = x.freq := by
    rw [hi, hn] at hn'
    obtain rfl := Option.some.inj hn'
    exact hf
  refine ⟨f, l, r, hn, ?_⟩
  calc f.toNat = (T x.idx).weight := by rw [hfx, (hT x (List.mem_singleton_self x)).2]
    _ = ((leafEntries h).map (fun e => e.2.toNat)).sum := by rw [HTree.weight_eq, (hleaves.map _).sum_eq]
    _ = histTotal h := leafEntries_sum h

theorem buildNodes_path_length_le {path : BitString} {v : Byte}
    (hr : Reaches (buildNodes h) (BitVec.ofNat 9 ((buildNodes h).length - 1)) path v) :
    path.length ≤ countNonzero h - 1 := by
  obtain ⟨tl, tr, hd, hp⟩ := buildNodes_denotes hc
  exact (HTree.paths_length_le _ (hd.reaches_iff.mp hr)).trans (HTree.depth_le_of_leaves_perm hp)

theorem buildNodes_bits_reach_leaf {bits : BitString} (hb : countNonzero h - 1 ≤ bits.length) :
    ∃ path v, path <+: bits ∧ Reaches (buildNodes h) (BitVec.ofNat 9 ((buildNodes h).length - 1)) path v := by
  obtain ⟨tl, tr, hd, hp⟩ := buildNodes_denotes hc
  obtain ⟨v, path, hm, hpre⟩ := HTree.path_of_bits _ ((HTree.depth_le_of_leaves_perm hp).trans hb)
  exact ⟨path, v, hpre, hd.reaches_iff.mpr hm⟩

end

theorem leavesOf_eq_filter (h : Hist) : leavesOf h = (allBytes.filter (fun v => h[v.toNat] != 0)).map
    (fun v => Node.leaf v (h[v.toNat].setWidth 72)) := by
  rw [leavesOf, nonzeroEntries_eq, nonzeroBytes_eq, List.map_map]
  rfl

theorem withTree_nleaves_toNat (s : State) (p : Phase) : (withTree s p).nleaves.toNat = countNonzero s.hist := by
  rw [withTree_nleaves, BitVec.toNat_ofNat, Nat.mod_eq_of_lt]
  have := countNonzero_le s.hist
  omega

/-- Settles O24: the state after `BUILD` is `withTree`, whose arena is the subject of the lemmas above. -/
theorem buildMakesAFullTree : Obligations.BuildMakesAFullTree := by
  rintro s L hp rfl hc
  have hroot : (withTree s (if s.phase = .normed then .builtE else .builtD)).root.toNat = 2 * countNonzero s.hist - 2 :=
    buildNodes_last_toNat hc
  refine ⟨_, exec_build hp hc, rfl, withTree_nleaves_toNat s _, buildNodes_length hc, hroot,
    (buildNodes_take_leaves hc).trans (leavesOf_eq_filter s.hist), fun i => buildNodes_internal hc,
    buildNodes_childIndices_perm hc, ?_, fun path v => buildNodes_path_length_le hc,
    fun bits => buildNodes_bits_reach_leaf hc, ?_⟩
  · rw [hroot]
    exact buildNodes_last_freq hc
  · have := countNonzero_le s.hist
    omega

end Sys2Proof.Machine
end

section
/-! PROOFS. The encodings (30_encoding.md): the command word (R90 to R92), the value of `TBL_ADDR` (R33, R101) and the
words of the table window (R98 to R100). -/

namespace Sys2Proof

/-- The word of a command is the one whose two fields are `ZERO = 0` and its opcode (R90). -/
theorem eq_encode_iff_fields {w : Word} {i : Instr} :
    w = encode i ↔ w.extractLsb' 8 56 = 0 ∧ w.extractLsb' 0 8 = opcode i := by
  constructor
  · rintro rfl
    exact ⟨BitVec.extractLsb'_append_eq_left, BitVec.extractLsb'_append_eq_right⟩
  · rintro ⟨hzero, hopc⟩
    rw [word_fields w, hzero, hopc]
    rfl

theorem decode_eq_ok_iff_fields {w : Word} {i : Instr} :
    decode w = .ok i ↔ w.extractLsb' 8 56 = 0 ∧ w.extractLsb' 0 8 = opcode i :=
  decode_eq_ok.trans eq_encode_iff_fields

/-- The nine values of `OPC` (R91). -/
theorem opcode_mem (i : Instr) :
    opcode i ∈ ([0x01, 0x10, 0x11, 0x12, 0x13, 0x14, 0x15, 0x20, 0x21] : List (BitVec 8)) := by
  cases i <;> decide

end Sys2Proof

namespace Sys2Proof.Machine

/-- Settles O2: the decoder by the fields of the word, the phase table by its rows. -/
theorem opcodeMapIsExact : Obligations.OpcodeMapIsExact := by
  constructor
  · intro w i
    cases i <;> exact decode_eq_ok_iff_fields
  · intro i p
    cases i <;> simp [legalIn]

/-- A word that no command has, outside `FAULT` (R92, R228 step 2). -/
theorem submit_illegal {w : Word} {s : State} (hw : ∀ i, w ≠ encode i) (hp : s.phase ≠ .fault) :
    submit w s = .next (enterFault { kind := .illegalCommand, info := w } Extent.none s) := by
  obtain ⟨k, hk⟩ := decode_error hw
  rw [submit, hk]
  exact if_neg hp

/-- Settles O4: a word with a wrong field is the word of no command. -/
theorem illegalWordsRaise : Obligations.IllegalWordsRaise := by
  intro w s hw hp
  have hne : ∀ i, w ≠ encode i := by
    intro i hi
    obtain ⟨hzero, hopc⟩ := eq_encode_iff_fields.mp hi
    rcases hw with hset | hother
    · exact hset hzero
    · exact hother (hopc ▸ opcode_mem i)
  exact ⟨_, submit_illegal hne hp, enterFault_recorded { kind := .illegalCommand, info := w } _ s⟩

/-! `TBL_ADDR`. -/

theorem tblAddrWord_toNat (a : TblAddr) :
    (tblAddrWord a).toNat = a.sel.toNat * 2 ^ 24 + a.idx.toNat * 2 ^ 8 + a.word.toNat := by
  simp only [tblAddrWord, append_toNat, BitVec.toNat_ofNat]
  omega

/-- What `TBL_ADDR` shows is stored again as it was (R33). -/
theorem tblAddrOf_tblAddrWord (a : TblAddr) : tblAddrOf (tblAddrWord a) = a := by
  simp (disch := decide) only [tblAddrOf, tblAddrWord, BitVec.extractLsb'_append_eq_of_le,
    BitVec.extractLsb'_append_eq_of_add_le, Nat.reduceSub, BitVec.extractLsb'_eq_self]

/-- The bits of `TBL_ADDR` that have storage: `WORD`, `IDX` and `SEL` (R33). -/
theorem tblAddrMask_getLsbD : ∀ k < 64, (0x000000000301FF07 : Word).getLsbD k =
    (decide (k < 3) || decide (8 ≤ k ∧ k < 17) || decide (24 ≤ k ∧ k < 26)) := by
  decide

/-- `TBL_ADDR` shows the bits of a written value that have storage, and 0 elsewhere (R33). -/
theorem tblAddrWord_tblAddrOf (v : Word) : tblAddrWord (tblAddrOf v) = v &&& 0x000000000301FF07 := by
  apply BitVec.eq_of_getLsbD_eq
  intro k hk
  rw [BitVec.getLsbD_and, tblAddrMask_getLsbD k hk, tblAddrWord]
  simp only [tblAddrOf, BitVec.getLsbD_append, BitVec.getLsbD_extractLsb', BitVec.getLsbD_zero]
  grind

/-- Settles O14: the value of R101 is the word that shows the three fields. -/
theorem tblAddrStoresItsFields : Obligations.TblAddrStoresItsFields := by
  refine ⟨fun sel idx word => ?_, tblAddrWord_tblAddrOf⟩
  rw [← tblAddrWord_toNat { sel := sel, idx := idx, word := word }, BitVec.ofNat_toNat, BitVec.setWidth_eq,
    tblAddrOf_tblAddrWord]

/-! The window: the word that each value of `SEL` shows. -/

theorem tableWord_hist {s : State} {v : Byte} (hsel : s.tblAddr.sel = 0) (hidx : s.tblAddr.idx.toNat = v.toNat)
    (hword : s.tblAddr.word = 0) : tableWord s = s.hist[v.toNat] := by
  simp [tableWord, hsel, hidx, hword, v.isLt]

theorem tableWord_node {s : State} {n : Node} (hsel : s.tblAddr.sel = 1)
    (hn : s.nodes[s.tblAddr.idx.toNat]? = some n) : tableWord s = nodeWord n s.tblAddr.word := by
  simp [tableWord, hsel, hn]

theorem tableWord_code {s : State} {v : Byte} (hsel : s.tblAddr.sel = 2) (hidx : s.tblAddr.idx.toNat = v.toNat) :
    tableWord s = codeWord s.code[v.toNat] s.tblAddr.word := by
  simp [tableWord, hsel, hidx, v.isLt]

/-- Settles O15: an entry of `HIST` has one word, the count. -/
theorem windowShowsHist : Obligations.WindowShowsHist := fun _ _ hsel hidx hword => tableWord_hist hsel hidx hword

/-- The fields of word 1 of a `NODE` entry, `hi` the high byte of the frequency (R98). -/
theorem nodeWord_fields {w : Word} {kind : BitVec 1} {left right : NodeIdx} {value hi : Byte}
    (hw : w = 0#28 ++ (1#1 ++ kind ++ right ++ left ++ value) ++ hi) :
    w.extractLsb' 0 8 = hi ∧ w.extractLsb' 8 8 = value ∧ w.extractLsb' 16 9 = left ∧ w.extractLsb' 25 9 = right ∧
    w.getLsbD 34 = kind.getLsbD 0 ∧ w.getLsbD 35 = true ∧ w.extractLsb' 36 28 = 0 := by
  subst hw
  simp (disch := decide) only [BitVec.extractLsb'_append_eq_of_le, BitVec.extractLsb'_append_eq_of_add_le,
    BitVec.getLsbD_append]
  simp

/-- Settles O16: both kinds of node fill the same fields of word 1. -/
theorem windowShowsNode : Obligations.WindowShowsNode := by
  intro s n hsel hn
  rw [tableWord_node hsel hn]
  constructor
  · intro hword
    rw [hword]
    rfl
  · intro hword
    rw [hword]
    cases n with
    | leaf v f => exact nodeWord_fields (kind := 0#1) rfl
    | internal f l r => exact nodeWord_fields (kind := 1#1) rfl

theorem codeWord_zero_toNat {bits : BitString} (hlen : bits.length ≤ 255) : (codeWord bits 0).toNat = bits.length := by
  show ((BitVec.ofNat 8 bits.length).setWidth 64).toNat = _
  rw [BitVec.toNat_setWidth, BitVec.toNat_ofNat]
  omega

/-- Words 1 to 4 of a `CODE` entry are the field `F` from its top (R99). -/
theorem codeWord_eq_extractLsb' (bits : BitString) {word : BitVec 3} {j : Nat} (hj : j < 4) (hword : word.toNat = 1 + j) :
    codeWord bits word = (codeField bits).extractLsb' (192 - 64 * j) 64 := by
  interval_cases j <;> simp [codeWord, hword]

theorem codeWord_getLsbD (bits : BitString) {word : BitVec 3} {k : Nat} (hk : k < 256)
    (hword : word.toNat = 1 + k / 64) : (codeWord bits word).getLsbD (63 - k % 64) = bits.getD k false := by
  have hbit : 192 - 64 * (k / 64) + (63 - k % 64) = 255 - k := by omega
  rw [codeWord_eq_extractLsb' bits (by omega) hword, BitVec.getLsbD_extractLsb', decide_eq_true (by omega),
    Bool.true_and, hbit, codeField_getLsbD bits hk]

/-- Settles O17: the bits of the window are those of `F`. -/
theorem windowShowsCode : Obligations.WindowShowsCode := by
  intro s v hsel hidx hlen
  rw [tableWord_code hsel hidx]
  constructor
  · intro hword
    rw [hword, codeWord_zero_toNat hlen]
  · intro k hk hword
    exact codeWord_getLsbD _ hk hword

end Sys2Proof.Machine
end

section
/-! PROOFS. `CNT` counts the source (R121), and `NORM` has three outcomes (R124). -/

namespace Sys2Proof.Machine

theorem word_ne_zero_iff {w : Word} : w ≠ 0 ↔ 0 < w.toNat :=
  BitVec.toNat_ne_iff_ne.symm.trans Nat.pos_iff_ne_zero.symm

/-! The counts that `CNT` makes, by source index. -/

theorem srcBytes_eq {s : State} (hw : Memory.wf s.src) :
    srcBytes s = (List.range s.srcLen.toNat).map (srcByte s) := by
  rw [srcBytes, srcRun_eq hw, List.range_eq_range']

theorem occurrences_srcBytes {s : State} (hw : Memory.wf s.src) (v : Byte) :
    occurrences v (srcBytes s) = ((List.range s.srcLen.toNat).filter (fun a => srcByte s a == v)).length := by
  rw [occurrences, srcBytes_eq hw, List.filter_map, List.length_map]
  rfl

/-- `HIST` is empty in phase `IDLE` (R41, R43). -/
theorem State.Inv.hist_of_idle {s : State} (h : s.Inv) (hp : s.phase = .idle) : s.hist = emptyHist := by
  have hstage := h.stage
  rw [State.StageInv, hp] at hstage
  exact hstage.1

section
variable {s : State} (h : s.Inv) (hp : s.phase = .idle)
include h hp

theorem withCounts_hist_toNat (v : Byte) : (withCounts s).hist[v.toNat].toNat =
    ((List.range s.srcLen.toNat).filter (fun a => srcByte s a == v)).length := by
  rw [← occurrences_srcBytes h.srcWf, ← countBytes_toNat (by rw [srcBytes_length]; exact s.srcLen.isLt)]
  simp only [withCounts_hist, h.hist_of_idle hp]

theorem histTotal_withCounts : histTotal (withCounts s).hist = s.srcLen.toNat := by
  rw [withCounts_hist, h.hist_of_idle hp, histTotal_countBytes (by rw [srcBytes_length]; exact s.srcLen.isLt),
    srcBytes_length]

/-- After `CNT` a count is nonzero exactly when its byte value occurs in the source. -/
theorem withCounts_hist_ne_zero_iff (v : Byte) :
    (withCounts s).hist[v.toNat] ≠ 0 ↔ ∃ a < s.srcLen.toNat, srcByte s a = v := by
  rw [word_ne_zero_iff, withCounts_hist_toNat h hp, List.length_filter_pos_iff]
  simp

theorem withCounts_hist_eq_zero_iff (v : Byte) :
    (withCounts s).hist[v.toNat] = 0 ↔ ∀ a < s.srcLen.toNat, srcByte s a ≠ v := by
  rw [← not_iff_not, ← Ne, withCounts_hist_ne_zero_iff h hp]
  simp only [ne_eq, not_forall, not_not, exists_prop]

/-- The first row of R124. -/
theorem withCounts_all_zero_iff : (∀ v : Byte, (withCounts s).hist[v.toNat] = 0) ↔ s.srcLen = 0 := by
  simp only [withCounts_hist_eq_zero_iff h hp]
  constructor
  · intro hall
    by_contra hne
    exact hall _ 0 (word_ne_zero_iff.mp hne) rfl
  · intro hzero v a ha
    rw [hzero] at ha
    exact absurd ha (Nat.not_lt_zero a)

/-- The second row of R124. -/
theorem withCounts_sole_iff (d : Byte) :
    ((withCounts s).hist[d.toNat] ≠ 0 ∧ ∀ v : Byte, v ≠ d → (withCounts s).hist[v.toNat] = 0) ↔
      (s.srcLen ≠ 0 ∧ ∀ a < s.srcLen.toNat, srcByte s a = d) := by
  simp only [withCounts_hist_ne_zero_iff h hp, withCounts_hist_eq_zero_iff h hp]
  constructor
  · rintro ⟨⟨a, ha, _⟩, hothers⟩
    refine ⟨fun hzero => ?_, fun b hb => ?_⟩
    · rw [hzero] at ha
      exact Nat.not_lt_zero a ha
    · by_contra hne
      exact hothers _ hne b hb rfl
  · rintro ⟨hlen, hall⟩
    have hpos : 0 < s.srcLen.toNat := word_ne_zero_iff.mp hlen
    exact ⟨⟨0, hpos, hall 0 hpos⟩, fun v hv a ha hav => hv (hav.symm.trans (hall a ha))⟩

end

/-- Settles O22: from an empty histogram `CNT` counts the bytes at the source indices. -/
theorem cntCountsTheSource : Obligations.CntCountsTheSource := fun s h hp =>
  ⟨withCounts s, exec_cnt hp, rfl, withCounts_hist_toNat h hp, histTotal_withCounts h hp⟩

/-! The number of nonzero counts, read off the table. -/

theorem nonzeroBytes_eq_nil_iff {h : Hist} : nonzeroBytes h = [] ↔ ∀ v : Byte, h[v.toNat] = 0 := by
  simp only [List.eq_nil_iff_forall_not_mem, mem_nonzeroBytes, not_not]

theorem nonzeroBytes_eq_singleton {h : Hist} {d : Byte} (hd : h[d.toNat] ≠ 0)
    (hothers : ∀ v : Byte, v ≠ d → h[v.toNat] = 0) : nonzeroBytes h = [d] := by
  rw [← List.perm_singleton, List.perm_ext_iff_of_nodup (nonzeroBytes_nodup h) (List.nodup_singleton d)]
  intro v
  rw [mem_nonzeroBytes, List.mem_singleton]
  constructor
  · exact fun hv => not_imp_comm.mp (hothers v) hv
  · rintro rfl
    exact hd

theorem two_le_countNonzero {h : Hist} {v w : Byte} (hvw : v ≠ w) (hv : h[v.toNat] ≠ 0) (hw : h[w.toNat] ≠ 0) :
    2 ≤ countNonzero h := by
  have hsub : [v, w] ⊆ nonzeroBytes h :=
    List.cons_subset.mpr ⟨mem_nonzeroBytes.mpr hv, List.cons_subset.mpr ⟨mem_nonzeroBytes.mpr hw, List.nil_subset _⟩⟩
  exact (List.subperm_of_subset (by simp [hvw]) hsub).length_le

/-- Bumping a zero count makes it 1. -/
theorem bump_getElem_of_zero {h : Hist} {t : Byte} (hz : h[t.toNat] = 0) (v : Byte) :
    (bump h t)[v.toNat] = if v = t then 1 else h[v.toNat] := by
  rw [bump_getElem]
  by_cases hv : v = t
  · subst hv
    simp [hz]
  · rw [if_neg (Ne.symm hv), if_neg hv]

/-! `NORM`, by the rows of R124. -/

theorem withNormal_of_empty {s : State} (hz : ∀ v : Byte, s.hist[v.toNat] = 0) :
    (withNormal s).normCnt = 2 ∧ ∀ v : Byte, (withNormal s).hist[v.toNat] = if v = 0 ∨ v = 1 then 1 else 0 := by
  have hn := normalize_empty (nonzeroBytes_eq_nil_iff.mpr hz)
  have h1 : (bump s.hist 0)[(1 : Byte).toNat] = 0 := by
    rw [bump_getElem_of_zero (hz 0), if_neg (by decide), hz]
  refine ⟨by rw [withNormal_normCnt, hn]; rfl, fun v => ?_⟩
  simp only [withNormal_hist, hn, bump_getElem_of_zero h1, bump_getElem_of_zero (hz 0), hz]
  by_cases h0 : v = 0
  · simp only [h0, true_or, if_true, ite_self]
  · simp only [h0, false_or, if_false]

theorem withNormal_of_sole {s : State} {d : Byte} (hd : s.hist[d.toNat] ≠ 0)
    (hothers : ∀ v : Byte, v ≠ d → s.hist[v.toNat] = 0) :
    (withNormal s).normCnt = 1 ∧
      ∀ v : Byte, (withNormal s).hist[v.toNat] = if v = d + 1 then 1 else s.hist[v.toNat] := by
  have hn := normalize_one (nonzeroBytes_eq_singleton hd hothers)
  refine ⟨by rw [withNormal_normCnt, hn]; rfl, fun v => ?_⟩
  simp only [withNormal_hist, hn, bump_getElem_of_zero (hothers _ (add_one_ne d))]

theorem withNormal_of_many {s : State} (hc : 2 ≤ countNonzero s.hist) :
    (withNormal s).normCnt = 0 ∧ (withNormal s).hist = s.hist := by
  rw [withNormal_normCnt, withNormal_hist, normalize_many hc]
  exact ⟨rfl, rfl⟩

/-- Settles O23: the state after `CNT` is `withCounts`, the state after `NORM` is `withNormal`. -/
theorem normHasThreeOutcomes : Obligations.NormHasThreeOutcomes := by
  constructor
  · intro s t h hp ht
    obtain rfl : withCounts s = t := Host.Outcome.next.inj ((exec_cnt hp).symm.trans ht)
    exact ⟨withCounts_all_zero_iff h hp, withCounts_sole_iff h hp⟩
  · intro s hp
    refine ⟨withNormal s, exec_norm hp, rfl, withNormal_of_empty, fun d => withNormal_of_sole, ?_,
      countNonzero_normalize s.hist⟩
    rintro ⟨v, w, hvw, hv, hw⟩
    exact withNormal_of_many (two_le_countNonzero hvw hv hw)

end Sys2Proof.Machine
end

section
/-! PROOFS. The tree builder (41_tree_builder.md): the order of extraction and of the children (R141, R142), the histograms
that `BUILD` refuses (R145), and `BUILD` as a function of `HIST` (R144). -/

namespace Sys2Proof.Machine

/-! What `ACTIVE` holds, and what extraction takes from it. -/

theorem activeFrom_map_freq (n : Nat) (nodes : List Node) :
    (activeFrom n nodes).map Active.freq = nodes.map Node.freq := by
  induction nodes generalizing n with
  | nil => rfl
  | cons x nodes ih => simp [activeFrom, ih]

theorem activeFrom_map_idx (n : Nat) (nodes : List Node) :
    (activeFrom n nodes).map Active.idx = (List.range' n nodes.length).map (BitVec.ofNat 9) := by
  induction nodes generalizing n with
  | nil => rfl
  | cons x nodes ih => simp [activeFrom, ih, List.range'_succ]

theorem extractLeast_of_ne_nil {l : List Active} (hl : l ≠ []) : ∃ a rest, extractLeast l = some (a, rest) := by
  cases l with
  | nil => exact absurd rfl hl
  | cons x xs => exact ⟨_, _, rfl⟩

/-- No element of the rest is less than the extracted one, and none has its index, so the extracted one is less. -/
theorem extractLeast_lt {l rest : List Active} {a : Active} (h : extractLeast l = some (a, rest))
    (hnd : (l.map Active.idx).Nodup) : ∀ x ∈ rest, Active.lt a x = true := by
  obtain ⟨hperm, hle⟩ := extractLeast_spec h
  have hnd' : (a.idx :: rest.map Active.idx).Nodup := (hperm.map Active.idx).nodup_iff.mp hnd
  intro x hx
  have hne : a.idx ≠ x.idx := fun e => (List.nodup_cons.mp hnd').1 (e ▸ List.mem_map_of_mem hx)
  exact (Active.lt_total hne).resolve_right (by simp [hle x hx])

theorem mergeLoop_succ {active rest rest' : List Active} {a b : Active} (h : extractLeast active = some (a, rest))
    (h' : extractLeast rest = some (b, rest')) (fuel : Nat) (nodes : List Node) :
    mergeLoop (fuel + 1) active nodes =
      mergeLoop fuel (rest' ++ [{ freq := a.freq + b.freq, idx := BitVec.ofNat 9 nodes.length }])
        (nodes ++ [Node.internal (a.freq + b.freq) b.idx a.idx]) := by
  simp only [mergeLoop, h, h']

/-- Settles O25: the laws of `lt`, one extraction, one merge, and the arena of `BUILD` entry by entry. -/
theorem buildMergesTheTwoLeast : Obligations.BuildMergesTheTwoLeast := by
  refine ⟨fun n nodes => ⟨activeFrom_map_freq n nodes, activeFrom_map_idx n nodes⟩, fun _ _ => Active.lt_iff,
    Active.lt_irrefl, fun _ _ _ => Active.lt_trans, fun _ _ => Active.lt_total, ?_,
    fun fuel _ _ _ nodes _ _ h h' => mergeLoop_succ h h' fuel nodes, ?_⟩
  · intro l hl hnd
    obtain ⟨a, rest, h⟩ := extractLeast_of_ne_nil hl
    exact ⟨a, rest, h, (extractLeast_spec h).1, extractLeast_lt h hnd⟩
  · rintro s t L hp rfl hc ht i hi hi'
    obtain rfl : withTree s _ = t := Host.Outcome.next.inj ((exec_build hp hc).symm.trans ht)
    exact buildNodes_mergedFromLeast hc hi hi'

/-! The two ways `BUILD` ends. -/

theorem State.Inv.two_le_countNonzero_of_normed {s : State} (h : s.Inv) (hp : s.phase = .normed) :
    2 ≤ countNonzero s.hist := by
  have hstage := h.stage
  simp only [State.StageInv, hp] at hstage
  exact hstage.1

/-- No command before `BUILD` stores to `DST`, so a fault of `BUILD` has no byte to lose (R69, R254). -/
theorem storedExtent_of_buildable {s : State} (hp : s.phase = .normed ∨ s.phase = .parsed) :
    storedExtent s = Extent.none := by
  rcases hp with hp | hp <;> simp only [storedExtent, hp]

/-- Settles O26: the refused state is fault entry, with no byte of `DST` taken. -/
theorem buildRefusesDegenerateHistograms : Obligations.BuildRefusesDegenerateHistograms := by
  refine ⟨fun s => State.Inv.two_le_countNonzero_of_normed, fun s hp hc => ⟨_, exec_build_degenerate hp hc,
    enterFault_recorded { kind := .degenerateHistogram, info := BitVec.ofNat 64 (countNonzero s.hist) } Extent.none s, ?_⟩⟩
  rw [enterFault_dst, storedExtent_of_buildable hp, Memory.forget_none, Memory.forget_none]

/-- A `BUILD` that ends outside `FAULT` has made the tree: its other ends are the fault entries, and being ignored in
`FAULT`. -/
theorem Effect.build_eq_withTree {s t : State} (h : Effect s .build t) (hp : t.phase ≠ .fault) : ∃ p, t = withTree s p := by
  cases h with
  | ignored _ hf => exact absurd hf hp
  | outOfSequence | degenerate => exact absurd rfl hp
  | builtE | builtD => exact ⟨_, rfl⟩

/-- Settles O27: both next states are `withTree`, whose arena, root and leaf count are functions of `HIST`. -/
theorem buildDependsOnHistAlone : Obligations.BuildDependsOnHistAlone := by
  intro s s' t t' hh ht ht' hp hp'
  obtain ⟨p, rfl⟩ := (exec_effect ht).build_eq_withTree (by rcases hp with hp | hp <;> simp [hp])
  obtain ⟨p', rfl⟩ := (exec_effect ht').build_eq_withTree (by rcases hp' with hp' | hp' <;> simp [hp'])
  simp only [withTree_nodes, withTree_root, withTree_nleaves, hh, and_self]

end Sys2Proof.Machine
end

section
/-! PROOFS. The code table (42_code_table.md): what `DERIVE` writes (R160, R161, R163), and that it is a complete prefix
code (R162). A code is a path of the tree, so each property of the codes is one of the paths. -/

namespace Sys2Proof.Machine

section
variable {h : Hist} {code : CodeTable} {T : HTree} (hC : CodeOf h code T)
include hC

/-! The codes and the paths of the tree. -/

/-- The tree has two leaves or more, so no path is empty: the paths are the present codes. -/
theorem CodeOf.mem_paths_iff {v : Byte} {p : BitString} : (v, p) ∈ T.paths ↔ code[v.toNat] = p ∧ p ≠ [] := by
  rw [hC.mem, ← hC.code_ne_nil]
  constructor <;> rintro ⟨rfl, hne⟩ <;> exact ⟨rfl, hne⟩

theorem CodeOf.mem_paths {v : Byte} (hv : code[v.toNat] ≠ []) : (v, code[v.toNat]) ∈ T.paths :=
  hC.mem_paths_iff.mpr ⟨rfl, hv⟩

theorem CodeOf.paths_fst_perm : (T.paths.map Prod.fst).Perm (nonzeroBytes h) := by
  have hkeys : (leafEntries h).map Prod.fst = nonzeroBytes h := by
    simp [leafEntries_eq, Function.comp_def]
  rw [HTree.paths_fst, ← hkeys]
  exact hC.leaves.map Prod.fst

theorem CodeOf.nonzeroBytes_eq_coded : nonzeroBytes h = allBytes.filter (fun v => code[v.toNat] != []) := by
  rw [nonzeroBytes_eq]
  refine List.filter_congr (fun v _ => ?_)
  rw [Bool.eq_iff_iff, bne_iff_ne, bne_iff_ne, hC.code_ne_nil]

/-! The clauses of R162. -/

theorem CodeOf.code_length_le (hc : 2 ≤ countNonzero h) (v : Byte) : code[v.toNat].length ≤ countNonzero h - 1 :=
  Nat.le_sub_one_of_lt (hC.code_length_lt hc v)

theorem CodeOf.prefix_free {v w : Byte} (hv : code[v.toNat] ≠ []) (hw : code[w.toNat] ≠ [])
    (hpre : code[v.toNat] <+: code[w.toNat]) : v = w :=
  (HTree.paths_prefix_free T (hC.mem_paths hv) (hC.mem_paths hw) hpre).1

/-- Completeness: the sum of `2^(-len)` over the present codes is 1, multiplied out. -/
theorem CodeOf.kraft {d : Nat} (hd : countNonzero h - 1 ≤ d) :
    ((allBytes.filter (fun v => code[v.toNat] != [])).map (fun v => 2 ^ (d - code[v.toNat].length))).sum = 2 ^ d := by
  have hcode : ∀ p ∈ T.paths, code[p.1.toNat] = p.2 := fun p hp => (hC.mem_paths_iff.mp hp).1
  rw [← hC.nonzeroBytes_eq_coded]
  calc ((nonzeroBytes h).map (fun v => 2 ^ (d - code[v.toNat].length))).sum
      = ((T.paths.map Prod.fst).map (fun v => 2 ^ (d - code[v.toNat].length))).sum :=
        (hC.paths_fst_perm.map _).sum_eq.symm
    _ = (T.paths.map (fun p => 2 ^ (d - p.2.length))).sum := by
        rw [List.map_map]
        exact congrArg List.sum (List.map_congr_left fun p hp => by rw [Function.comp_apply, hcode p hp])
    _ = 2 ^ d := HTree.kraft T ((HTree.depth_le_of_leaves_perm hC.leaves).trans hd)

/-- Two codes that start the same bits are prefixes one of the other, so only one does. -/
theorem CodeOf.prefix_unique {v w : Byte} {bits : BitString} (hv : code[v.toNat] ≠ []) (hw : code[w.toNat] ≠ [])
    (hvb : code[v.toNat] <+: bits) (hwb : code[w.toNat] <+: bits) : w = v := by
  rcases List.prefix_or_prefix_of_prefix hvb hwb with hvw | hwv
  · exact (hC.prefix_free hv hw hvw).symm
  · exact hC.prefix_free hw hv hwv

theorem CodeOf.exists_prefix {bits : BitString} (hb : countNonzero h - 1 ≤ bits.length) :
    ∃ v : Byte, code[v.toNat] ≠ [] ∧ code[v.toNat] <+: bits := by
  obtain ⟨v, p, hp, hpre⟩ := HTree.path_of_bits T ((HTree.depth_le_of_leaves_perm hC.leaves).trans hb)
  obtain ⟨rfl, hne⟩ := hC.mem_paths_iff.mp hp
  exact ⟨v, hne, hpre⟩

end

/-! `DERIVE` on the tree that `BUILD` made. -/

theorem State.TreeBuilt.derive_completes {s : State} (hT : s.TreeBuilt) (hp : s.phase = .builtE) :
    ∃ code T, exec .derive s = .next (withCode code s) ∧ CodeOf s.hist code T := by
  obtain ⟨hc, hnodes, hroot, _⟩ := hT
  obtain ⟨code, T, hd, hC⟩ := codeOfHist_spec hc
  refine ⟨code, T, exec_derive hp ?_, hC⟩
  rw [hnodes, hroot]
  exact hd

theorem State.TreeBuilt.reaches_iff {s : State} (hT : s.TreeBuilt) {code : CodeTable} {T : HTree}
    (hC : CodeOf s.hist code T) {v : Byte} {p : BitString} :
    Reaches s.nodes s.root p v ↔ code[v.toNat] = p ∧ p ≠ [] := by
  obtain ⟨_, hnodes, hroot, _⟩ := hT
  rw [hnodes, hroot]
  exact hC.denotes.reaches_iff.trans hC.mem_paths_iff

/-- Settles O29: the paths from `ROOT` are the present codes. -/
theorem deriveWritesTheEdgeLabels : Obligations.DeriveWritesTheEdgeLabels := by
  intro s hp hT
  obtain ⟨code, T, he, hC⟩ := hT.derive_completes hp
  exact ⟨withCode code s, he, rfl, fun path v hr => ((hT.reaches_iff hC).mp hr).1,
    fun v hv => (hT.reaches_iff hC).mpr ⟨rfl, hv⟩, hC.absent⟩

/-- Settles O30: the clauses of R162 for the table of the state after `DERIVE`. -/
theorem codesAreACompletePrefixCode : Obligations.CodesAreACompletePrefixCode := by
  intro s t hp hT ht
  obtain ⟨code, T, he, hC⟩ := hT.derive_completes hp
  obtain rfl : withCode code s = t := Host.Outcome.next.inj (he.symm.trans ht)
  have hc : 2 ≤ countNonzero s.hist := hT.1
  have hL : countNonzero s.hist - 1 ≤ 255 := Nat.sub_le_of_le_add (countNonzero_le s.hist)
  refine ⟨fun v => ?_, hC.code_length_le hc, hL, fun v w => hC.prefix_free, hC.kraft hL, fun bits hb => ?_⟩
  · rw [Ne, List.length_eq_zero_iff]
    exact hC.code_ne_nil
  · obtain ⟨v, hv, hvb⟩ := hC.exists_prefix hb
    exact ⟨v, hv, hvb, fun w hw hwb => hC.prefix_unique hv hw hvb hwb⟩

end Sys2Proof.Machine
end

section
/-! PROOFS. The bit-packer (43_bit_packer.md): what a `PACK` that completes has stored (R176 to R178), and the total of the
bits kept within 32 bits (R180). -/

namespace Sys2Proof.Machine

theorem ceil8_length_eq_zero_iff {bits : BitString} : ceil8 bits.length = 0 ↔ bits = [] := by
  rw [← List.length_eq_zero_iff, ceil8]
  omega

/-- Zero padding does not show: a bit after the end reads as 0 with or without it (R177). -/
theorem getD_append_replicate_false (bits : BitString) (n i : Nat) :
    (bits ++ List.replicate n false).getD i false = bits.getD i false := by
  rcases Nat.lt_or_ge i bits.length with hi | hi
  · exact List.getD_append _ _ _ _ hi
  · rw [List.getD_append_right _ _ _ _ hi, List.getD_eq_default _ _ hi, List.getD_eq_getElem?_getD,
      List.getElem?_getD_replicate_default_eq]

/-- A `PACK` that ends in `PACKED` has packed the whole source: its other ends are the fault entries, and being ignored in
`FAULT`. -/
theorem Effect.pack_eq_withPayload {s t : State} (h : Effect s .pack t) (hs : s.phase ≠ .fault) (ht : t.phase ≠ .fault) :
    ∃ payload nb, packAll s.code s.dstCap.toNat (srcBytes s) = .ok (payload, nb) ∧ t = withPayload payload nb s := by
  cases h with
  | ignored _ hf => exact absurd hf hs
  | outOfSequence | packFault => exact absurd rfl ht
  | packed _ hpack => exact ⟨_, _, hpack, rfl⟩

theorem withPayload_vbits_toNat {payload : List Byte} {nb : Nat} {s : State} (hnb : nb ≤ 2 ^ 32 - 1) :
    (withPayload payload nb s).vbits.toNat = nb := by
  rw [withPayload_vbits, BitVec.toNat_ofNat]
  exact Nat.mod_eq_of_lt (Nat.lt_of_le_pred (by decide) hnb)

/-- The conditions of R176 hold of every source that was packed. -/
theorem pack_conditions_of_packed {s t : State} (hp : s.phase = .coded) (h : exec .pack s = .next t)
    (ht : t.phase = .packed) :
    (∀ v ∈ srcBytes s, s.code[v.toNat] ≠ []) ∧ (codeBits s.code (srcBytes s)).length ≤ 2 ^ 32 - 1 ∧
    (codeBits s.code (srcBytes s) = [] ∨ 1028 + ceil8 (codeBits s.code (srcBytes s)).length ≤ s.dstCap.toNat) := by
  obtain ⟨payload, nb, hpack, -⟩ := (exec_effect h).pack_eq_withPayload (by simp [hp]) (by simp [ht])
  obtain ⟨hcoded, rfl, hmax, -, hroom, -⟩ := packAll_ok hpack
  exact ⟨hcoded, hmax, hroom.imp_left ceil8_length_eq_zero_iff.mp⟩

section
variable {payload : List Byte} {bits : BitString} {n : Nat} (nb : Nat) (s : State)

/-- Byte `k` of a stored payload holds the bits from `8k` on, first bit at the top (R178). -/
theorem read?_withPayload_dst (hbits : payloadBits payload = bits ++ List.replicate n false) {k : Nat}
    (hk : k < payload.length) : ∃ b, Memory.read? (withPayload payload nb s).dst (1028 + k) = some b ∧
      ∀ j < 8, b.getLsbD (7 - j) = bits.getD (8 * k + j) false := by
  refine ⟨payload[k], Memory.read?_writeRun_inside hk, fun j hj => ?_⟩
  rw [← payloadBits_getD hk hj, hbits, getD_append_replicate_false]

theorem read?_withPayload_dst_outside {a : Nat} (ha : a < 1028 ∨ 1028 + payload.length ≤ a) :
    Memory.read? (withPayload payload nb s).dst a = Memory.read? s.dst a :=
  Memory.read?_writeRun_outside ha

end

/-- Settles O31: the payload that `packAll` makes is the codes end to end with padding, and `withPayload` stores it. -/
theorem packStoresTheCodes : Obligations.PackStoresTheCodes := by
  refine ⟨fun s => srcBytes_eq, fun s t => pack_conditions_of_packed, ?_⟩
  rintro s _ hp rfl hcoded hmax hroom
  obtain ⟨payload, hpack, hlen, hbits⟩ :=
    (packAll_spec hcoded hmax).1 (hroom.imp_left ceil8_length_eq_zero_iff.mpr)
  exact ⟨_, exec_pack_ok hp hpack, rfl, withPayload_vbits_toNat hmax, codeBits_length_eq s.code (srcBytes s),
    fun k hk => read?_withPayload_dst _ s hbits (hlen ▸ hk), fun a ha => read?_withPayload_dst_outside _ s (hlen ▸ ha)⟩

/-- Settles O33: `packAll` stops at the byte whose code does not fit, and the command enters the fault that it raised. -/
theorem packRaisesBitCountRange : Obligations.PackRaisesBitCountRange := by
  intro s pre post v hp hsrc hcoded hmax hroom hv hbig
  have hstop := (packAll_stop (post := post) hcoded hmax (hroom.imp_left Nat.div_eq_of_lt)).2 hv hbig
  rw [← hsrc] at hstop
  exact ⟨_, exec_pack_error hp hstop,
    enterFault_recorded { kind := .bitCountRange, info := BitVec.ofNat 64 pre.length } _ s⟩

end Sys2Proof.Machine
end

section
/-! PROOFS. The bit-unpacker (44_bit_unpacker.md): the causes of `MalformedStream` (R193), and that `UNPACK` reads the valid
bits of the payload and nothing else of `SRC` (R194, R196). -/

namespace Sys2Proof.Machine

/-! The causes of `MalformedStream` in the walk: R193 (a) to (c). -/

section
variable {nodes : List Node} {root cur : NodeIdx} {cap i nout : Nat}

theorem walk_at_leaf {v : Byte} {f : Freq} (hn : nodes[cur.toNat]? = some (.leaf v f)) (bit : Bool) (bits : BitString) :
    walk nodes root cap (bit :: bits) i cur nout = .error (malformedAt i) := by
  simp only [walk, hn]

theorem walk_outside_arena {f : Freq} {l r : NodeIdx} {bit : Bool} (hn : nodes[cur.toNat]? = some (.internal f l r))
    (hout : nodes.length ≤ (if bit then r else l).toNat) (bits : BitString) :
    walk nodes root cap (bit :: bits) i cur nout = .error (malformedAt i) := by
  simp only [walk, hn, List.getElem?_eq_none hout]

theorem walk_ends_away_from_root (h : cur ≠ root) : walk nodes root cap [] i cur nout = .error (malformedAt i) := by
  rw [walk, if_neg h]

end

/-- `ERR_INFO` of a stream that ends inside a code (R193 c). -/
theorem malformedAt_vbits_info (s : State) : (malformedAt s.vbits.toNat).info = s.vbits.setWidth 64 :=
  BitVec.ofNat_toNat ..

/-! `UNPACK` on the tree that `BUILD` made. -/

/-- Both faults of the decoding: the stream ends inside a code, or `DST` has no room. -/
theorem State.TreeBuilt.unpackAll_error {s : State} (hT : s.TreeBuilt) {r : Raised} (h : unpackAll s = .error r) :
    r = malformedAt s.vbits.toNat ∨ r.kind = .dstOverflow := by
  obtain ⟨hc, hnodes, hroot, _⟩ := hT
  obtain ⟨tl, tr, hd, -⟩ := buildNodes_denotes hc
  rw [unpackAll, hnodes, hroot] at h
  rcases walk_error hd ⟨tl, tr, rfl⟩ hd ⟨tl, tr, rfl⟩ h with hend | ⟨hkind, -⟩
  · rw [streamBits_length, Nat.zero_add] at hend
    exact .inl hend
  · exact .inr hkind

/-- A stream of whole codes and a part of one is read to its end, where the walk stands inside a code. -/
theorem State.TreeBuilt.unpackAll_of_part {s : State} (hT : s.TreeBuilt) {code : CodeTable}
    (hd : deriveTable s.nodes s.root = some code) {bytes : List Byte} {v : Byte} {part : BitString}
    (hbytes : ∀ u ∈ bytes, code[u.toNat] ≠ []) (hcap : bytes.length ≤ s.dstCap.toNat) (hnil : part ≠ [])
    (hpre : part <+: code[v.toNat]) (hne : part ≠ code[v.toNat])
    (hbits : streamBits s = codeBits code bytes ++ part) : unpackAll s = .error (malformedAt s.vbits.toNat) := by
  obtain ⟨T, hC⟩ := hT.codeOf hd
  obtain ⟨hc, hnodes, hroot, _⟩ := hT
  have hv : code[v.toNat] ≠ [] := fun hcode => hnil (List.prefix_nil.mp (hcode ▸ hpre))
  have hlen : (codeBits code bytes).length + part.length = s.vbits.toNat := by
    rw [← List.length_append, ← hbits, streamBits_length]
  rw [unpackAll, hnodes, hroot, hbits,
    hC.walk_codeBits_append (fun u hu => hC.code_ne_nil.mp (hbytes u hu)) (by rwa [Nat.zero_add]),
    walk_part (buildNodes_root hc) hC.denotes (hC.mem_paths hv) hpre hne hnil, Nat.zero_add, hlen]

/-- The payload in `SRC` that shows some bits, as many as `VBITS` says, is those bits (R191). -/
theorem streamBits_eq_of_payload {s : State} (hw : Memory.wf s.src) {bits : BitString} (hlen : bits.length = s.vbits.toNat)
    (h : ∀ i < s.vbits.toNat, (srcByte s (1028 + i / 8)).getLsbD (7 - i % 8) = bits.getD i false) :
    streamBits s = bits := by
  refine bits_ext ((streamBits_length s).trans hlen.symm) (fun i hi => ?_)
  rw [streamBits_length] at hi
  rw [streamBits_getD hw hi, h i hi]

/-- Settles O43: the walk's causes one by one, then the faults of the whole decoding on the tree that `BUILD` made. -/
theorem unpackReportsACodeCutShort : Obligations.UnpackReportsACodeCutShort := by
  refine ⟨fun nodes root cur cap i nout bit bits => ⟨fun v f hn => walk_at_leaf hn bit bits,
    fun f l r hn hout => walk_outside_arena hn hout bits, walk_ends_away_from_root⟩, ?_, ?_⟩
  · intro s t hp hT ht hkind hnone
    cases exec_effect ht with
    | ignored _ hf => rw [hp] at hf; cases hf
    | outOfSequence => cases hkind
    | unpacked => rw [withOutput_err, hnone] at hkind; cases hkind
    | unpackFault _ hr =>
      rw [enterFault_err] at hkind
      rcases hT.unpackAll_error hr with rfl | hover
      · rw [enterFault_errInfo, malformedAt_vbits_info, BitVec.toNat_setWidth_of_le (by decide)]
      · rw [hover] at hkind; cases hkind
  · intro s code bytes v part hw hp hT hd hbytes hcap hnil hpre hne hlen hpayload
    have hend := hT.unpackAll_of_part hd hbytes hcap hnil hpre hne (streamBits_eq_of_payload hw hlen hpayload)
    refine ⟨_, exec_unpack_error hp hend, ?_⟩
    rw [← malformedAt_vbits_info]
    exact enterFault_recorded (malformedAt s.vbits.toNat) _ s

/-! `UNPACK` over two source buffers. -/

/-- `UNPACK` takes nothing but the stream from `SRC`: with another buffer of the same stream it leads to the same state but
for the buffer, whether it completes, faults, or does not start. -/
theorem exec_unpack_withSrc {s t : State} {m : Memory} (hbits : streamBits { s with src := m } = streamBits s)
    (h : exec .unpack s = .next t) : exec .unpack { s with src := m } = .next { t with src := m } := by
  have hall : unpackAll { s with src := m } = unpackAll s := by simp only [unpackAll, hbits]
  cases exec_effect h with
  | ignored _ hf => exact exec_fault (by decide) hf
  | outOfSequence hf hl => exact inPhase_illegal hf hl
  | unpackFault hp hr => exact exec_unpack_error (s := { s with src := m }) hp (hall.trans hr)
  | unpacked hp hout => exact exec_unpack_ok (s := { s with src := m }) hp (hall.trans hout)

/-- Settles O44: buffers that agree in the valid bits have the same stream. -/
theorem unpackIgnoresPaddingAndSurplus : Obligations.UnpackIgnoresPaddingAndSurplus := by
  intro s t m hw hm hagree ht
  have hbits : streamBits { s with src := m } = streamBits s :=
    streamBits_eq_of_payload hm (streamBits_length s)
      (fun i hi => (hagree i hi).trans (streamBits_getD hw hi).symm)
  exact ⟨_, exec_unpack_withSrc hbits ht, fun _ => rfl, rfl, rfl, rfl, rfl, rfl, rfl, rfl⟩

end Sys2Proof.Machine
end

section
/-! PROOFS. The container header (45_container.md): the count that does not fit its field (R206), what `PARSE` reads (R207,
R209), and the two lengths that `TruncatedInput` asks for (R208). -/

namespace Sys2Proof.Machine

/-- Before `WRHDR` the operation has stored the payload alone, so a fault of a command that has stored nothing itself takes
no header byte (R69, R254). -/
theorem read?_enterFault_dst_header {s : State} (hp : s.phase = .packed) (r : Raised) {a : Nat} (ha : a < 1028) :
    Memory.read? (enterFault r Extent.none s).dst a = Memory.read? s.dst a := by
  have hlo : (storedExtent s).lo = 1028 := by simp only [storedExtent, hp]; rfl
  rw [enterFault_dst, Memory.forget_none, Memory.read?_forget, hlo, if_neg fun h => Nat.not_le.mpr ha h.1]

/-- Settles O37: `CountRange` names the lowest byte value, and the fault has only the payload to lose. -/
theorem wrhdrRaisesCountRange : Obligations.WrhdrRaisesCountRange := by
  intro s v hp hbig hlowest
  refine ⟨_, exec_wrhdr_countRange hp (countTooLarge_eq hbig hlowest), ?_, fun a => read?_enterFault_dst_header hp _⟩
  rw [BitVec.ofNat_toNat]
  exact enterFault_recorded { kind := .countRange, info := v.setWidth 64 } Extent.none s

/-- A count after `PARSE` has the value of the big-endian field at `4 * v` (R95, R207): zero-extension keeps it (R209). -/
theorem withParsed_hist_toNat {s : State} (hw : Memory.wf s.src) (v : Byte) :
    (withParsed s).hist[v.toNat].toNat =
      (srcByte s (4 * v.toNat)).toNat * 2 ^ 24 + (srcByte s (4 * v.toNat + 1)).toNat * 2 ^ 16 +
      (srcByte s (4 * v.toNat + 2)).toNat * 2 ^ 8 + (srcByte s (4 * v.toNat + 3)).toNat := by
  have hhist : (withParsed s).hist[v.toNat] = ((headerFields s).getD v.toNat 0).setWidth 64 :=
    histOfFields_getElem (headerFields s) v
  rw [hhist, BitVec.toNat_setWidth_of_le (by decide), headerFields_getD hw (Nat.lt_succ_of_lt v.isLt), be32_toNat]

/-- Settles O39: the next state is `withParsed`, whose counts and bit count are the fields of the header. -/
theorem parseReadsTheHeader : Obligations.ParseReadsTheHeader := by
  rintro s _ hw hp hheader rfl hpayload
  rw [← headerFields_vbits hw] at hpayload ⊢
  refine ⟨withParsed s, exec_parse hp hheader hpayload, rfl, fun v => ⟨withParsed_hist_toNat hw v, ?_⟩⟩
  exact histOfFields_le (headerFields s) v

/-- Settles O40: either check that fails enters the fault with the length it asks for. -/
theorem parseRaisesTruncatedInput : Obligations.ParseRaisesTruncatedInput := by
  refine fun s hp => ⟨fun hshort => ?_, ?_⟩
  · exact ⟨_, exec_parse_shortHeader hp hshort, enterFault_recorded (truncatedAt 1028) Extent.none s⟩
  · rintro _ hw hheader rfl hshort
    rw [← headerFields_vbits hw] at hshort ⊢
    exact ⟨_, exec_parse_shortPayload hp hheader hshort, enterFault_recorded (truncatedAt _) Extent.none s⟩

end Sys2Proof.Machine
end

section
/-! PROOFS. Control (46_control.md): `CLR` (R225), the register transactions (R226, R227), and the phase table (R229). -/

namespace Sys2Proof.Machine

/-! `CLR`. -/

/-- In phase `IDLE` the tables are empty and the registers of the operation 0 already (R41, R43). -/
theorem State.Inv.clear_of_idle {s : State} (h : s.Inv) (hp : s.phase = .idle) : Machine.clear s = s := by
  have herr : s.err = none := h.err_none (by simp [hp])
  have hinfo : s.errInfo = 0 := h.errInfoZero herr
  have hlen : s.dstLen = 0 := h.dstLenZero (by simp [hp]) (by simp [hp])
  have hstage := h.stage
  simp only [State.StageInv, hp] at hstage
  obtain ⟨hhist, ⟨hnodes, hroot, hnleaves⟩, hcode, hvbits, hnorm⟩ := hstage
  cases s
  simp_all [Machine.clear]

/-- Settles O10: `CLR` is `clear`, which an idle block shows no trace of. -/
theorem clrMakesTheBlockFresh : Obligations.ClrMakesTheBlockFresh :=
  ⟨fun _ => rfl, fun _ h hp => congrArg Host.Outcome.next (h.clear_of_idle hp), fun _ _ hp hi => exec_fault hi hp⟩

/-! Register writes. -/

theorem aligned_iff {o : Offset} : Offset.aligned o = true ↔ o.toNat % 8 = 0 := beq_iff_eq

theorem hostMove_write_ne_cmd {o : Offset} (ha : o.toNat % 8 = 0) (ho : o ≠ 0x00) (v : Word) (s : State) :
    hostMove (.write o v) s = .next (busWrite o v s) := by
  have hcmd : regAt o ≠ some .cmd := fun h => ho (regAt_eq_some.mp h).symm
  simp only [hostMove, aligned_iff.mpr ha, hcmd, if_true, if_false]

/-- Only `SRC_LEN`, `DST_CAP` and `TBL_ADDR` store a written value (R226, R38). -/
theorem busWrite_ignored {o : Offset} (ho : o ∉ ([0x00, 0x10, 0x18, 0x38] : List Offset)) (v : Word) (s : State) :
    busWrite o v s = s := by
  rw [busWrite]
  cases hr : regAt o with
  | none => rfl
  | some r =>
    rw [← regAt_eq_some.mp hr] at ho
    cases r with
    | srcLen | dstCap | tblAddr => exact absurd (by decide) ho
    | cmd | status | dstLen | vbits | tree | tblData | errInfo => rfl

/-- Settles O12: the writes that store something one by one, then all the others. -/
theorem registerWritesFollowTheMap : Obligations.RegisterWritesFollowTheMap := by
  refine fun s v => ⟨rfl, rfl, rfl, rfl, fun o ha ho => ?_⟩
  rw [hostMove_write_ne_cmd ha (List.ne_of_not_mem_cons ho), busWrite_ignored ho]

/-! Register reads. -/

theorem hostMove_read {o : Offset} (ha : o.toNat % 8 = 0) (s : State) : hostMove (.read o) s = .next (busRead o s) := by
  simp only [hostMove, aligned_iff.mpr ha, if_true]

theorem offsetValue_offset (r : Reg) (s : State) : offsetValue r.offset s = regValue r s := by
  rw [offsetValue, regAt_eq_some.mpr rfl]

theorem statusWord_toNat (s : State) : (statusWord s).toNat =
    (Phase.code s.phase).toNat + (errCode s.err).toNat * 16 + s.normCnt.toNat * 256 := by
  simp only [statusWord, append_toNat, BitVec.toNat_ofNat]
  omega

theorem treeWord_toNat (s : State) : (treeWord s).toNat =
    s.root.toNat + (s.nodes.length % 1024) * 2 ^ 16 + s.nleaves.toNat * 2 ^ 32 := by
  simp only [treeWord, nnodes, append_toNat, BitVec.toNat_ofNat]
  omega

/-- The registers lie below offset 0x50 (R37). -/
theorem regOffset_lt (r : Reg) : r.offset.toNat < 0x50 := by
  cases r <;> decide

theorem offsetValue_undefined {o : Offset} (ho : 0x50 ≤ o.toNat) (s : State) : offsetValue o s = 0 := by
  rw [offsetValue]
  cases hr : regAt o with
  | none => rfl
  | some r =>
    rw [← regAt_eq_some.mp hr] at ho
    exact absurd (regOffset_lt r) (Nat.not_lt.mpr ho)

/-- Settles O13: the data is `offsetValue`, the register at the offset. -/
theorem registerReadsShowTheMap : Obligations.RegisterReadsShowTheMap := by
  intro s o ha
  refine ⟨offsetValue o s, hostMove_read ha s, ?cmd, ?status, ?srcLen, ?dstCap, ?dstLen, ?vbits, ?tree, ?tblAddr, ?tblData,
    ?errInfo, (offsetValue_undefined · s)⟩
  all_goals rintro rfl
  case cmd => exact offsetValue_offset .cmd s
  case status => exact statusWord_toNat s
  case srcLen => exact offsetValue_offset .srcLen s
  case dstCap => exact offsetValue_offset .dstCap s
  case dstLen => exact offsetValue_offset .dstLen s
  case vbits => exact BitVec.toNat_setWidth_of_le (by decide)
  case tree => exact treeWord_toNat s
  case tblAddr => exact (tblAddrWord_toNat s.tblAddr).trans (by omega)
  case tblData => exact fun hp => (offsetValue_offset .tblData s).trans (if_neg hp)
  case errInfo => exact offsetValue_offset .errInfo s

/-! The phase table. -/

/-- The dispatcher's legal phases are those of the phase table (R228, R229). -/
theorem legalIn_eq_isSome_phaseTable (i : Instr) (p : Phase) : legalIn i p = (phaseTable p i).isSome := by
  cases i <;> cases p <;> rfl

/-- The phase that a command ends in (R229). -/
theorem Effect.phase_of_phaseTable {s t : State} {i : Instr} {p : Phase} (h : Effect s i t)
    (hp : phaseTable s.phase i = some p) : t.phase = p ∨ t.phase = .fault := by
  cases h with
  | ignored _ hf => exact .inr hf
  | outOfSequence | degenerate | packFault | countRange | headerOverflow | shortHeader | shortPayload | unpackFault =>
    exact .inr rfl
  | cleared => exact .inl (Option.some.inj hp)
  | counted hs | normed hs | builtE hs | builtD hs | derived hs | packed hs | headerWritten hs | parsed hs | unpacked hs =>
    rw [hs] at hp
    exact .inl (Option.some.inj hp)

/-- Outside its phases, and outside `FAULT`, a command raises `Sequence` (R228 step 4). -/
theorem exec_outOfSequence {i : Instr} {s : State} (hf : s.phase ≠ .fault) (hl : legalIn i s.phase = false) :
    exec i s = .next (enterFault { kind := .sequence, info := sequenceInfo i s.phase } Extent.none s) := by
  cases i with
  | clr => cases hl
  | cnt | norm | build | derive | pack | wrhdr | parse | unpack => exact inPhase_illegal hf hl

theorem sequenceInfo_eq (i : Instr) (p : Phase) :
    sequenceInfo i p = BitVec.ofNat 64 ((opcode i).toNat + (Phase.code p).toNat * 2 ^ 8) := by
  have hi := (opcode i).isLt
  have hp := (Phase.code p).isLt
  apply BitVec.eq_of_toNat_eq
  simp only [sequenceInfo, append_toNat, BitVec.toNat_ofNat]
  omega

/-- Settles O7: the table's rows are what each command can do, and the other pairs fail the phase check. -/
theorem phaseTableIsTheWholeOfControl : Obligations.PhaseTableIsTheWholeOfControl := by
  refine fun i s => ⟨fun p t hp ht => (exec_effect ht).phase_of_phaseTable hp, fun hnone hf => ?_, fun hnone hf => ?_⟩
  · have hl : legalIn i s.phase = false := by rw [legalIn_eq_isSome_phaseTable, hnone]; rfl
    rw [← sequenceInfo_eq]
    exact ⟨_, exec_outOfSequence hf hl, enterFault_recorded { kind := .sequence, info := sequenceInfo i s.phase } _ s⟩
  · have hi : i ≠ .clr := by rintro rfl; cases hnone
    exact exec_fault hi hf

end Sys2Proof.Machine
end

section
/-! PROOFS. The operations `ENCODE` and `DECODE` (46_control.md R230 to R232): the states they pass through, their outcomes,
and the round trip. -/

namespace Sys2Proof.Machine

/-! Sequences of commands. -/

theorem execAll_cons {i : Instr} {s t : State} (h : exec i s = .next t) (rest : List Instr) :
    execAll (i :: rest) s = execAll rest t := by
  rw [execAll, h]

theorem execAll_singleton (i : Instr) (s : State) : execAll [i] s = exec i s := by
  rw [execAll]
  cases exec i s <;> rfl

/-- Once in `FAULT` the commands that follow are ignored (R228 step 1). -/
theorem execAll_fault {is : List Instr} {s : State} (hf : s.phase = .fault) (his : .clr ∉ is) : execAll is s = .next s := by
  induction is with
  | nil => rfl
  | cons i is ih =>
    rw [execAll_cons (exec_fault (List.ne_of_not_mem_cons his).symm hf)]
    exact ih (List.not_mem_of_not_mem_cons his)

/-! The histogram of an input and its codes. -/

/-- A source has at most `2^64 - 1` bytes, so no count of it wraps (R122). -/
theorem State.srcBytes_length_lt (s : State) : (srcBytes s).length < 2 ^ 64 :=
  srcBytes_length s ▸ s.srcLen.isLt

/-- The normalized counts of an input: the histogram that an encode of it builds its tree from (R120, R123). -/
def inputHist (bytes : List Byte) : Hist := (normalize (countBytes bytes emptyHist)).1

theorem codeOfInput_codeOf {bytes : List Byte} {code : CodeTable} (h : codeOfInput bytes = some code) :
    ∃ T, CodeOf (inputHist bytes) code T := by
  obtain ⟨code', T, hcode, hC⟩ := codeOfHist_spec (countNonzero_normalize (countBytes bytes emptyHist))
  obtain rfl : code' = code := Option.some.inj (hcode.symm.trans h)
  exact ⟨T, hC⟩

/-- A phantom is counted once (R123). -/
theorem normalize_getElem_le_one {h : Hist} {v : Byte} (hv : h[v.toNat] = 0) : (normalize h).1[v.toNat].toNat ≤ 1 := by
  rcases normalize_cases h with ⟨hz, he⟩ | ⟨d, hd, he⟩ | ⟨_, he⟩
  · have hall := nonzeroBytes_eq_nil_iff.mp hz
    have h1 : (bump h 0)[(1 : Byte).toNat] = 0 := by rw [bump_getElem_of_zero (hall 0), if_neg (by decide), hall]
    simp only [he, bump_getElem_of_zero h1, bump_getElem_of_zero (hall 0), hv]
    split_ifs <;> decide
  · simp only [he, bump_getElem_of_zero (phantomTarget_zero (phantomTarget_single hd)), hv]
    split_ifs <;> decide
  · simp [he, hv]

section
variable {bytes : List Byte} (hl : bytes.length < 2 ^ 64)
include hl

theorem inputHist_ne_zero {v : Byte} (hv : v ∈ bytes) : (inputHist bytes)[v.toNat] ≠ 0 := by
  have hcount : (countBytes bytes emptyHist)[v.toNat] ≠ 0 := by
    rw [word_ne_zero_iff, countBytes_toNat hl, occurrences, List.length_filter_pos_iff]
    exact ⟨v, hv, beq_self_eq_true v⟩
  rw [inputHist, normalize_getElem_of_ne_zero hcount]
  exact hcount

/-- Every byte of an input has a code, so an encode never raises `Lookup` (R179, R230). -/
theorem codeOfInput_ne_nil {code : CodeTable} (hcode : codeOfInput bytes = some code) :
    ∀ v ∈ bytes, code[v.toNat] ≠ [] := by
  obtain ⟨T, hC⟩ := codeOfInput_codeOf hcode
  exact fun v hv => hC.code_ne_nil.mpr (inputHist_ne_zero hl hv)

theorem inputHist_le_fieldMax {v : Byte} (hocc : occurrences v bytes < 2 ^ 32) :
    (inputHist bytes)[v.toNat].toNat ≤ Config.fieldMax := by
  by_cases hv : (countBytes bytes emptyHist)[v.toNat] = 0
  · exact (normalize_getElem_le_one hv).trans (by decide)
  · rw [inputHist, normalize_getElem_of_ne_zero hv, countBytes_toNat hl]
    exact Nat.le_pred_of_lt hocc

end

/-! `ENCODE`. -/

/-- The state in which an encode of the source with the given code table comes to `PACK` (R104). -/
def codedState (code : CodeTable) (s : State) : State :=
  withCode code (withTree (withNormal (withCounts (clear s))) .builtE)

theorem execEncode_eq {s : State} {code : CodeTable} (hcode : codeOfInput (srcBytes s) = some code) :
    execEncode s = execAll [.pack, .wrhdr] (codedState code s) := by
  have hderive : exec .derive (withTree (withNormal (withCounts (clear s))) .builtE) = .next (codedState code s) :=
    exec_derive rfl hcode
  rw [execEncode, encodeStages, execAll_cons (t := clear s) rfl, execAll_cons (exec_cnt rfl), execAll_cons (exec_norm rfl),
    execAll_cons (exec_build (.inl rfl) (countNonzero_normalize _)), if_pos (withNormal_phase _), execAll_cons hderive]

section
variable {s : State} {code : CodeTable} (hcode : codeOfInput (srcBytes s) = some code)
include hcode

theorem execEncode_of_packFault {r : Raised} (h : packAll code s.dstCap.toNat (srcBytes s) = .error r) :
    execEncode s = .next (enterFault r (packExtent (codedState code s)) (codedState code s)) := by
  rw [execEncode_eq hcode, execAll_cons (exec_pack_error rfl h)]
  exact execAll_fault rfl (by decide)

theorem execEncode_of_packed {payload : List Byte} {nb : Nat}
    (h : packAll code s.dstCap.toNat (srcBytes s) = .ok (payload, nb)) :
    execEncode s = exec .wrhdr (withPayload payload nb (codedState code s)) := by
  rw [execEncode_eq hcode, execAll_cons (exec_pack_ok rfl h), execAll_singleton]

end

/-! The container that `PACK` and `WRHDR` leave. -/

theorem read?_withHeader_dst_header (s : State) {a : Nat} (ha : a < 1028) :
    Memory.read? (withHeader s).dst a = (headerBytes s.hist s.vbits)[a]? := by
  rw [withHeader_dst, Memory.read?_writeRun, if_pos (by rw [headerBytes_length]; omega), Nat.sub_zero]

theorem read?_withHeader_dst_payload (s : State) {a : Nat} (ha : 1028 ≤ a) :
    Memory.read? (withHeader s).dst a = Memory.read? s.dst a :=
  Memory.read?_writeRun_outside (.inr (by rw [headerBytes_length]; omega))

theorem withHeader_dstLen_toNat (s : State) : (withHeader s).dstLen.toNat = 1028 + ceil8 s.vbits.toNat := by
  have hv := s.vbits.isLt
  have hc : ceil8 s.vbits.toNat ≤ s.vbits.toNat + 7 := Nat.div_le_self _ _
  rw [withHeader_dstLen, BitVec.toNat_ofNat, Config.payloadOff, Nat.mod_eq_of_lt (by omega)]

theorem isContainer_withHeader {s : State} {payload : List Byte} {bits : BitString} {n : Nat}
    (hlen : payload.length = ceil8 bits.length) (hbits : payloadBits payload = bits ++ List.replicate n false) :
    IsContainer s.hist bits (withHeader (withPayload payload bits.length s)).dst where
  counts v j hj := by
    have hv := v.isLt
    rw [read?_withHeader_dst_header _ (by omega)]
    exact headerBytes_count s.hist _ v hj
  bitCount j hj := by
    rw [read?_withHeader_dst_header _ (by omega)]
    exact headerBytes_vbits s.hist _ hj
  payload k hk := by
    rw [read?_withHeader_dst_payload _ (Nat.le_add_right 1028 k)]
    exact read?_withPayload_dst _ s hbits (hlen ▸ hk)

/-- What an encode that completes leaves in `DST_LEN` and `DST` (R94, R211). -/
theorem withHeader_of_packAll {s : State} {code : CodeTable} {payload : List Byte} {nb : Nat}
    (hpack : packAll code s.dstCap.toNat (srcBytes s) = .ok (payload, nb)) :
    (withHeader (withPayload payload nb (codedState code s))).dstLen.toNat =
      1028 + ceil8 (codeBits code (srcBytes s)).length ∧
    IsContainer (inputHist (srcBytes s)) (codeBits code (srcBytes s))
      (withHeader (withPayload payload nb (codedState code s))).dst := by
  obtain ⟨-, rfl, hmax, hlen, -, hbits⟩ := packAll_ok hpack
  refine ⟨?_, isContainer_withHeader (s := codedState code s) hlen hbits⟩
  rw [withHeader_dstLen_toNat, withPayload_vbits_toNat hmax]

/-- Where every count fits its field (R206), the codes fit `VBITS` (R180) and the container has room, an encode completes. -/
theorem execEncode_of_room {s : State} {code : CodeTable} (hcode : codeOfInput (srcBytes s) = some code)
    (hcounts : ∀ v : Byte, (inputHist (srcBytes s))[v.toNat].toNat ≤ Config.fieldMax)
    (hmax : (codeBits code (srcBytes s)).length ≤ Config.fieldMax)
    (hroom : 1028 + ceil8 (codeBits code (srcBytes s)).length ≤ s.dstCap.toNat) :
    ∃ e, execEncode s = .next e ∧ e.phase = .doneE ∧
      e.dstLen.toNat = 1028 + ceil8 (codeBits code (srcBytes s)).length ∧
      IsContainer (inputHist (srcBytes s)) (codeBits code (srcBytes s)) e.dst := by
  have hcoded := codeOfInput_ne_nil s.srcBytes_length_lt hcode
  obtain ⟨payload, hpack, -⟩ := (packAll_spec hcoded hmax).1 (.inr hroom)
  exact ⟨_, (execEncode_of_packed hcode hpack).trans
    (exec_wrhdr rfl (countTooLarge_none.mpr hcounts) ((Nat.le_add_right ..).trans hroom)), rfl, withHeader_of_packAll hpack⟩

/-- Settles O55: what `PACK` answers, then what `WRHDR` checks. -/
theorem encodeHasOneOfFourOutcomes : Obligations.EncodeHasOneOfFourOutcomes := by
  intro s
  obtain ⟨code, _, hcode, _⟩ := codeOfHist_spec (countNonzero_normalize (countBytes (srcBytes s) emptyHist))
  have hcoded := codeOfInput_ne_nil s.srcBytes_length_lt hcode
  cases hpack : packAll code s.dstCap.toNat (srcBytes s) with
  | error r =>
    refine ⟨_, code, execEncode_of_packFault hcode hpack, hcode, .inr ⟨rfl, ?_⟩⟩
    rcases packAll_error hpack with ⟨_, v, hv, hnil⟩ | hkind | hkind
    · exact absurd hnil (hcoded v hv)
    · exact .inl (congrArg some hkind)
    · exact .inr (.inr (congrArg some hkind))
  | ok result =>
    obtain ⟨payload, nb⟩ := result
    have hexec := execEncode_of_packed hcode hpack
    cases hlarge : countTooLarge (inputHist (srcBytes s)) with
    | some v => exact ⟨_, code, hexec.trans (exec_wrhdr_countRange rfl hlarge), hcode, .inr ⟨rfl, .inr (.inl rfl)⟩⟩
    | none =>
      by_cases hroom : Config.hdrBytes ≤ s.dstCap.toNat
      · exact ⟨_, code, hexec.trans (exec_wrhdr rfl hlarge hroom), hcode, .inl ⟨rfl, withHeader_of_packAll hpack⟩⟩
      · exact ⟨_, code, hexec.trans (exec_wrhdr_dstOverflow rfl hlarge (Nat.lt_of_not_le hroom)), hcode,
          .inr ⟨rfl, .inr (.inr rfl)⟩⟩

/-! `DECODE`. -/

/-- The state in which a decode of the source comes to `UNPACK` (R104). -/
def treeState (s : State) : State := withTree (withParsed (clear s)) .builtD

section
variable {s : State}

theorem execDecode_eq (s : State) : execDecode s = execAll decodeStages (clear s) :=
  execAll_cons rfl decodeStages

theorem execDecode_of_shortHeader (h : s.srcLen.toNat < Config.hdrBytes) :
    execDecode s = .next (enterFault (truncatedAt Config.hdrBytes) Extent.none (clear s)) := by
  rw [execDecode_eq, decodeStages, execAll_cons (exec_parse_shortHeader (s := clear s) rfl h)]
  exact execAll_fault rfl (by decide)

variable (hheader : Config.hdrBytes ≤ s.srcLen.toNat)
include hheader

theorem execDecode_of_shortPayload
    (h : s.srcLen.toNat - Config.payloadOff < ceil8 (vbitsOfFields (headerFields s)).toNat) :
    execDecode s = .next (enterFault
      (truncatedAt (Config.payloadOff + ceil8 (vbitsOfFields (headerFields s)).toNat)) Extent.none (clear s)) := by
  rw [execDecode_eq, decodeStages, execAll_cons (exec_parse_shortPayload (s := clear s) rfl hheader h)]
  exact execAll_fault rfl (by decide)

variable (hpayload : ceil8 (vbitsOfFields (headerFields s)).toNat ≤ s.srcLen.toNat - Config.payloadOff)
include hpayload

theorem execDecode_of_parsed : execDecode s = execAll [.build, .unpack] (withParsed (clear s)) := by
  rw [execDecode_eq, decodeStages, execAll_cons (exec_parse (s := clear s) rfl hheader hpayload)]

theorem execDecode_of_degenerate (hc : countNonzero (withParsed (clear s)).hist < 2) :
    execDecode s = .next (enterFault
      { kind := .degenerateHistogram, info := BitVec.ofNat 64 (countNonzero (withParsed (clear s)).hist) } Extent.none
      (withParsed (clear s))) := by
  rw [execDecode_of_parsed hheader hpayload, execAll_cons (exec_build_degenerate (.inr rfl) hc)]
  exact execAll_fault rfl (by decide)

theorem execDecode_of_built (hc : 2 ≤ countNonzero (withParsed (clear s)).hist) :
    execDecode s = exec .unpack (treeState s) := by
  rw [execDecode_of_parsed hheader hpayload, execAll_cons (exec_build (.inr rfl) hc), if_neg (by simp), execAll_singleton,
    treeState]

end

theorem treeState_treeBuilt {s : State} (hc : 2 ≤ countNonzero (withParsed (clear s)).hist) : (treeState s).TreeBuilt :=
  ⟨hc, rfl, rfl, rfl⟩

/-! `UNPACK` on the tree of a code. -/

section
variable {s : State} (hT : s.TreeBuilt) {code : CodeTable} {T : HTree} (hC : CodeOf s.hist code T) {bytes : List Byte}
include hT hC

theorem State.TreeBuilt.unpackAll_of_codeBits (hbytes : ∀ v ∈ bytes, code[v.toNat] ≠ [])
    (hcap : bytes.length ≤ s.dstCap.toNat) (hbits : streamBits s = codeBits code bytes) : unpackAll s = .ok bytes := by
  obtain ⟨_, hnodes, hroot, _⟩ := hT
  rw [unpackAll, hnodes, hroot, hbits]
  exact hC.walk_codeBits (fun v hv => hC.code_ne_nil.mp (hbytes v hv)) (by rwa [Nat.zero_add]) 0

theorem State.TreeBuilt.codeBits_of_unpackAll (h : unpackAll s = .ok bytes) : streamBits s = codeBits code bytes := by
  obtain ⟨hc, hnodes, hroot, _⟩ := hT
  rw [unpackAll, hnodes, hroot] at h
  exact hC.walk_ok hc h

end

/-- At most one byte for each bit (R195), so `DST_LEN` holds the number of bytes. -/
theorem withOutput_dstLen_toNat {s : State} {out : List Byte} (h : unpackAll s = .ok out) :
    (withOutput out s).dstLen.toNat = out.length := by
  have hlen := (walk_length h).1
  rw [streamBits_length] at hlen
  have hv := s.vbits.isLt
  rw [withOutput_dstLen, BitVec.toNat_ofNat, Nat.mod_eq_of_lt (by omega)]

theorem read?_withOutput_dst (s : State) {out : List Byte} {k : Nat} (hk : k < out.length) :
    Memory.read? (withOutput out s).dst k = some out[k] := by
  rw [withOutput_dst, ← Memory.read?_writeRun_inside (b := 0) hk, Nat.zero_add]

/-- Settles O56: the checks of `PARSE` and of `BUILD` one after the other, then what `UNPACK` answers. -/
theorem decodeHasOneOfFiveOutcomes : Obligations.DecodeHasOneOfFiveOutcomes := by
  intro s hw
  by_cases hheader : Config.hdrBytes ≤ s.srcLen.toNat
  case neg => exact ⟨_, execDecode_of_shortHeader (Nat.lt_of_not_le hheader), .inr ⟨rfl, .inl rfl⟩⟩
  by_cases hpayload : ceil8 (vbitsOfFields (headerFields s)).toNat ≤ s.srcLen.toNat - Config.payloadOff
  case neg => exact ⟨_, execDecode_of_shortPayload hheader (Nat.lt_of_not_le hpayload), .inr ⟨rfl, .inl rfl⟩⟩
  by_cases hc : 2 ≤ countNonzero (withParsed (clear s)).hist
  case neg => exact ⟨_, execDecode_of_degenerate hheader hpayload (Nat.lt_of_not_le hc), .inr ⟨rfl, .inr (.inl rfl)⟩⟩
  have hexec := execDecode_of_built hheader hpayload hc
  cases hout : unpackAll (treeState s) with
  | error r =>
    refine ⟨_, hexec.trans (exec_unpack_error rfl hout), .inr ⟨rfl, .inr (.inr ?_)⟩⟩
    exact (walk_error_kind hout).imp (congrArg some) (congrArg some)
  | ok out =>
    obtain ⟨code, T, hcode, hC⟩ := codeOfHist_spec hc
    have hbits : streamBits (treeState s) = codeBits code out := (treeState_treeBuilt hc).codeBits_of_unpackAll hC hout
    refine ⟨_, hexec.trans (exec_unpack_ok rfl hout), .inl ⟨rfl, code, out, hcode, withOutput_dstLen_toNat hout,
      fun k hk => read?_withOutput_dst _ hk, ?_, fun i hi => ?_⟩⟩
    · rw [← hbits]
      exact streamBits_length _
    · rw [← hbits]
      exact (streamBits_getD (s := treeState s) hw hi).symm

/-! A container in `SRC`. -/

section
variable {d : State} {h : Hist} {bits : BitString} {m : Memory} (hm : IsContainer h bits m)
  (hread : ∀ a < 1028 + ceil8 bits.length, Memory.read? m a = some (srcByte d a))
include hm hread

theorem IsContainer.srcByte_count (v : Byte) {j : Nat} (hj : j < 4) :
    srcByte d (4 * v.toNat + j) = (h[v.toNat].setWidth 32).extractLsb' (24 - 8 * j) 8 := by
  have hv := v.isLt
  rw [BitVec.extractLsb'_setWidth_of_le (by omega)]
  exact Option.some.inj ((hread _ (by omega)).symm.trans (hm.counts v j hj))

theorem IsContainer.srcByte_bitCount {j : Nat} (hj : j < 4) :
    srcByte d (1024 + j) = (BitVec.ofNat 32 bits.length).extractLsb' (24 - 8 * j) 8 :=
  Option.some.inj ((hread _ (by omega)).symm.trans (hm.bitCount j hj))

/-- Bit `i` of the payload is bit `7 - i mod 8` of its byte `i div 8` (R96). -/
theorem IsContainer.srcByte_payload {i : Nat} (hi : i < bits.length) :
    (srcByte d (1028 + i / 8)).getLsbD (7 - i % 8) = bits.getD i false := by
  have hk : i / 8 < ceil8 bits.length := by rw [ceil8]; omega
  obtain ⟨b, hb, hbit⟩ := hm.payload (i / 8) hk
  obtain rfl : b = srcByte d (1028 + i / 8) :=
    Option.some.inj (hb.symm.trans (hread _ (Nat.add_lt_add_left hk 1028)))
  rw [hbit (i % 8) (Nat.mod_lt i (by decide)), Nat.div_add_mod]

variable (hw : Memory.wf d.src)
include hw

theorem IsContainer.vbitsOfFields_eq : vbitsOfFields (headerFields d) = BitVec.ofNat 32 bits.length := by
  rw [headerFields_vbits hw, ← Nat.add_zero 1024]
  simp only [hm.srcByte_bitCount hread (j := 0) (by decide), hm.srcByte_bitCount hread (j := 1) (by decide),
    hm.srcByte_bitCount hread (j := 2) (by decide), hm.srcByte_bitCount hread (j := 3) (by decide)]
  exact be32_be32Bytes _

/-- Counts that fit their fields are read back as they are (R207, R209). -/
theorem IsContainer.histOfFields_eq (hcounts : ∀ v : Byte, h[v.toNat].toNat ≤ Config.fieldMax) :
    histOfFields (headerFields d) = h := by
  apply table_ext
  intro v
  have hfield : (headerFields d).getD v.toNat 0 = h[v.toNat].setWidth 32 := by
    rw [headerFields_getD hw (Nat.lt_succ_of_lt v.isLt), ← Nat.add_zero (4 * v.toNat),
      hm.srcByte_count hread v (j := 0) (by decide), hm.srcByte_count hread v (j := 1) (by decide),
      hm.srcByte_count hread v (j := 2) (by decide), hm.srcByte_count hread v (j := 3) (by decide)]
    exact be32_be32Bytes _
  rw [histOfFields_getElem, hfield]
  apply BitVec.eq_of_toNat_eq
  have hv := hcounts v
  rw [Config.fieldMax] at hv
  rw [BitVec.toNat_setWidth_of_le (by decide), BitVec.toNat_setWidth, Nat.mod_eq_of_lt (by omega)]

end

/-! The round trip. -/

/-- `DECODE` of the container of an input (R94, R97) completes with the input: `PARSE` reads its counts, the tree made of
them is that of its codes, and the walk inverts these (R192). -/
theorem execDecode_of_container {d : State} {bytes : List Byte} {code : CodeTable} {m : Memory}
    (hl : bytes.length < 2 ^ 64) (hcode : codeOfInput bytes = some code)
    (hcounts : ∀ v : Byte, (inputHist bytes)[v.toNat].toNat ≤ Config.fieldMax)
    (hmax : (codeBits code bytes).length ≤ Config.fieldMax) (hm : IsContainer (inputHist bytes) (codeBits code bytes) m)
    (hw : Memory.wf d.src) (hlen : d.srcLen.toNat = 1028 + ceil8 (codeBits code bytes).length)
    (hread : ∀ a < 1028 + ceil8 (codeBits code bytes).length, Memory.read? m a = some (srcByte d a))
    (hcap : bytes.length ≤ d.dstCap.toNat) : execDecode d = .next (withOutput bytes (treeState d)) := by
  have hhist : (withParsed (clear d)).hist = inputHist bytes := hm.histOfFields_eq hread hw hcounts
  have hvbits : (vbitsOfFields (headerFields d)).toNat = (codeBits code bytes).length := by
    rw [hm.vbitsOfFields_eq hread hw, BitVec.toNat_ofNat, Nat.mod_eq_of_lt (Nat.lt_of_le_pred (by decide) hmax)]
  have hc : 2 ≤ countNonzero (withParsed (clear d)).hist := hhist ▸ countNonzero_normalize _
  obtain ⟨T, hC⟩ := codeOfInput_codeOf hcode
  rw [← hhist] at hC
  have hbits : streamBits (treeState d) = codeBits code bytes :=
    streamBits_eq_of_payload (s := treeState d) hw hvbits.symm
      (fun i hi => hm.srcByte_payload hread (hvbits ▸ hi))
  rw [execDecode_of_built (hlen ▸ Nat.le_add_right ..) (by rw [hvbits, hlen]; exact Nat.le_sub_of_add_le' le_rfl) hc]
  exact exec_unpack_ok rfl
    ((treeState_treeBuilt hc).unpackAll_of_codeBits hC (codeOfInput_ne_nil hl hcode) hcap hbits)

theorem srcBytes_getElem {s : State} (hw : Memory.wf s.src) {k : Nat} (hk : k < (srcBytes s).length) :
    (srcBytes s)[k] = srcByte s k := by
  simp only [srcBytes_eq hw, List.getElem_map, List.getElem_range]

/-- Settles O57: an encode leaves the container of the input, and a decode of that completes with the input. -/
theorem decodeOfEncodeIsTheInput : Obligations.DecodeOfEncodeIsTheInput := by
  intro s code hws hcode hocc hmax hroom
  rw [← codeBits_length_eq] at hmax
  have hcounts : ∀ v : Byte, (inputHist (srcBytes s))[v.toNat].toNat ≤ Config.fieldMax :=
    fun v => inputHist_le_fieldMax s.srcBytes_length_lt (hocc v)
  obtain ⟨e, hencode, hphase, hlen, hm⟩ := execEncode_of_room hcode hcounts hmax hroom
  refine ⟨e, hencode, hphase, fun d hwd hsrcLen hread hcap => ?_⟩
  rw [← srcBytes_length] at hcap
  have hdecode := execDecode_of_container s.srcBytes_length_lt hcode hcounts hmax hm hwd (hsrcLen ▸ hlen) (hlen ▸ hread)
    hcap
  refine ⟨_, hdecode, rfl, ?_, fun k hk => ?_⟩
  · rw [withOutput_dstLen, srcBytes_length, BitVec.ofNat_toNat, BitVec.setWidth_eq]
  · rw [← srcBytes_length] at hk
    rw [read?_withOutput_dst _ hk, srcBytes_getElem hws hk]

end Sys2Proof.Machine
end

section
/-! PROOFS. Faults (60_exceptions.md): what fault entry records (R247), and what phase `FAULT` leaves as it is (R248, R249). -/

namespace Sys2Proof.Machine

/-! Fault entry. -/

/-- A command enters `FAULT` by raising a fault of another kind than `IllegalCommand`, which is for words that are no
command (R245, R247). -/
theorem Effect.eq_enterFault {s t : State} {i : Instr} (h : Effect s i t) (hs : s.phase ≠ .fault) (ht : t.phase = .fault) :
    ∃ r own, r.kind ≠ .illegalCommand ∧ t = enterFault r own s := by
  cases h with
  | ignored _ hf => exact absurd hf hs
  | cleared | counted | normed | builtE | builtD | derived | packed | headerWritten | parsed | unpacked => cases ht
  | outOfSequence | degenerate | countRange | headerOverflow | shortHeader | shortPayload =>
    exact ⟨_, _, by simp [truncatedAt], rfl⟩
  | packFault _ hr =>
    refine ⟨_, _, fun hk => ?_, rfl⟩
    rcases packAll_error hr with ⟨hk', _⟩ | hk' | hk' <;> cases hk.symm.trans hk'
  | unpackFault _ hr =>
    refine ⟨_, _, fun hk => ?_, rfl⟩
    rcases walk_error_kind hr with hk' | hk' <;> cases hk.symm.trans hk'

/-- Settles O46: a command that enters `FAULT` raises a fault of its own, any other word raises `IllegalCommand`. -/
theorem faultEntryRecordsTheFault : Obligations.FaultEntryRecordsTheFault := by
  refine ⟨fun r own s => ⟨_, rfl, enterFault_recorded r own s⟩, fun s t w hs h ht => ?_⟩
  rcases submit_cases h with ⟨i, hd, he⟩ | ⟨k, hd, ⟨hf, _⟩ | ⟨_, rfl⟩⟩
  · obtain ⟨r, own, hk, rfl⟩ := he.eq_enterFault hs ht
    exact ⟨_, _, enterFault_recorded r own s, fun hi => absurd hi hk, fun hn => absurd hd (hn i)⟩
  · exact absurd hf hs
  · exact ⟨_, _, enterFault_recorded _ _ s, fun _ i hi => (by cases hd.symm.trans hi), fun _ => rfl⟩

/-! Phase `FAULT`. -/

/-- In phase `FAULT` every word but that of `CLR` is ignored, a word that is no command too (R228 step 1, R249). -/
theorem submit_fault {w : Word} {s : State} (hf : s.phase = .fault) (hw : w ≠ encode .clr) : submit w s = .next s := by
  rw [submit]
  split
  · next i hd =>
    refine exec_fault (fun hi => hw ?_) hf
    rw [decode_eq_ok.mp hd, hi]
  · exact if_pos hf

/-- Outside `IDLE` a write of a register reaches `TBL_ADDR` at most (R226). -/
theorem busWrite_of_not_idle {s : State} (hp : s.phase ≠ .idle) (o : Offset) (v : Word) :
    ∃ a, busWrite o v s = { s with tblAddr := a } := by
  rw [busWrite]
  cases regAt o with
  | none => exact ⟨s.tblAddr, rfl⟩
  | some r =>
    cases r with
    | srcLen | dstCap => exact ⟨s.tblAddr, if_neg hp⟩
    | tblAddr => exact ⟨tblAddrOf v, rfl⟩
    | cmd | status | dstLen | vbits | tree | tblData | errInfo => exact ⟨s.tblAddr, rfl⟩

/-- In phase `FAULT` a host move other than the write of `CLR` reaches `TBL_ADDR`, `SRC` and the bus at most (R249). -/
theorem hostMove_fault_frame {op : HostOp} {s t : State} (hf : s.phase = .fault)
    (hop : op ≠ .write 0x00 (encode .clr)) (h : hostMove op s = .next t) :
    ∃ a m b n, t = { s with tblAddr := a, src := m, busData := b, draws := n } := by
  rcases hostMove_cases h with ⟨o, w, rfl, _, ho, hs⟩ | ⟨o, v, _, _, _, rfl⟩ | ⟨o, _, _, rfl⟩ | ⟨i, bytes, _, _, rfl⟩ |
    ⟨i, _, _, hr, _⟩
  · obtain rfl : Reg.offset .cmd = o := regAt_eq_some.mp ho
    have hw : w ≠ encode .clr := fun hw => hop (by rw [hw]; rfl)
    obtain rfl := Host.Outcome.next.inj ((submit_fault hf hw).symm.trans hs)
    exact ⟨_, _, _, _, rfl⟩
  · obtain ⟨a, ha⟩ := busWrite_of_not_idle (s := s) (by simp [hf]) o v
    exact ⟨a, _, _, _, ha⟩
  · exact ⟨_, _, _, _, rfl⟩
  · exact ⟨_, _, _, _, rfl⟩
  · rw [hf] at hr
    cases hr

/-- Settles O47: the fields named are none of those that a move reaches in phase `FAULT`. -/
theorem firstFaultSticks : Obligations.FirstFaultSticks := by
  intro s t hf h hclr
  rcases step_cases h with ⟨_, rfl⟩ | ⟨op, rest, hpend, hm⟩
  · simp [hf]
  · have hop : op ≠ .write 0x00 (encode .clr) := fun hop => hclr rest (by rw [hpend, hop]; rfl)
    obtain ⟨a, m, b, n, rfl⟩ := hostMove_fault_frame (s := { s with pending := rest }) hf hop hm
    exact ⟨hf, rfl, rfl, rfl, rfl, rfl, rfl, rfl, rfl, rfl, rfl, rfl, rfl, fun _ => rfl⟩

/-- Settles O6: the register map (R226, R227) read in phase `FAULT`. -/
theorem faultPhaseIgnoresCommands : Obligations.FaultPhaseIgnoresCommands := by
  intro s hf
  have hidle : s.phase ≠ .idle := by simp [hf]
  refine ⟨fun w hw => submit_fault hf hw, fun v => ?_, fun _ => rfl, fun o ha => ⟨_, hostMove_read ha s, rfl⟩⟩
  obtain ⟨_, hsrcLen, hdstCap, _, _⟩ := registerWritesFollowTheMap s v
  rw [if_neg hidle] at hsrcLen hdstCap
  exact ⟨hsrcLen, hdstCap⟩

end Sys2Proof.Machine
end

section
/-! PROOFS. The bit-unpacker (44_bit_unpacker.md): it inverts the codes (R192), the size of its output (R195), and the index
that it refuses (R62, R251). -/

namespace Sys2Proof.Machine

theorem read?_withOutput_dst_outside (s : State) {out : List Byte} {a : Nat} (ha : out.length ≤ a) :
    Memory.read? (withOutput out s).dst a = Memory.read? s.dst a :=
  Memory.read?_writeRun_outside (.inr (by rwa [Nat.zero_add]))

/-- Settles O42: the payload is the codes end to end, and the walk reads the bytes off them. -/
theorem unpackInvertsTheCodes : Obligations.UnpackInvertsTheCodes := by
  intro s code bytes hw hp hT hd hbytes hcap hlen hpayload
  obtain ⟨T, hC⟩ := hT.codeOf hd
  have hout : unpackAll s = .ok bytes :=
    hT.unpackAll_of_codeBits hC hbytes hcap (streamBits_eq_of_payload hw hlen hpayload)
  exact ⟨withOutput bytes s, exec_unpack_ok hp hout, rfl, withOutput_dstLen_toNat hout,
    fun k hk => read?_withOutput_dst s hk, fun a ha => read?_withOutput_dst_outside s ha⟩

/-! The size of the output. -/

/-- Every byte takes at least one bit, and what was emitted had room (R195, R62). -/
theorem length_of_unpackAll {s : State} {out : List Byte} (h : unpackAll s = .ok out) :
    out.length ≤ s.vbits.toNat ∧ out.length ≤ s.dstCap.toNat := by
  obtain ⟨hbits, hroom⟩ := walk_length h
  rw [streamBits_length] at hbits
  refine ⟨hbits, ?_⟩
  rcases hroom with rfl | hroom
  · exact Nat.zero_le _
  · rwa [Nat.zero_add] at hroom

/-- No code is longer than `L - 1` bits, so neither is the stream than so many bits for each byte. -/
theorem State.TreeBuilt.vbits_le_of_unpackAll {s : State} (hT : s.TreeBuilt) {out : List Byte}
    (h : unpackAll s = .ok out) : s.vbits.toNat ≤ out.length * (countNonzero s.hist - 1) := by
  obtain ⟨code, T, _, hC⟩ := codeOfHist_spec hT.1
  rw [← streamBits_length, hT.codeBits_of_unpackAll hC h]
  exact codeBits_length_le (hC.code_length_le hT.1) out

/-- A refused index is not below `DST_CAP` and is below the number of bits, so `VBITS` bytes of room are enough. -/
theorem State.TreeBuilt.unpackAll_ne_dstOverflow {s : State} (hT : s.TreeBuilt) (hcap : s.vbits.toNat ≤ s.dstCap.toNat)
    {r : Raised} (h : unpackAll s = .error r) : r.kind ≠ .dstOverflow := by
  obtain ⟨hc, hnodes, hroot, _⟩ := hT
  obtain ⟨tl, tr, hd, -⟩ := buildNodes_denotes hc
  rw [unpackAll, hnodes, hroot] at h
  rcases walk_error hd ⟨tl, tr, rfl⟩ hd ⟨tl, tr, rfl⟩ h with rfl | ⟨-, a, hge, hlt, -⟩
  · exact FaultKind.noConfusion
  · rw [streamBits_length] at hlt
    omega

/-- Settles O45: an `UNPACK` that completes stores its output at the head of `DST`, and one that faults had no want of
room. -/
theorem unpackOutputIsBounded : Obligations.UnpackOutputIsBounded := by
  intro s t hp hT hnone ht
  cases exec_effect ht with
  | ignored _ hf => rw [hp] at hf; cases hf
  | outOfSequence _ hl => rw [hp] at hl; cases hl
  | unpackFault _ hr =>
    exact ⟨(nomatch ·), fun hcap hk => hT.unpackAll_ne_dstOverflow hcap hr (Option.some.inj hk)⟩
  | @unpacked out _ hout =>
    rw [withOutput_dstLen_toNat hout, withOutput_err, hnone]
    exact ⟨fun _ => ⟨(length_of_unpackAll hout).1, hT.vbits_le_of_unpackAll hout,
      fun k hk => ⟨out[k], read?_withOutput_dst s hk⟩, fun a ha => read?_withOutput_dst_outside s ha⟩,
      fun _ => (nomatch ·)⟩

/-! The index that is refused. -/

/-- A payload that shows some bits first begins with these bits (R191). -/
theorem prefix_streamBits_of_payload {s : State} (hw : Memory.wf s.src) {bits : BitString}
    (hlen : bits.length ≤ s.vbits.toNat)
    (h : ∀ i < bits.length, (srcByte s (1028 + i / 8)).getLsbD (7 - i % 8) = bits.getD i false) :
    bits <+: streamBits s := by
  rw [List.prefix_iff_eq_take]
  refine bits_ext (by rw [List.length_take, streamBits_length, Nat.min_eq_left hlen]) (fun i hi => ?_)
  rw [← h i hi, ← streamBits_getD hw (Nat.lt_of_lt_of_le hi hlen), List.getD_eq_getElem?_getD,
    List.getD_eq_getElem?_getD, List.getElem?_take_of_lt hi]

/-- From the root, with no room left, the bits of a code are refused at its leaf (R62). -/
theorem CodeOf.walk_refused {h : Hist} {code : CodeTable} {T : HTree} (hC : CodeOf h code T) {v : Byte}
    (hv : code[v.toNat] ≠ []) (rest : BitString) (k cap : Nat) :
    walk (buildNodes h) (BitVec.ofNat 9 ((buildNodes h).length - 1)) cap (code[v.toNat] ++ rest) k
      (BitVec.ofNat 9 ((buildNodes h).length - 1)) cap = .error { kind := .dstOverflow, info := BitVec.ofNat 64 cap } := by
  rw [hC.denotes.walk_path (hC.mem_paths hv) hv, checkStore, if_neg (Nat.lt_irrefl cap)]

/-- When the codes at the head of the stream are more than `DST_CAP`, the bytes that fit are emitted and the next is
refused, whatever follows it (R251). -/
theorem State.TreeBuilt.unpackAll_of_overflow {s : State} (hT : s.TreeBuilt) {code : CodeTable}
    (hd : deriveTable s.nodes s.root = some code) {bytes : List Byte} (hbytes : ∀ u ∈ bytes, code[u.toNat] ≠ [])
    (hcap : s.dstCap.toNat < bytes.length) (hbits : codeBits code bytes <+: streamBits s) :
    unpackAll s = .error { kind := .dstOverflow, info := s.dstCap } := by
  obtain ⟨T, hC⟩ := hT.codeOf hd
  obtain ⟨_, hnodes, hroot, _⟩ := hT
  obtain ⟨rest, hrest⟩ := hbits
  obtain ⟨pre, v, post, rfl, hfit⟩ : ∃ pre v post, bytes = pre ++ v :: post ∧ pre.length = s.dstCap.toNat :=
    ⟨bytes.take s.dstCap.toNat, bytes[s.dstCap.toNat], bytes.drop (s.dstCap.toNat + 1),
      by rw [← List.drop_eq_getElem_cons hcap, List.take_append_drop], List.length_take_of_le hcap.le⟩
  have hpre : ∀ u ∈ pre, s.hist[u.toNat] ≠ 0 :=
    fun u hu => hC.code_ne_nil.mp (hbytes u (List.mem_append_left _ hu))
  rw [unpackAll, hnodes, hroot, ← hrest, codeBits_append, codeBits_cons, List.append_assoc, List.append_assoc,
    hC.walk_codeBits_append hpre (by rw [hfit, Nat.zero_add]), hfit, Nat.zero_add, Nat.zero_add,
    hC.walk_refused (hbytes v (by simp)), BitVec.ofNat_toNat, BitVec.setWidth_eq]

/-- Settles O58: the fault of the decoding, with nothing at or above `DST_CAP` among the bytes that it may take. -/
theorem unpackRaisesDstOverflow : Obligations.UnpackRaisesDstOverflow := by
  intro s code bytes hw hp hT hd hbytes hcap hlen hpayload
  have hover := hT.unpackAll_of_overflow hd hbytes hcap (prefix_streamBits_of_payload hw hlen hpayload)
  have hstored : storedExtent s = Extent.none := by simp only [storedExtent, hp]
  refine ⟨_, exec_unpack_error hp hover, enterFault_recorded { kind := .dstOverflow, info := s.dstCap } _ s,
    fun a ha => dstByte_enterFault ?_ ?_⟩
  · rw [hstored]
    exact fun h => absurd h.2 (Nat.not_lt_zero a)
  · exact fun h => Nat.not_lt.mpr ha (Nat.lt_of_lt_of_le h.2 (Nat.min_le_left ..))

end Sys2Proof.Machine
end

section
/-! PROOFS. The invariant (10_state.md): it holds after reset (R275), every step keeps it, and from it no move of the host
gets stuck (R160, R233). -/

namespace Sys2Proof.Machine

/-- Settles O48: every table is empty and every register 0. -/
theorem resetMeetsTheInvariant : Obligations.ResetMeetsTheInvariant where
  srcWf := Memory.wf_nil
  dstWf := Memory.wf_nil
  errIffFault := by simp [State.reset]
  errInfoZero := fun _ => rfl
  dstLenZero := fun _ _ => rfl
  stage := ⟨rfl, ⟨rfl, rfl, rfl⟩, rfl, rfl, rfl⟩

/-! The numbers that the stages speak of. -/

theorem histTotal_of_nonzeroBytes_nil {h : Hist} (hz : nonzeroBytes h = []) : histTotal h = 0 := by
  simp [histTotal_eq, nonzeroBytes_eq_nil_iff.mp hz]

/-- Two phantoms are made for the empty input alone (R27, R124). -/
theorem normalize_snd_cases (h : Hist) : (normalize h).2 ≤ 1 ∨ ((normalize h).2 = 2 ∧ histTotal h = 0) := by
  rcases normalize_cases h with ⟨hz, he⟩ | ⟨d, _, he⟩ | ⟨_, he⟩
  · exact .inr ⟨by rw [he], histTotal_of_nonzeroBytes_nil hz⟩
  · exact .inl (by rw [he])
  · exact .inl (by rw [he]; exact Nat.zero_le 1)

theorem withNormal_normCnt_toNat (s : State) : (withNormal s).normCnt.toNat = (normalize s.hist).2 := by
  have := normalize_snd_le s.hist
  rw [withNormal_normCnt, BitVec.toNat_ofNat, Nat.mod_eq_of_lt (by omega)]

/-- Every phantom adds one to the counts and to `NORM_CNT` (R27, R148). -/
theorem State.EncodeCounts.withNormal {s : State} (h : s.EncodeCounts) (hn : s.normCnt = 0) :
    (Machine.withNormal s).EncodeCounts := by
  obtain ⟨htotal, -⟩ := h
  rw [hn] at htotal
  change histTotal s.hist = s.srcLen.toNat at htotal
  refine ⟨?_, ?_⟩
  · rw [withNormal_normCnt_toNat, withNormal_hist, histTotal_normalize, htotal, withNormal_srcLen]
  · rw [withNormal_normCnt_toNat, withNormal_srcLen, ← htotal]
    exact normalize_snd_cases s.hist

/-! Each command that completes, from the stage of its phase to the next stage. -/

section
variable {s : State} (h : s.Inv)
include h

/-- A command that completes, but ends no operation, leaves `DST_LEN` the 0 that it was (R32). -/
theorem State.Inv.advance_unfinished {t : State} {p : Phase} (hp : s.phase = p)
    (hrun : p ≠ .fault ∧ p ≠ .doneE ∧ p ≠ .doneD) (hq : t.phase ≠ .fault) (hsrc : t.src = s.src)
    (hdst : Memory.wf t.dst) (herr : t.err = s.err) (hinfo : t.errInfo = s.errInfo) (hlen : t.dstLen = s.dstLen)
    (hstage : t.StageInv) : t.Inv := by
  obtain ⟨hf, he, hd⟩ := hp ▸ hrun
  exact h.advance hf hq hsrc hdst herr hinfo (fun _ _ => hlen.trans (h.dstLenZero he hd)) hstage

theorem State.Inv.withCounts (hp : s.phase = .idle) : (Machine.withCounts s).Inv := by
  have hstage := h.stage
  simp only [State.StageInv, hp] at hstage
  obtain ⟨-, htree, hcode, hvbits, hnorm⟩ := hstage
  refine h.advance_unfinished hp (by decide) (by simp) rfl h.dstWf rfl rfl rfl
    ⟨htree, hcode, hvbits, hnorm, ?_⟩
  have hzero : (Machine.withCounts s).normCnt.toNat = 0 := by rw [withCounts_normCnt, hnorm]; rfl
  refine ⟨?_, .inl (by omega)⟩
  rw [histTotal_withCounts h hp, hzero, withCounts_srcLen, Nat.add_zero]

theorem State.Inv.withNormal (hp : s.phase = .counted) : (Machine.withNormal s).Inv := by
  have hstage := h.stage
  simp only [State.StageInv, hp] at hstage
  obtain ⟨htree, hcode, hvbits, hnorm, hcounts⟩ := hstage
  exact h.advance_unfinished hp (by decide) (by simp) rfl h.dstWf rfl rfl rfl
    ⟨countNonzero_normalize s.hist, htree, hcode, hvbits, hcounts.withNormal hnorm⟩

theorem State.Inv.withTree_builtE (hp : s.phase = .normed) : (withTree s .builtE).Inv := by
  have hstage := h.stage
  simp only [State.StageInv, hp] at hstage
  obtain ⟨hc, -, hcode, hvbits, hcounts⟩ := hstage
  exact h.advance_unfinished hp (by decide) (by simp) rfl h.dstWf rfl rfl rfl
    ⟨⟨hc, rfl, rfl, rfl⟩, hcode, hvbits, hcounts⟩

theorem State.Inv.withCode (hp : s.phase = .builtE) {code : CodeTable} (hd : deriveTable s.nodes s.root = some code) :
    (Machine.withCode code s).Inv := by
  have hstage := h.stage
  simp only [State.StageInv, hp] at hstage
  obtain ⟨htree, -, hvbits, hcounts⟩ := hstage
  exact h.advance_unfinished hp (by decide) (by simp) rfl h.dstWf rfl rfl rfl
    ⟨htree, hd, hvbits, hcounts⟩

/-- The payload that was stored had room, so it ends at `DST_CAP` at most (R62, R178). -/
theorem State.Inv.withPayload (hp : s.phase = .coded) {payload : List Byte} {nb : Nat}
    (hpack : packAll s.code s.dstCap.toNat (srcBytes s) = .ok (payload, nb)) : (Machine.withPayload payload nb s).Inv := by
  have hstage := h.stage
  simp only [State.StageInv, hp] at hstage
  obtain ⟨htree, hcode, -, hcounts⟩ := hstage
  obtain ⟨-, -, hmax, -, hroom, -⟩ := packAll_ok hpack
  have hvbits := withPayload_vbits_toNat (payload := payload) (s := s) hmax
  refine h.advance_unfinished hp (by decide) (by simp) rfl (Memory.writeRun_wf h.dstWf _ _) rfl rfl rfl
    ⟨htree, hcode, hcounts, ?_⟩
  rw [hvbits]
  refine hroom.imp_left (fun hnone => ?_)
  rw [ceil8] at hnone
  rw [withPayload_vbits, show nb = 0 by omega]
  rfl

/-- The header has room, and so has the payload after it, if there is one (R62, R211). -/
theorem State.Inv.withHeader (hp : s.phase = .packed) (hcap : Config.hdrBytes ≤ s.dstCap.toNat) :
    (Machine.withHeader s).Inv := by
  have hstage := h.stage
  simp only [State.StageInv, hp] at hstage
  obtain ⟨htree, hcode, hcounts, hroom⟩ := hstage
  refine h.advance (by simp [hp]) (by simp) rfl (Memory.writeRun_wf h.dstWf _ _) rfl rfl
    (fun he _ => absurd rfl he) ⟨htree, hcode, hcounts, withHeader_dstLen_toNat s, ?_⟩
  rw [withHeader_dstLen_toNat]
  rcases hroom with hnone | hroom
  · rw [hnone]
    exact hcap
  · exact hroom

theorem State.Inv.withParsed (hp : s.phase = .idle) (hheader : Config.hdrBytes ≤ s.srcLen.toNat)
    (hpayload : ceil8 (vbitsOfFields (headerFields s)).toNat ≤ s.srcLen.toNat - Config.payloadOff) :
    (Machine.withParsed s).Inv := by
  have hstage := h.stage
  simp only [State.StageInv, hp] at hstage
  obtain ⟨-, htree, hcode, -, hnorm⟩ := hstage
  exact h.advance_unfinished hp (by decide) (by simp) rfl h.dstWf rfl rfl rfl
    ⟨⟨histOfFields_le (headerFields s), Nat.add_le_of_le_sub' hheader hpayload, hnorm⟩, htree, hcode⟩

theorem State.Inv.withTree_builtD (hp : s.phase = .parsed) (hc : 2 ≤ countNonzero s.hist) :
    (withTree s .builtD).Inv := by
  have hstage := h.stage
  simp only [State.StageInv, hp] at hstage
  obtain ⟨hheader, -, hcode⟩ := hstage
  exact h.advance_unfinished hp (by decide) (by simp) rfl h.dstWf rfl rfl rfl
    ⟨hheader, ⟨hc, rfl, rfl, rfl⟩, hcode⟩

theorem State.Inv.withOutput (hp : s.phase = .builtD) {out : List Byte} (hout : unpackAll s = .ok out) :
    (Machine.withOutput out s).Inv := by
  have hstage := h.stage
  simp only [State.StageInv, hp] at hstage
  obtain ⟨hheader, htree, hcode⟩ := hstage
  refine h.advance (by simp [hp]) (by simp) rfl (Memory.writeRun_wf h.dstWf _ _) rfl rfl
    (fun _ hd => absurd rfl hd) ⟨hheader, htree, hcode, ?_⟩
  rw [withOutput_dstLen_toNat hout]
  exact length_of_unpackAll hout

/-- A command keeps the invariant: it clears, is ignored, faults, or completes. -/
theorem State.Inv.effect {i : Instr} {t : State} (he : Effect s i t) : t.Inv := by
  cases he with
  | cleared => exact h.clear
  | ignored => exact h
  | outOfSequence | degenerate | packFault | countRange | headerOverflow | shortHeader | shortPayload | unpackFault =>
    exact h.enterFault _ _
  | counted hp => exact h.withCounts hp
  | normed hp => exact h.withNormal hp
  | builtE hp => exact h.withTree_builtE hp
  | builtD hp hc => exact h.withTree_builtD hp hc
  | derived hp hd => exact h.withCode hp hd
  | packed hp hpack => exact h.withPayload hp hpack
  | headerWritten hp _ hcap => exact h.withHeader hp hcap
  | parsed hp hheader hpayload => exact h.withParsed hp hheader hpayload
  | unpacked hp hout => exact h.withOutput hp hout

theorem State.Inv.submit {w : Word} {t : State} (ht : Machine.submit w s = .next t) : t.Inv := by
  rcases submit_cases ht with ⟨i, _, he⟩ | ⟨_, _, ⟨_, rfl⟩ | ⟨_, rfl⟩⟩
  · exact h.effect he
  · exact h
  · exact h.enterFault _ _

/-! The host's other moves. -/

/-- `TBL_ADDR`, the bus and the draws are no part of the invariant, and of `SRC` only the canonical form is. -/
theorem State.Inv.withHostSide {m : Memory} (hm : Memory.wf m) (a : TblAddr) (b : Word) (n : Nat) :
    { s with tblAddr := a, src := m, busData := b, draws := n }.Inv :=
  ⟨hm, h.dstWf, h.errIffFault, h.errInfoZero, h.dstLenZero, h.stage⟩

/-- In phase `IDLE` nothing has been counted or stored that `SRC_LEN` or `DST_CAP` would bound. -/
theorem State.Inv.withSizes (hp : s.phase = .idle) (n c : Word) : { s with srcLen := n, dstCap := c }.Inv := by
  refine ⟨h.srcWf, h.dstWf, h.errIffFault, h.errInfoZero, h.dstLenZero, ?_⟩
  have hstage := h.stage
  simp only [State.StageInv, hp] at hstage ⊢
  exact hstage

theorem State.Inv.busWrite (o : Offset) (v : Word) : (Machine.busWrite o v s).Inv := by
  by_cases hp : s.phase = .idle
  case neg =>
    obtain ⟨a, ha⟩ := busWrite_of_not_idle hp o v
    rw [ha]
    exact h.withHostSide h.srcWf a _ _
  rw [Machine.busWrite]
  cases regAt o with
  | none => exact h
  | some r =>
    cases r with
    | srcLen => simp only [regWrite, if_pos hp]; exact h.withSizes hp v s.dstCap
    | dstCap => simp only [regWrite, if_pos hp]; exact h.withSizes hp s.srcLen v
    | tblAddr => exact h.withHostSide h.srcWf (tblAddrOf v) _ _
    | cmd | status | dstLen | vbits | tree | tblData | errInfo => exact h

theorem State.Inv.hostMove {op : HostOp} {t : State} (ht : Machine.hostMove op s = .next t) : t.Inv := by
  rcases hostMove_cases ht with ⟨o, w, _, _, _, hs⟩ | ⟨o, v, _, _, _, rfl⟩ | ⟨o, _, _, rfl⟩ | ⟨i, bytes, _, _, rfl⟩ |
    ⟨i, _, _, _, rfl⟩
  · exact h.submit hs
  · exact h.busWrite o v
  · exact h.withHostSide h.srcWf _ _ _
  · exact h.withHostSide (Memory.writeRun_wf h.srcWf i bytes) _ _ _
  · exact h.withHostSide h.srcWf _ _ _

end

/-- Settles O49: a step does nothing or makes one move of the host, and no move breaks the invariant. -/
theorem stepKeepsTheInvariant : Obligations.StepKeepsTheInvariant := by
  intro s t h ht
  rcases step_cases ht with ⟨_, rfl⟩ | ⟨op, rest, _, hm⟩
  · exact h
  · exact (h.withPending rest).hostMove hm

/-! No move gets stuck. -/

/-- The tree that `DERIVE` meets is the one that `BUILD` made, so it has a code table (R160). -/
theorem State.Inv.exec_next {s : State} (h : s.Inv) (i : Instr) : ∃ t, exec i s = .next t := by
  by_contra hstuck
  obtain ⟨rfl, hp, -, -⟩ := exec_stops (not_exists.mp hstuck)
  have hstage := h.stage
  simp only [State.StageInv, hp] at hstage
  obtain ⟨hT, -⟩ := hstage
  obtain ⟨code, _, hderive, _⟩ := hT.derive_completes hp
  exact hstuck ⟨_, hderive⟩

theorem State.Inv.submit_next {s : State} (h : s.Inv) (w : Word) : ∃ t, Machine.submit w s = .next t := by
  rw [Machine.submit]
  cases decode w with
  | ok i => exact h.exec_next i
  | error k =>
    simp only [submitIllegal]
    split
    · exact ⟨_, rfl⟩
    · exact ⟨_, rfl⟩

/-- Settles O50: a well-formed move passes the checks of `hostMove`, and a write of `CMD` has a next state. -/
theorem noMoveGetsStuck : Obligations.NoMoveGetsStuck := by
  intro s op h hwf hlook
  cases op with
  | write o v =>
    have ha : Offset.aligned o = true := hwf
    by_cases ho : regAt o = some .cmd
    · obtain ⟨t, ht⟩ := h.submit_next v
      exact ⟨t, by rw [hostMove, if_pos ha, if_pos ho, ht]⟩
    · exact ⟨busWrite o v s, by rw [hostMove, if_pos ha, if_neg ho]⟩
  | read o => exact ⟨busRead o s, if_pos hwf⟩
  | fillSrc i bytes => exact ⟨hostFill i bytes s, if_pos hwf⟩
  | readDst i =>
    have hr : dstReadable s.phase = true := by rcases hlook i rfl with hp | hp <;> rw [hp] <;> rfl
    exact ⟨hostReadDst i s, by rw [hostMove, if_pos hwf, if_pos hr]⟩

end Sys2Proof.Machine
end

section
/-! PROOFS. The frequencies (41_tree_builder.md R148): none exceeds the total of the counts, and what that total is at
most. -/

namespace Sys2Proof.Machine

/-! From a node to its parent, and so to the root. -/

theorem exists_parent_of_mem_childIndices {nodes : List Node} {c : Nat} (hc : c ∈ childIndices nodes) :
    ∃ (j : Nat) (f : Freq) (l r : NodeIdx), nodes[j]? = some (.internal f l r) ∧ (c = l.toNat ∨ c = r.toNat) := by
  induction nodes with
  | nil => cases hc
  | cons x nodes ih =>
    cases x with
    | leaf v f =>
      obtain ⟨j, hj⟩ := ih hc
      exact ⟨j + 1, hj⟩
    | internal f l r =>
      simp only [childIndices, List.mem_cons] at hc
      rcases hc with rfl | rfl | hc
      · exact ⟨0, f, l, r, rfl, .inl rfl⟩
      · exact ⟨0, f, l, r, rfl, .inr rfl⟩
      · obtain ⟨j, hj⟩ := ih hc
        exact ⟨j + 1, hj⟩

section
variable {h : Hist} (hc : 2 ≤ countNonzero h)
include hc

/-- The entries below `L` are the leaves. -/
theorem countNonzero_le_of_internal {j : Nat} {f : Freq} {l r : NodeIdx}
    (hj : (buildNodes h)[j]? = some (.internal f l r)) : countNonzero h ≤ j := by
  by_contra hlt
  have hleaf : (leavesOf h)[j]? = some (.internal f l r) := by
    rw [← buildNodes_take_leaves hc, List.getElem?_take_of_lt (Nat.lt_of_not_le hlt), hj]
  obtain ⟨e, _, he⟩ := List.mem_map.mp (List.mem_of_getElem? hleaf)
  cases he

/-- Every entry but the root has a younger parent, whose frequency is no less. -/
theorem buildNodes_parent {i : Nat} {n : Node} (hn : (buildNodes h)[i]? = some n) (hi : i < 2 * countNonzero h - 2) :
    ∃ j m, i < j ∧ (buildNodes h)[j]? = some m ∧ (Node.freq n).toNat ≤ (Node.freq m).toNat := by
  have hmem : i ∈ childIndices (buildNodes h) :=
    (buildNodes_childIndices_perm hc).mem_iff.mpr (List.mem_range.mpr hi)
  obtain ⟨j, f, l, r, hj, hchild⟩ := exists_parent_of_mem_childIndices hmem
  have hlt : j < (buildNodes h).length := (List.getElem?_eq_some_iff.mp hj).1
  rw [buildNodes_length hc] at hlt
  obtain ⟨f', l', r', nl, nr, hj', hl, hr, hnl, hnr, hsum⟩ :=
    buildNodes_internal hc (countNonzero_le_of_internal hc hj) (Nat.le_sub_of_add_le (by omega))
  obtain ⟨rfl, rfl, rfl⟩ : f = f' ∧ l = l' ∧ r = r' := by
    simpa using hj.symm.trans hj'
  refine ⟨j, _, ?_, hj, ?_⟩
  · rcases hchild with rfl | rfl
    · exact hl
    · exact hr
  · show _ ≤ f.toNat
    rcases hchild with rfl | rfl
    · obtain rfl : n = nl := Option.some.inj (hn.symm.trans hnl)
      omega
    · obtain rfl : n = nr := Option.some.inj (hn.symm.trans hnr)
      omega

/-- No frequency exceeds that of the root, which is the total (R23, R148). -/
theorem buildNodes_freq_le {i : Nat} {n : Node} (hn : (buildNodes h)[i]? = some n) :
    (Node.freq n).toNat ≤ histTotal h := by
  by_cases hi : i < 2 * countNonzero h - 2
  · obtain ⟨j, m, hij, hm, hle⟩ := buildNodes_parent hc hn hi
    exact hle.trans (buildNodes_freq_le hm)
  · have hlt : i < (buildNodes h).length := (List.getElem?_eq_some_iff.mp hn).1
    rw [buildNodes_length hc] at hlt
    obtain ⟨f, l, r, hroot, hf⟩ := buildNodes_last_freq hc
    obtain rfl : i = 2 * countNonzero h - 2 := by omega
    obtain rfl : n = .internal f l r := Option.some.inj (hn.symm.trans hroot)
    exact hf.le
termination_by 2 * countNonzero h - 2 - i

end

/-! The total of the counts. -/

/-- In an encode from `BUILD` on, the invariant holds the counts against `SRC_LEN`. -/
theorem State.Inv.encodeCounts {s : State} (h : s.Inv) (hp : s.phase ∈ [Phase.builtE, .coded, .packed, .doneE]) :
    s.EncodeCounts := by
  have hstage := h.stage
  simp only [List.mem_cons, List.not_mem_nil, or_false] at hp
  rcases hp with hp | hp | hp | hp <;> simp only [State.StageInv, hp] at hstage
  case inl | inr.inl =>
    obtain ⟨-, -, -, hcounts⟩ := hstage
    exact hcounts
  case inr.inr.inl | inr.inr.inr =>
    obtain ⟨-, -, hcounts, -⟩ := hstage
    exact hcounts

theorem State.Inv.decodeHeader {s : State} (h : s.Inv) (hp : s.phase ∈ [Phase.builtD, .doneD]) : s.DecodeHeader := by
  have hstage := h.stage
  simp only [List.mem_cons, List.not_mem_nil, or_false] at hp
  rcases hp with hp | hp <;> simp only [State.StageInv, hp] at hstage
  all_goals
    obtain ⟨hheader, -⟩ := hstage
    exact hheader

/-- `SRC_LEN` is at most `2^64 - 1`, and a second phantom is made for the empty input alone (R27). -/
theorem State.EncodeCounts.histTotal_le {s : State} (h : s.EncodeCounts) : histTotal s.hist ≤ 2 ^ 64 := by
  obtain ⟨htotal, hnorm⟩ := h
  have := s.srcLen.isLt
  omega

theorem State.EncodeCounts.srcLen_eq_zero {s : State} (h : s.EncodeCounts) (hn : s.normCnt = 2) : s.srcLen = 0 := by
  obtain ⟨-, hnorm⟩ := h
  rw [hn] at hnorm
  rcases hnorm with hle | ⟨-, hzero⟩
  · exact absurd hle (by decide)
  · exact BitVec.eq_of_toNat_eq hzero

/-- 256 counts, each below `2^32` (R209). -/
theorem State.DecodeHeader.histTotal_lt {s : State} (h : s.DecodeHeader) : histTotal s.hist < 2 ^ 40 := by
  obtain ⟨hcounts, -⟩ := h
  have hsum : (allBytes.map (fun v => s.hist[v.toNat].toNat)).sum ≤ allBytes.length * Config.fieldMax := by
    rw [← List.length_map (fun v : Byte => s.hist[v.toNat].toNat)]
    refine List.sum_le_card_nsmul _ _ (fun n hn => ?_)
    obtain ⟨v, _, rfl⟩ := List.mem_map.mp hn
    exact hcounts v
  rw [histTotal_eq]
  rw [allBytes_length, Config.fieldMax] at hsum
  omega

/-- Settles O28: the frequencies through the tree, the total through what the invariant says of the counts. -/
theorem frequenciesDoNotOverflow : Obligations.FrequenciesDoNotOverflow := by
  intro s h hT
  refine ⟨fun n hn => ?_, fun hp => ?_, fun hp => ?_⟩
  · obtain ⟨hc, hnodes, _⟩ := hT
    rw [hnodes] at hn
    obtain ⟨i, hi⟩ := List.mem_iff_getElem?.mp hn
    exact buildNodes_freq_le hc hi
  · have hencode := h.encodeCounts hp
    exact ⟨hencode.1, hencode.histTotal_le, hencode.srcLen_eq_zero⟩
  · have hheader := h.decodeHeader hp
    exact ⟨fun v => Nat.lt_of_le_pred (by decide) (hheader.1 v), hheader.histTotal_lt⟩

end Sys2Proof.Machine
end

section
/-! PROOFS. Where the commands store (20_memory.md): in their rows (R69), below `DST_CAP` (R62), and over a whole operation
below `DST_LEN` (R68). -/

namespace Sys2Proof.Machine

/-! A store leaves the bytes outside its run as they were. -/

section
variable (s : State) {a : Nat}

theorem withPayload_keeps_dst {payload : List Byte} (nb : Nat) (ha : a < 1028 ∨ 1028 + payload.length ≤ a) :
    Memory.read? (withPayload payload nb s).dst a = Memory.read? s.dst a ∧
      dstByte (withPayload payload nb s) a = dstByte s a :=
  have hread := read?_withPayload_dst_outside nb s ha
  ⟨hread, dstByte_congr hread rfl⟩

theorem withHeader_keeps_dst (ha : 1028 ≤ a) :
    Memory.read? (withHeader s).dst a = Memory.read? s.dst a ∧ dstByte (withHeader s) a = dstByte s a :=
  have hread := read?_withHeader_dst_payload s ha
  ⟨hread, dstByte_congr hread rfl⟩

theorem withOutput_keeps_dst {out : List Byte} (ha : out.length ≤ a) :
    Memory.read? (withOutput out s).dst a = Memory.read? s.dst a ∧ dstByte (withOutput out s) a = dstByte s a :=
  have hread := read?_withOutput_dst_outside s ha
  ⟨hread, dstByte_congr hread rfl⟩

theorem withParsed_keeps_dst (a : Nat) :
    Memory.read? (withParsed s).dst a = Memory.read? s.dst a ∧ dstByte (withParsed s) a = dstByte s a :=
  have hread : Memory.read? (withParsed s).dst a = Memory.read? s.dst a := by rw [withParsed_dst]
  ⟨hread, dstByte_congr hread (withParsed_dstLost s)⟩

end

/-- A payload that was stored has `ceil8(VBITS)` bytes (R181). -/
theorem payload_length_of_packAll {s : State} {code : CodeTable} {cap : Nat} {bytes payload : List Byte} {nb : Nat}
    (h : packAll code cap bytes = .ok (payload, nb)) :
    payload.length = ceil8 (withPayload payload nb s).vbits.toNat := by
  obtain ⟨-, -, hmax, hlen, -⟩ := packAll_ok h
  rw [withPayload_vbits_toNat hmax, hlen]

/-- Settles O53: the three commands that store, each with the length of what it stores. -/
theorem storesStayInTheirRow : Obligations.StoresStayInTheirRow := by
  intro i s t h ht a ha
  cases exec_effect h with
  | ignored | cleared | counted | normed | builtE | builtD | derived => exact ⟨rfl, rfl⟩
  | parsed => exact withParsed_keeps_dst s a
  | outOfSequence | degenerate | packFault | countRange | headerOverflow | shortHeader | shortPayload | unpackFault =>
    exact absurd rfl ht
  | packed _ hpack =>
    simp only [rowOf, ← payload_length_of_packAll hpack, Config.payloadOff] at ha
    exact withPayload_keeps_dst s _ (by omega)
  | headerWritten =>
    simp only [rowOf, Config.hdrBytes] at ha
    exact withHeader_keeps_dst s (by omega)
  | unpacked _ hout =>
    simp only [rowOf, withOutput_dstLen_toNat hout] at ha
    exact withOutput_keeps_dst s (by omega)

/-! At and above `DST_CAP`. -/

section
variable {s : State} (h : s.Inv) {a : Nat} (ha : s.dstCap.toNat ≤ a)
include h ha

/-- What the operation has stored before a fault is below `DST_CAP` (R62, R69). -/
theorem State.Inv.not_mem_storedExtent : ¬((storedExtent s).lo ≤ a ∧ a < (storedExtent s).hi) := by
  have hstage := h.stage
  cases hp : s.phase <;> simp only [State.StageInv, hp] at hstage <;> simp only [storedExtent, hp]
  case packed =>
    obtain ⟨-, -, -, hroom⟩ := hstage
    rcases hroom with hnone | hroom
    · rw [hnone]
      exact fun hmem => absurd hmem.2 (Nat.not_lt.mpr hmem.1)
    · omega
  case doneE =>
    obtain ⟨-, -, -, -, hroom⟩ := hstage
    omega
  case doneD =>
    obtain ⟨-, -, -, -, hroom⟩ := hstage
    omega
  all_goals exact fun hmem => absurd hmem.2 (Nat.not_lt_zero a)

theorem State.Inv.dst_above_cap_of_fault (r : Raised) {own : Extent} (hown : own.hi ≤ s.dstCap.toNat) :
    Memory.read? (Machine.enterFault r own s).dst a = Memory.read? s.dst a ∧
      dstByte (Machine.enterFault r own s) a = dstByte s a := by
  have hstored := h.not_mem_storedExtent ha
  have hown' : ¬(own.lo ≤ a ∧ a < own.hi) := by omega
  refine ⟨?_, dstByte_enterFault hstored hown'⟩
  rw [enterFault_dst, Memory.read?_forget, if_neg hown', Memory.read?_forget, if_neg hstored]

end

/-- Settles O54: a fault takes and a command stores nothing there. -/
theorem noStoreAtOrAboveDstCap : Obligations.NoStoreAtOrAboveDstCap := by
  intro i s t h ht a ha
  cases exec_effect ht with
  | ignored | cleared | counted | normed | builtE | builtD | derived => exact ⟨rfl, rfl⟩
  | parsed => exact withParsed_keeps_dst s a
  | outOfSequence | degenerate | countRange | shortHeader | shortPayload =>
    exact h.dst_above_cap_of_fault ha _ (Nat.zero_le _)
  | packFault | headerOverflow | unpackFault => exact h.dst_above_cap_of_fault ha _ (Nat.min_le_left ..)
  | packed _ hpack =>
    obtain ⟨-, -, -, hlen, hroom, -⟩ := packAll_ok hpack
    rw [← hlen, Config.payloadOff] at hroom
    exact withPayload_keeps_dst s _ (by omega)
  | headerWritten _ _ hcap => exact withHeader_keeps_dst s (hcap.trans ha)
  | unpacked _ hout =>
    obtain ⟨-, hroom⟩ := length_of_unpackAll hout
    exact withOutput_keeps_dst s (hroom.trans ha)

/-! Whole operations. -/

/-- An encode that ends in `DONE_E` has packed the source and written the header after it (R230). -/
theorem eq_withHeader_of_execEncode {s t : State} (h : execEncode s = .next t) (ht : t.phase = .doneE) :
    ∃ code payload nb, packAll code s.dstCap.toNat (srcBytes s) = .ok (payload, nb) ∧
      t = withHeader (withPayload payload nb (codedState code s)) := by
  obtain ⟨code, _, hcode, _⟩ := codeOfHist_spec (countNonzero_normalize (countBytes (srcBytes s) emptyHist))
  cases hpack : packAll code s.dstCap.toNat (srcBytes s) with
  | error r =>
    obtain rfl := Host.Outcome.next.inj ((execEncode_of_packFault hcode hpack).symm.trans h)
    cases ht
  | ok result =>
    obtain ⟨payload, nb⟩ := result
    rw [execEncode_of_packed hcode hpack] at h
    refine ⟨code, payload, nb, hpack, ?_⟩
    cases exec_effect h with
    | ignored _ hf => cases hf
    | outOfSequence | countRange | headerOverflow => cases ht
    | headerWritten => rfl

/-- A decode that ends in `DONE_D` has passed every check before `UNPACK`, and that has completed (R231). -/
theorem eq_withOutput_of_execDecode {s t : State} (h : execDecode s = .next t) (ht : t.phase = .doneD) :
    ∃ out, unpackAll (treeState s) = .ok out ∧ t = withOutput out (treeState s) := by
  by_cases hheader : Config.hdrBytes ≤ s.srcLen.toNat
  case neg =>
    obtain rfl := Host.Outcome.next.inj ((execDecode_of_shortHeader (Nat.lt_of_not_le hheader)).symm.trans h)
    cases ht
  by_cases hpayload : ceil8 (vbitsOfFields (headerFields s)).toNat ≤ s.srcLen.toNat - Config.payloadOff
  case neg =>
    obtain rfl := Host.Outcome.next.inj
      ((execDecode_of_shortPayload hheader (Nat.lt_of_not_le hpayload)).symm.trans h)
    cases ht
  by_cases hc : 2 ≤ countNonzero (withParsed (clear s)).hist
  case neg =>
    obtain rfl := Host.Outcome.next.inj
      ((execDecode_of_degenerate hheader hpayload (Nat.lt_of_not_le hc)).symm.trans h)
    cases ht
  rw [execDecode_of_built hheader hpayload hc] at h
  cases exec_effect h with
  | ignored _ hf => cases hf
  | outOfSequence | unpackFault => cases ht
  | unpacked _ hout => exact ⟨_, hout, rfl⟩

/-- Settles O59: the payload ends at `DST_LEN` and the header before it, and the output of a decode ends there too. -/
theorem operationsKeepTheRestOfDst : Obligations.OperationsKeepTheRestOfDst := by
  constructor
  · intro s t h ht a ha
    obtain ⟨code, payload, nb, hpack, rfl⟩ := eq_withHeader_of_execEncode h ht
    rw [withHeader_dstLen_toNat, ← payload_length_of_packAll hpack] at ha
    obtain ⟨-, hheader⟩ := withHeader_keeps_dst (withPayload payload nb (codedState code s)) (a := a) (by omega)
    obtain ⟨-, hpayload⟩ := withPayload_keeps_dst (codedState code s) nb (.inr ha)
    exact hheader.trans hpayload
  · intro s t h ht a ha
    obtain ⟨out, hout, rfl⟩ := eq_withOutput_of_execDecode h ht
    rw [withOutput_dstLen_toNat hout] at ha
    obtain ⟨-, houtput⟩ := withOutput_keeps_dst (treeState s) ha
    obtain ⟨-, hparsed⟩ := withParsed_keeps_dst (clear s) a
    exact houtput.trans hparsed

end Sys2Proof.Machine
end

section
/-! PROOFS. The faults of the bit-packer (R62, R179, R251), and the container header (45_container.md): what `WRHDR` writes
(R205, R211), and that `PARSE` reads it back (R95, R212). -/

namespace Sys2Proof.Machine

/-! `PACK`. -/

/-- Settles O32: `packAll` stops at the byte without a code, and the command enters the fault that it raised. -/
theorem packRaisesLookup : Obligations.PackRaisesLookup := by
  intro s pre post v hp hsrc hcoded hmax hroom hv
  have hstop := (packAll_stop (post := post) hcoded hmax (hroom.imp_left Nat.div_eq_of_lt)).1 hv
  rw [← hsrc] at hstop
  exact ⟨_, exec_pack_error hp hstop,
    enterFault_recorded { kind := .lookup, info := BitVec.ofNat 64 pre.length } _ s⟩

/-- A `PACK` that faults may have written from index 1028 on (R69), so the header bytes stay. -/
theorem read?_packFault_dst_header {s : State} (hp : s.phase = .coded) (r : Raised) {a : Nat} (ha : a < 1028) :
    Memory.read? (enterFault r (packExtent s) s).dst a = Memory.read? s.dst a := by
  have hstored : storedExtent s = Extent.none := by simp only [storedExtent, hp]
  rw [enterFault_dst, hstored, Memory.forget_none, Memory.read?_forget, if_neg fun h => Nat.not_le.mpr ha h.1]

theorem pack_records_overflow {s : State} (hp : s.phase = .coded)
    (h : packAll s.code s.dstCap.toNat (srcBytes s) = .error (overflowAt s.dstCap.toNat Config.payloadOff)) :
    ∃ t, exec .pack s = .next t ∧ FaultRecorded .dstOverflow (BitVec.ofNat 64 (max s.dstCap.toNat 1028)) s t ∧
      ∀ a < 1028, Memory.read? t.dst a = Memory.read? s.dst a :=
  ⟨_, exec_pack_error hp h, enterFault_recorded (overflowAt s.dstCap.toNat Config.payloadOff) _ s,
    fun _ => read?_packFault_dst_header hp _⟩

/-- Settles O34: the first byte that has no room is one that a first part of the source completes, or one of the whole
payload, the padded last byte included. -/
theorem packRaisesDstOverflow : Obligations.PackRaisesDstOverflow := by
  constructor
  · intro s pre post hp hsrc hcoded hmax hfull hroom
    refine pack_records_overflow hp ?_
    rw [hsrc]
    exact packAll_overflow post hcoded hmax hfull hroom
  · intro s hp hcoded hmax hne hroom
    refine pack_records_overflow hp ((packAll_spec hcoded hmax).2 ?_)
    rw [ceil8_length_eq_zero_iff, not_or]
    exact ⟨hne, Nat.not_le.mpr hroom⟩

/-! `WRHDR`. -/

/-- Settles O36: the state after `WRHDR` is `withHeader`, whose header bytes are those of the two fields. -/
theorem wrhdrWritesTheHeader : Obligations.WrhdrWritesTheHeader := by
  intro s hp hcounts hcap
  refine ⟨withHeader s, exec_wrhdr hp (countTooLarge_none.mpr hcounts) hcap, rfl, withHeader_dstLen_toNat s,
    fun v j hj => ?_, fun j hj => ?_, fun a => read?_withHeader_dst_payload s⟩
  · have hv := v.isLt
    rw [read?_withHeader_dst_header s (by omega)]
    exact headerBytes_count s.hist s.vbits v hj
  · rw [read?_withHeader_dst_header s (by omega)]
    exact headerBytes_vbits s.hist s.vbits hj

/-- Settles O38: the counts pass, the room does not. -/
theorem wrhdrRaisesDstOverflow : Obligations.WrhdrRaisesDstOverflow := fun s hp hcounts hcap =>
  ⟨_, exec_wrhdr_dstOverflow hp (countTooLarge_none.mpr hcounts) hcap,
    enterFault_recorded { kind := .dstOverflow, info := s.dstCap } _ s⟩

/-! `PARSE` of what `WRHDR` wrote. -/

/-- A `WRHDR` that ends in `DONE_E` has passed the check of the counts. -/
theorem Effect.wrhdr_eq_withHeader {s t : State} (h : Effect s .wrhdr t) (hs : s.phase ≠ .fault) (ht : t.phase ≠ .fault) :
    (∀ v : Byte, s.hist[v.toNat].toNat ≤ Config.fieldMax) ∧ t = withHeader s := by
  cases h with
  | ignored _ hf => exact absurd hf hs
  | outOfSequence | countRange | headerOverflow => exact absurd rfl ht
  | headerWritten _ hcounts => exact ⟨countTooLarge_none.mp hcounts, rfl⟩

theorem Effect.parse_eq_withParsed {s t : State} (h : Effect s .parse t) (hs : s.phase ≠ .fault) (ht : t.phase ≠ .fault) :
    t = withParsed s := by
  cases h with
  | ignored _ hf => exact absurd hf hs
  | outOfSequence | shortHeader | shortPayload => exact absurd rfl ht
  | parsed => rfl

/-- A source that holds the header bytes of a histogram and a bit count shows their fields. -/
theorem headerFields_eq_of_header {d : State} {h : Hist} {vbits : BitVec 32} (hw : Memory.wf d.src)
    (hread : ∀ a < 1028, (headerBytes h vbits)[a]? = some (srcByte d a)) :
    headerFields d = be32Fields (headerBytes h vbits) := by
  rw [headerFields]
  congr 1
  apply List.ext_getElem?
  intro a
  by_cases ha : a < 1028
  · rw [srcRun_getElem? hw (by exact ha), Nat.zero_add, hread a ha]
  · rw [List.getElem?_eq_none (by rw [srcRun_length]; exact Nat.not_lt.mp ha),
      List.getElem?_eq_none (by rw [headerBytes_length]; exact Nat.not_lt.mp ha)]

/-- Settles O41: the source shows the fields that were written, and counts that fit their fields come back as they were. -/
theorem parsedHistogramIsTheWrittenOne : Obligations.ParsedHistogramIsTheWrittenOne := by
  intro s t d u hps ht hpt hpd hw hread hu hpu
  obtain ⟨hcounts, rfl⟩ := (exec_effect ht).wrhdr_eq_withHeader (by simp [hps]) (by simp [hpt])
  obtain rfl := (exec_effect hu).parse_eq_withParsed (by simp [hpd]) (by simp [hpu])
  have hfields : headerFields d = be32Fields (headerBytes s.hist s.vbits) :=
    headerFields_eq_of_header hw (fun a ha => (read?_withHeader_dst_header s ha).symm.trans (hread a ha))
  rw [withParsed_hist, withParsed_vbits, hfields]
  exact ⟨histOfFields_header hcounts s.vbits, vbitsOfFields_header s.hist s.vbits⟩

/-! Big-endian fields. -/

/-- Byte `j` of a field, counted from the most significant (R95). -/
theorem be32Bytes_getElem (v : BitVec 32) {j : Nat} (hj : j < (be32Bytes v).length) :
    (be32Bytes v)[j] = v.extractLsb' (24 - 8 * j) 8 := by
  rw [be32Bytes_length] at hj
  interval_cases j <;> rfl

theorem be32Fields_be32Bytes (v : BitVec 32) : be32Fields (be32Bytes v) = [v] := by
  rw [← List.append_nil (be32Bytes v), be32Fields_append]
  rfl

/-- Settles O35: value, order, place and inverse of a field, and the two examples. -/
theorem bigEndianFieldsAgree : Obligations.BigEndianFieldsAgree := by
  refine ⟨be32_toNat, fun v => rfl, fun m a v j hj => ?_, be32Fields_be32Bytes, by decide, by decide⟩
  rw [Memory.read?_writeRun_inside (by rwa [be32Bytes_length]), be32Bytes_getElem]

end Sys2Proof.Machine
end

section
/-! PROOFS. The command word and the step (R90, R91, R228), reset and `CLR` (R225, R275, R277), and what the host sees
(R35, R60 to R62, R66). -/

namespace Sys2Proof.Machine

/-! The command word. -/

/-- Settles O3: every command is well formed, so the equivalence is that of the decoder. -/
theorem decodeEncodeAgree : Obligations.DecodeEncodeAgree := fun _ _ _ => decode_eq_ok

/-- Settles O1: each word is the command's encoding. -/
theorem sampleWordsDecode : Obligations.SampleWordsDecode :=
  ⟨decode_eq_ok.mpr rfl, decode_eq_ok.mpr rfl, decode_eq_ok.mpr rfl, decode_eq_ok.mpr rfl⟩

/-- Settles O8: the two tables, row by row. -/
theorem phaseAndFaultNumbers : Obligations.PhaseAndFaultNumbers := ⟨rfl, rfl, rfl⟩

theorem step_of_pending {s : State} {op : HostOp} {rest : List HostOp} (h : s.pending = op :: rest) :
    step s = hostMove op { s with pending := rest } := by
  rw [step, h]

/-- With no move pending the block holds its state (R7, R263). -/
theorem step_of_no_move {s : State} (h : s.pending = []) : step s = .next s := by
  rw [step, h]

/-- Settles O5: a write at offset 0 is `submit`, which runs the decoded command. -/
theorem stepRunsTheDecodedCommand : Obligations.StepRunsTheDecodedCommand := by
  refine ⟨fun s w rest i hpend hd _ => ?_, fun s => step_of_no_move⟩
  obtain ⟨hsubmit, -⟩ := registerWritesFollowTheMap { s with pending := rest } w
  rw [step_of_pending hpend, hsubmit, submit, hd]

/-! Reset and `CLR`. -/

/-- Settles O9: the fields of the reset state, and no move pending. -/
theorem resetLeavesTheBlockFresh : Obligations.ResetLeavesTheBlockFresh :=
  ⟨rfl, rfl, rfl, rfl, rfl, rfl, rfl, rfl, rfl, rfl, rfl, rfl, rfl, step_of_no_move rfl⟩

/-- Settles O11: `CLR` is `clear`, field by field. -/
theorem clrGivesTheResetState : Obligations.ClrGivesTheResetState := fun _ => rfl

/-- Settles O52: none of these fields is among those that a command writes, completing or faulting. -/
theorem commandsLeaveTheHostsRegisters : Obligations.CommandsLeaveTheHostsRegisters := by
  intro i s t h
  cases exec_effect h with
  | ignored | cleared | counted | normed | builtE | builtD | derived | packed | headerWritten | unpacked | outOfSequence |
    degenerate | packFault | countRange | headerOverflow | shortHeader | shortPayload | unpackFault =>
    exact ⟨rfl, rfl, rfl, rfl, rfl, rfl⟩
  | parsed => simp

/-! The table window outside the tables. -/

theorem nodeWord_of_two_le (n : Node) {word : BitVec 3} (h : 2 ≤ word.toNat) : nodeWord n word = 0 := by
  unfold nodeWord
  split
  case h_3 => rfl
  all_goals omega

theorem codeWord_of_five_le (bits : BitString) {word : BitVec 3} (h : 5 ≤ word.toNat) : codeWord bits word = 0 := by
  unfold codeWord
  split
  case h_6 => rfl
  all_goals omega

/-- Settles O18: selector by selector, an index outside the table or a word beyond the entry. -/
theorem windowReadsZeroOutside : Obligations.WindowReadsZeroOutside := by
  refine fun s => ⟨fun hsel => ?_, fun hsel hout => ?_, fun hsel hout => ?_, fun hsel hout => ?_⟩ <;>
    simp only [tableWord, hsel]
  · rfl
  · by_cases hidx : s.tblAddr.idx.toNat < 256
    · exact (dif_pos hidx).trans (if_neg (hout.resolve_left (Nat.not_le.mpr hidx)))
    · exact dif_neg hidx
  · cases hn : s.nodes[s.tblAddr.idx.toNat]? with
    | none => rfl
    | some n =>
      have hidx : s.tblAddr.idx.toNat < s.nodes.length := (List.getElem?_eq_some_iff.mp hn).1
      exact nodeWord_of_two_le n (hout.resolve_left (Nat.not_le.mpr hidx))
  · by_cases hidx : s.tblAddr.idx.toNat < 256
    · exact (dif_pos hidx).trans (codeWord_of_five_le _ (hout.resolve_left (Nat.not_le.mpr hidx)))
    · exact dif_neg hidx

/-! The host's moves. -/

/-- Settles O19: `hostMove` checks the offset first. -/
theorem unalignedAccessesAreRefused : Obligations.UnalignedAccessesAreRefused := by
  intro s o v ho
  have ha : ¬Offset.aligned o = true := fun ha => ho (aligned_iff.mp ha)
  exact ⟨if_neg ha, if_neg ha⟩

theorem hostMove_fillSrc {i : Nat} {bytes : List Byte} (h : i + bytes.length ≤ 2 ^ 64) (s : State) :
    hostMove (.fillSrc i bytes) s = .next (hostFill i bytes s) :=
  if_pos (decide_eq_true h)

/-- Settles O20: a run stored in `SRC` is read back, and the rest of `SRC` is as before. -/
theorem srcHoldsWhatTheHostPlaced : Obligations.SrcHoldsWhatTheHostPlaced := by
  refine fun s i bytes h => ⟨hostFill i bytes s, hostMove_fillSrc h s, rfl, fun k hk => ?_, fun a ha => ?_⟩
  · rw [srcByte, hostFill_src, Memory.read?_writeRun_inside hk, Option.getD_some]
  · rw [srcByte, hostFill_src, Memory.read?_writeRun_outside ha, srcByte]

/-- The phases of R74. -/
theorem dstReadable_iff {p : Phase} : dstReadable p = true ↔ p = .doneE ∨ p = .doneD := by
  simp [dstReadable]

/-- Settles O21: the index is checked first, then the phase; the byte is that of the buffer. -/
theorem dstShowsWhatWasStored : Obligations.DstShowsWhatWasStored := by
  intro s i
  have hwf : HostOp.wf (.readDst i) = true ↔ i < 2 ^ 64 := decide_eq_true_iff
  refine ⟨fun hi hp => ?_, fun b => dstByte_of_listed, fun hi he hd => ?_, fun bytes hi => ?_, fun hi => ?_⟩
  · rw [hostMove, if_pos (hwf.mpr hi), if_pos (dstReadable_iff.mpr hp)]
    rfl
  · rw [hostMove, if_pos (hwf.mpr hi), if_neg (fun hr => (dstReadable_iff.mp hr).elim he hd)]
  · exact if_neg (fun h => Nat.not_lt.mpr (of_decide_eq_true h) hi)
  · exact if_neg (fun h => Nat.not_lt.mpr hi (hwf.mp h))

end Sys2Proof.Machine
end
